-- ==== Sys2Proof/Word.lean ====
section
/-! DEFINITION. Word.lean: the word types of the Arduboy2 TFT transport block (spec/00_scope.md section 7: `u8`,
`u12`, `u16`, `u24`, `u32`, `u64`, all unsigned; bit 0 is the least significant bit of every value). -/

namespace Sys2Proof

/-- `u8`: one byte of memory, or one byte on the wire. -/
abbrev Byte := BitVec 8

/-- `u12`, `Color12`: a packed RGB444 value, bits 11:8 red, 7:4 green, 3:0 blue (R93). -/
abbrev Color12 := BitVec 12

/-- `u16`: the `cval`, `w` and `h` operands (R82). -/
abbrev Half := BitVec 16

/-- `u24`: a byte count (R82, R38). -/
abbrev Count := BitVec 24

/-- `u32`: a byte address of memory or of the SPI data register; `ADDR_W = 32` (R6, R60). -/
abbrev Addr := BitVec 32

/-- `u64`: a host operation word (R80). -/
abbrev OpWord := BitVec 64

end Sys2Proof
end

