-- ==== Sys2Proof/Config.lean ====
section
/-! DEFINITION. Config.lean: what an implementation of the block fixes (spec/00_scope.md R6) and the free values
(values the spec leaves unspecified). What is computed from the parameters stands in Machine/Geometry.lean. -/

namespace Sys2Proof

/-- How `PAINT` sends a frame (R6, R8): blocking byte writes, or the DMA channel. -/
inductive Transport where
  | sync
  | dma
deriving DecidableEq, Repr

/-- The data/command select line (R26); the electrical level is not modelled. -/
inductive DcLine where
  | command
  | data
deriving DecidableEq, Repr

/-- The panel's chip-select line (R27). -/
inductive CsLine where
  | selected
  | deselected
deriving DecidableEq, Repr

/-- The panel's reset line (R28). -/
inductive RstLine where
  | asserted
  | released
deriving DecidableEq, Repr

/-- `THEME[0..3]` (R29): `PIXEL`, `BG`, `BLINE`, `BFILL`. -/
structure Theme where
  pixel : Color12
  bg : Color12
  bline : Color12
  bfill : Color12
deriving DecidableEq, Repr

/-- `LED[0..2]` (R30): the brightness of the red, green and blue channel. -/
structure Leds where
  red : Byte
  green : Byte
  blue : Byte
deriving DecidableEq, Repr

/-- `TD`, the TransferDescriptor (R38): source pointer, remaining byte count, destination register address and the
increment-source flag. -/
structure Descriptor where
  src : Addr
  cnt : Count
  dst : Addr
  inc : Bool
deriving DecidableEq, Repr

/-- The implementation parameters (R6), fixed for the lifetime of a machine. `ADDR_W` is the constant 32. The last
five are the reset contents the source does not give (`THEME_RESET`, `LED_RESET`, `DC_RESET`, `RST_RESET`,
`TD_RESET`). -/
structure Config where
  transport : Transport
  panelW : Nat
  panelH : Nat
  srcW : Nat
  srcH : Nat
  dstW : Nat
  dstH : Nat
  gap : Bool
  ledPresent : Bool
  ledH : Nat
  spiDrAddr : Addr
  streamBase : Addr
  nOther : Nat
  themeReset : Theme
  ledReset : Leds
  dcReset : DcLine
  rstReset : RstLine
  tdReset : Descriptor
deriving DecidableEq, Repr

/-- The parameters `Sys2Proof.Machine.State.reset` takes: what configuration T1 of spec/95_test_vectors.md Part 2
gives, with the open reset values zero, `Data` and `Released`. DESIGN CHOICE, unsafe (assumptions 1 and 2): the spec
says no variant is the reference one, so a statement for every board quantifies over `Config`. T1 does not give
`spiDrAddr` (value open, R6, R66), `streamBase` (n/a there) or `ledH` (n/a there): DESIGN CHOICE, unsafe (assumption
22), `spiDrAddr` is 0, and `streamBase` and `ledH` are those of configuration T2. -/
def Config.reference : Config where
  transport := .sync
  panelW := 12
  panelH := 12
  srcW := 8
  srcH := 8
  dstW := 8
  dstH := 8
  gap := false
  ledPresent := false
  ledH := 2
  spiDrAddr := 0
  streamBase := 0x20001000
  nOther := 1
  themeReset := ⟨0, 0, 0, 0⟩
  ledReset := ⟨0, 0, 0⟩
  dcReset := .data
  rstReset := .released
  tdReset := ⟨0, 0, 0, false⟩

/-- The contents of `TD.SRC` once the completion handler has torn the descriptor down (R38, R176, U14: any value),
and the register's value after its increment has passed `2^32` (assumptions 5 and 6). Free value: the machine
applies it to a counter that moves on at every use. -/
opaque Config.freeTdSrc : Nat → Addr

/-- The contents of `TD.CNT` after the completion handler (R38, U14). Free value. -/
opaque Config.freeTdCnt : Nat → Count

/-- The contents of `TD.DST` after the completion handler (R38, U14). Free value. -/
opaque Config.freeTdDst : Nat → Addr

/-- The contents of `TD.INC` after the completion handler (R38, U14). Free value. -/
opaque Config.freeTdInc : Nat → Bool

end Sys2Proof
end

