-- ==== Sys2Proof/Syntax.lean ====
section
/-! DEFINITION. Syntax.lean: the operations of the block, one constructor for each row of spec/opcode_table.json:
the 24 host operations of R83 (operands as R82 assembles them), and the 15 wire commands of R270 as the host's
pseudo-operations of R87 (the operands are the parameter bytes). -/

namespace Sys2Proof

/-- One operation the host presents. -/
inductive Instr where
  -- TransportBus (41_transportbus.md)
  | acquire
  | release
  | cmdMode
  | dataMode
  | writeByte (imm8 : Byte)
  | sendCommand (imm8 : Byte)
  | setWriteRegion (x y : Byte) (w h : Half)
  | csSelect
  | csDeselect
  | rstAssert
  | rstRelease
  -- DmaChannel (42_dmachannel.md)
  | startTransfer (src : Addr) (len : Count)
  -- ColorModel (40_colormodel.md)
  | setPixelColor (cval : Half)
  | setBgColor (cval : Half)
  | setBorderLineColor (cval : Half)
  | setBorderFillColor (cval : Half)
  | invert (flag : Bool)
  -- FrameCompositor (43_framecompositor.md)
  | paint (src : Addr) (clr : Bool)
  -- BorderRenderer (44_borderrenderer.md)
  | drawBorder
  -- LedBar (45_ledbar.md)
  | ledSetChannel (ch : BitVec 2) (level : Byte)
  | ledSetAll (r g b : Byte)
  | ledSetDigital (ch : BitVec 2) (on : Bool)
  | ledRender
  | setOrient (flag : Bool)
  -- the panel command set (46_panel_commands.md)
  | swreset
  | slpin
  | slpout
  | invoff
  | invon
  | dispoff
  | dispon
  | caset (xs xe : Byte)
  | raset (ys ye : Byte)
  | ramwr
  | madctl (p : Byte)
  | colmod (p : Byte)
  | frmctr1 (p0 p1 p2 : Byte)
  | gmctrp1 (ps : List Byte)
  | gmctrn1 (ps : List Byte)
deriving DecidableEq, Repr

/-- One line of a host program (R22, R86): a host operation word (R80), or the wire frame a pseudo-operation of R87
stands for, its command code and then its parameter bytes (R90). -/
inductive Item where
  | word (w : OpWord)
  | frame (bytes : List Byte)
deriving DecidableEq, Repr

end Sys2Proof
end

