-- ==== Sys2Proof/Decode.lean ====
section
/-! DEFINITION. Decode.lean: the two encodings of spec/30_encoding.md. A host operation is one 64-bit word (R80 to
R84); a wire command is a code byte and a fixed number of parameter bytes (R90, R270). The decoder is total and names
what it rejects; the encoder writes the same tables the other way. -/

namespace Sys2Proof

/-- Why a word or a frame is refused (R84, R90, R91). -/
inductive Reject where
  /-- The opcode `W[7:0]` is none of the 24 of R83 (R84). -/
  | undefinedOpcode
  /-- A bit outside the fields of the word's format is 1 (R81, R84). -/
  | reservedBit
  /-- `LED_SET_CHANNEL` or `LED_SET_DIGITAL` with `ch = 3` (R84, U12). -/
  | reservedChannel
  /-- The frame's code is none of the 15 of R270; a host sends such a code with `SEND_COMMAND` (R95). -/
  | undefinedCommand
  /-- The frame has no code byte, or not the parameter count R270 fixes for its code (R90). -/
  | frameLength
  /-- A high byte of an address-window parameter is not `0x00` (R91). -/
  | windowHighByte
deriving DecidableEq, Repr

/-- The bits `W[hi:lo]` of a word, `n = hi - lo + 1` of them (R81; 00_scope.md section 7). -/
def field (w : OpWord) (lo n : Nat) : BitVec n :=
  w.extractLsb' lo n

/-- One bit of a word, `W[i]`. -/
def bit (w : OpWord) (i : Nat) : Bool :=
  w.getLsbD i

/-- A word whose reserved bits `W[lo+n-1:lo]` must be 0 (R81). -/
def whenZero (w : OpWord) (lo n : Nat) (i : Instr) : Except Reject Instr :=
  if field w lo n = 0 then .ok i else .error .reservedBit

/-- Formats `L1` and `LD`: the reserved bits are two ranges, and `ch = 3` is reserved (R81, R84). -/
def whenChannel (w : OpWord) (lo n : Nat) (i : Instr) : Except Reject Instr :=
  if field w 10 6 = 0 ∧ field w lo n = 0 then
    if field w 8 2 = 3 then .error .reservedChannel else .ok i
  else .error .reservedBit

/-- The instruction a host operation word stands for (R81 to R84). -/
def decodeWord (w : OpWord) : Except Reject Instr :=
  match field w 0 8 with
  | 0x01#8 => whenZero w 8 56 .acquire
  | 0x02#8 => whenZero w 8 56 .release
  | 0x03#8 => whenZero w 8 56 .cmdMode
  | 0x04#8 => whenZero w 8 56 .dataMode
  | 0x05#8 => whenZero w 16 48 (.writeByte (field w 8 8))
  | 0x06#8 => whenZero w 16 48 (.sendCommand (field w 8 8))
  | 0x07#8 => whenZero w 56 8 (.setWriteRegion (field w 8 8) (field w 16 8) (field w 24 16) (field w 40 16))
  | 0x08#8 => whenZero w 8 56 .csSelect
  | 0x09#8 => whenZero w 8 56 .csDeselect
  | 0x0A#8 => whenZero w 8 56 .rstAssert
  | 0x0B#8 => whenZero w 8 56 .rstRelease
  | 0x10#8 => .ok (.startTransfer (field w 32 32) (field w 8 24))
  | 0x20#8 => whenZero w 24 40 (.setPixelColor (field w 8 16))
  | 0x21#8 => whenZero w 24 40 (.setBgColor (field w 8 16))
  | 0x22#8 => whenZero w 24 40 (.setBorderLineColor (field w 8 16))
  | 0x23#8 => whenZero w 24 40 (.setBorderFillColor (field w 8 16))
  | 0x24#8 => whenZero w 9 55 (.invert (bit w 8))
  | 0x30#8 => whenZero w 9 23 (.paint (field w 32 32) (bit w 8))
  | 0x31#8 => whenZero w 8 56 .drawBorder
  | 0x40#8 => whenChannel w 24 40 (.ledSetChannel (field w 8 2) (field w 16 8))
  | 0x41#8 => whenZero w 32 32 (.ledSetAll (field w 8 8) (field w 16 8) (field w 24 8))
  | 0x42#8 => whenChannel w 17 47 (.ledSetDigital (field w 8 2) (bit w 16))
  | 0x43#8 => whenZero w 8 56 .ledRender
  | 0x44#8 => whenZero w 9 55 (.setOrient (bit w 8))
  | _ => .error .undefinedOpcode

/-- A frame without parameter bytes (R270). -/
def noParams (ps : List Byte) (i : Instr) : Except Reject Instr :=
  match ps with
  | [] => .ok i
  | _ => .error .frameLength

/-- A frame with one parameter byte (R270). -/
def oneParam (ps : List Byte) (i : Byte → Instr) : Except Reject Instr :=
  match ps with
  | [p] => .ok (i p)
  | _ => .error .frameLength

/-- The address-window block `0x00, start, 0x00, end` (R91). -/
def windowParams (ps : List Byte) (i : Byte → Byte → Instr) : Except Reject Instr :=
  match ps with
  | [h0, lo, h1, hi] => if h0 = 0 ∧ h1 = 0 then .ok (i lo hi) else .error .windowHighByte
  | _ => .error .frameLength

/-- A frame with sixteen parameter bytes (R270). -/
def gammaParams (ps : List Byte) (i : List Byte → Instr) : Except Reject Instr :=
  if ps.length = 16 then .ok (i ps) else .error .frameLength

/-- The instruction a command code and its parameter bytes stand for (R90, R91, R270 to R285). -/
def decodeCommand (code : Byte) (ps : List Byte) : Except Reject Instr :=
  match code with
  | 0x01#8 => noParams ps .swreset
  | 0x10#8 => noParams ps .slpin
  | 0x11#8 => noParams ps .slpout
  | 0x20#8 => noParams ps .invoff
  | 0x21#8 => noParams ps .invon
  | 0x28#8 => noParams ps .dispoff
  | 0x29#8 => noParams ps .dispon
  | 0x2A#8 => windowParams ps .caset
  | 0x2B#8 => windowParams ps .raset
  | 0x2C#8 => noParams ps .ramwr
  | 0x36#8 => oneParam ps .madctl
  | 0x3A#8 => oneParam ps .colmod
  | 0xB1#8 =>
    match ps with
    | [p0, p1, p2] => .ok (.frmctr1 p0 p1 p2)
    | _ => .error .frameLength
  | 0xE0#8 => gammaParams ps .gmctrp1
  | 0xE1#8 => gammaParams ps .gmctrn1
  | _ => .error .undefinedCommand

/-- The instruction a wire frame stands for. -/
def decodeFrame : List Byte → Except Reject Instr
  | [] => .error .frameLength
  | code :: ps => decodeCommand code ps

/-- The instruction one line of a host program stands for. -/
def decode : Item → Except Reject Instr
  | .word w => decodeWord w
  | .frame bytes => decodeFrame bytes

/-- An operand shifted to its field's low bit (R86). -/
def shifted {n : Nat} (v : BitVec n) (lo : Nat) : OpWord :=
  v.setWidth 64 <<< lo

/-- A one-bit operand shifted to its bit (R86). -/
def shiftedBit (v : Bool) (lo : Nat) : OpWord :=
  shifted (BitVec.ofBool v) lo

/-- Format `Z` (R81): "the opcode or-ed with each operand shifted to its field's low bit" (R86), no operand. -/
def wordZ (op : Byte) : OpWord := shifted op 0

/-- Format `B` (R81, R86). -/
def wordB (op imm8 : Byte) : OpWord := shifted op 0 ||| shifted imm8 8

/-- Format `C` (R81, R86). -/
def wordC (op : Byte) (cval : Half) : OpWord := shifted op 0 ||| shifted cval 8

/-- Format `F` (R81, R86). -/
def wordF (op : Byte) (flag : Bool) : OpWord := shifted op 0 ||| shiftedBit flag 8

/-- Format `R` (R81, R86). -/
def wordR (op x y : Byte) (w h : Half) : OpWord :=
  shifted op 0 ||| shifted x 8 ||| shifted y 16 ||| shifted w 24 ||| shifted h 40

/-- Format `T` (R81, R86). -/
def wordT (op : Byte) (src : Addr) (len : Count) : OpWord := shifted op 0 ||| shifted len 8 ||| shifted src 32

/-- Format `P` (R81, R86). -/
def wordP (op : Byte) (src : Addr) (clr : Bool) : OpWord := shifted op 0 ||| shiftedBit clr 8 ||| shifted src 32

/-- Format `L1` (R81, R86). -/
def wordL1 (op : Byte) (ch : BitVec 2) (level : Byte) : OpWord := shifted op 0 ||| shifted ch 8 ||| shifted level 16

/-- Format `L3` (R81, R86). -/
def wordL3 (op r g b : Byte) : OpWord := shifted op 0 ||| shifted r 8 ||| shifted g 16 ||| shifted b 24

/-- Format `LD` (R81, R86). -/
def wordLD (op : Byte) (ch : BitVec 2) (on : Bool) : OpWord := shifted op 0 ||| shifted ch 8 ||| shiftedBit on 16

/-- The word (R81, R83) or the wire frame (R90, R91, R270) of an instruction. -/
def encode : Instr → Item
  | .acquire => .word (wordZ 0x01)
  | .release => .word (wordZ 0x02)
  | .cmdMode => .word (wordZ 0x03)
  | .dataMode => .word (wordZ 0x04)
  | .writeByte imm8 => .word (wordB 0x05 imm8)
  | .sendCommand imm8 => .word (wordB 0x06 imm8)
  | .setWriteRegion x y w h => .word (wordR 0x07 x y w h)
  | .csSelect => .word (wordZ 0x08)
  | .csDeselect => .word (wordZ 0x09)
  | .rstAssert => .word (wordZ 0x0A)
  | .rstRelease => .word (wordZ 0x0B)
  | .startTransfer src len => .word (wordT 0x10 src len)
  | .setPixelColor cval => .word (wordC 0x20 cval)
  | .setBgColor cval => .word (wordC 0x21 cval)
  | .setBorderLineColor cval => .word (wordC 0x22 cval)
  | .setBorderFillColor cval => .word (wordC 0x23 cval)
  | .invert flag => .word (wordF 0x24 flag)
  | .paint src clr => .word (wordP 0x30 src clr)
  | .drawBorder => .word (wordZ 0x31)
  | .ledSetChannel ch level => .word (wordL1 0x40 ch level)
  | .ledSetAll r g b => .word (wordL3 0x41 r g b)
  | .ledSetDigital ch on => .word (wordLD 0x42 ch on)
  | .ledRender => .word (wordZ 0x43)
  | .setOrient flag => .word (wordF 0x44 flag)
  | .swreset => .frame [0x01]
  | .slpin => .frame [0x10]
  | .slpout => .frame [0x11]
  | .invoff => .frame [0x20]
  | .invon => .frame [0x21]
  | .dispoff => .frame [0x28]
  | .dispon => .frame [0x29]
  | .caset xs xe => .frame [0x2A, 0, xs, 0, xe]
  | .raset ys ye => .frame [0x2B, 0, ys, 0, ye]
  | .ramwr => .frame [0x2C]
  | .madctl p => .frame [0x36, p]
  | .colmod p => .frame [0x3A, p]
  | .frmctr1 p0 p1 p2 => .frame [0xB1, p0, p1, p2]
  | .gmctrp1 ps => .frame (0xE0 :: ps)
  | .gmctrn1 ps => .frame (0xE1 :: ps)

/-- The parameter bytes that follow a command code (R270); 0 for a code outside the table. -/
def paramCount (code : Byte) : Nat :=
  match code with
  | 0x2A#8 => 4
  | 0x2B#8 => 4
  | 0x36#8 => 1
  | 0x3A#8 => 1
  | 0xB1#8 => 3
  | 0xE0#8 => 16
  | 0xE1#8 => 16
  | _ => 0

/-- The program line for the bits `w` of a row of spec/opcode_table.json that has `nbits` bits: the rows of 8 bits
are the wire command codes, here with every parameter byte 0; the others are host operation words (assumption 8). -/
def itemOfTable (nbits w : Nat) : Item :=
  if nbits ≤ 8 then
    .frame (BitVec.ofNat 8 w :: List.replicate (paramCount (BitVec.ofNat 8 w)) 0)
  else
    .word (BitVec.ofNat 64 w)

/-- What the decoder reads from the bits `w` of a row of `nbits` bits; `none` where it refuses. -/
def decodeTableWord (nbits w : Nat) : Option Instr :=
  match decode (itemOfTable nbits w) with
  | .ok i => some i
  | .error _ => none

/-- A pseudo-operation's host operations, `SEND_COMMAND code` and one `WRITE_BYTE` for each parameter byte (R87). -/
def commandListing (code : Byte) (ps : List Byte) : List Instr :=
  .sendCommand code :: ps.map .writeByte

/-- The host operations a program line stands for (R87): a pseudo-operation is expanded, a host operation is
itself. -/
def expand (i : Instr) : List Instr :=
  match encode i with
  | .word _ => [i]
  | .frame [] => []
  | .frame (code :: ps) => commandListing code ps

end Sys2Proof
end

