-- ==== Sys2Proof/Machine/State.lean ====
section
/-! DEFINITION. Machine/State.lean: the state of the block (spec/10_state.md R20), of the agents around it (R5), and
the ways a step can stop. Everything is plain data. -/

namespace Sys2Proof.Machine

/-- `HOLDER`, the ghost of R25: on whose behalf the lock is held. `cons 0` is the host. -/
inductive Holder where
  | none
  | cons (k : Nat)
  | dma
deriving DecidableEq, Repr

/-- `DSTATE`, the state of the DMA channel (R34). -/
inductive DmaState where
  | idle
  | configuring
  | inFlight
  | completingIrq
deriving DecidableEq, Repr

/-- A wire-trace event (spec/00_scope.md section 7). `other k` is a byte of another consumer, tagged as R158 asks. -/
inductive Event where
  | byte (cs : CsLine) (dc : DcLine) (b : Byte)
  | other (k : Nat) (cs : CsLine) (dc : DcLine) (b : Byte)
  | cs (s : CsLine)
  | dc (m : DcLine)
  | rst (a : RstLine)
deriving DecidableEq, Repr

/-- `MEM`: the allocated bytes, addresses strictly rising (R60, R67). An address that is not listed is not allocated,
and the block's accesses to it fault (assumption 4). -/
abbrev Memory := List Host.Cell

/-- A Theme register by number (R29). -/
inductive ThemeReg where
  | pixel
  | bg
  | bline
  | bfill
deriving DecidableEq, Repr

/-- One primitive step of the sequencer (R13), named after the pseudocode line it is. -/
inductive Act where
  /-- R140. -/
  | acquire
  /-- R141. -/
  | release
  /-- R142. -/
  | cmdMode
  /-- R143. -/
  | dataMode
  /-- R148. -/
  | csSelect
  /-- R149. -/
  | csDeselect
  /-- R150. -/
  | rstAssert
  /-- R151. -/
  | rstRelease
  /-- R144. -/
  | writeByte (b : Byte)
  /-- The `require` lines of R146. -/
  | requireRegion (x y w h : Nat)
  /-- R170. -/
  | startTransfer (src : Addr) (len : Count)
  /-- `THEME[r] <- c` (R116). -/
  | setTheme (r : ThemeReg) (c : Color12)
  /-- `INVERTED <- flag`, and the swap of `THEME[0]` and `THEME[1]` (R122). -/
  | swapTheme (flag : Bool)
  /-- `LED[ch] <- level` (R250, R252). -/
  | setLed (ch : BitVec 2) (level : Byte)
  /-- `LED <- (r, g, b)` (R251). -/
  | setLeds (l : Leds)
  /-- `ORIENT <- flag` (R256). -/
  | setOrient (flag : Bool)
  /-- `BORDER_DRAWN <- 1` (R230). -/
  | setBorderDrawn
  /-- `s <- StreamBytes(p[0..N_PIX-1])` of R190 and R191, with the pixels composed from the buffer at `buf`. -/
  | compose (buf : Addr)
  /-- `WriteByte` of the next byte of `s` (R190). -/
  | sendStream
  /-- `MemWrite(STREAM_BASE + i, 1, s[i])`, `s[i]` the next byte of `s` (R191). -/
  | storeStream (i : Nat)
  /-- `MemWrite(buf + i, 1, 0x00)` (R197). -/
  | clearByte (buf : Addr) (i : Nat)
deriving DecidableEq, Repr

/-- A primitive step and the host operation it belongs to, which a fault records (R301). -/
structure PrimStep where
  op : Instr
  act : Act
deriving DecidableEq, Repr

/-- Whose turn it is (R5, R309): the host's primitive step, a step of the DMA channel or of the completion handler, a
step of another consumer (R158), or a store of the host processor between two operations (assumption 17). -/
inductive Turn where
  | host
  | dmaBeat
  | dmaIrq
  | oAcquire (k : Nat)
  | oByte (k : Nat) (b : Byte)
  | oRelease (k : Nat)
  | hostStore (a : Nat) (b : Byte)
deriving DecidableEq, Repr

/-- The state of the whole machine. -/
structure State where
  /-- The parameters of R6; no step writes them (assumption 3). -/
  cfg : Config
  /-- `LOCK` (R24). -/
  lock : Bool
  /-- `HOLDER` (R25). -/
  holder : Holder
  /-- `DC` (R26). -/
  dc : DcLine
  /-- `CS` (R27). -/
  cs : CsLine
  /-- `RST` (R28). -/
  rst : RstLine
  /-- `THEME[0..3]` (R29). -/
  theme : Theme
  /-- `LED[0..2]` (R30). -/
  led : Leds
  /-- `INVERTED` (R31). -/
  inverted : Bool
  /-- `BORDER_DRAWN` (R32). -/
  borderDrawn : Bool
  /-- `ORIENT` (R33). -/
  orient : Bool
  /-- `DSTATE` (R34). -/
  dstate : DmaState
  /-- `CH_EN` (R35). -/
  chEn : Bool
  /-- `IRQ_EN` (R36). -/
  irqEn : Bool
  /-- `IRQ_PEND` (R37). -/
  irqPend : Bool
  /-- `TD` (R38). -/
  td : Descriptor
  /-- `MEM` (R60). -/
  mem : Memory
  /-- The wire trace `WT`, oldest event first (R12). -/
  wt : List Event
  /-- The host program (R22). -/
  prog : List Item
  /-- The index of the operation the host presents next or is inside of (R22). -/
  opi : Nat
  /-- The primitive steps left of the operation in progress (R13); empty between operations. -/
  busy : List PrimStep
  /-- The bytes of `s` that a `PAINT` in progress has composed and not yet used (R190, R191). -/
  stream : List Byte
  /-- The model's own: the order in which agents move, an input (assumption 9). -/
  turns : List Turn
  /-- The model's own: `TD.SRC`'s increment has passed `2^32` (R67, R170; assumption 6). -/
  srcPast : Bool
  /-- The model's own: how many free values have been used (assumption 5). -/
  freeIdx : Nat
deriving DecidableEq, Repr

/-- The six model faults (R301). Each replaces a step whose precondition fails (R14), ends the run and changes
nothing (R302); each is safe, since the source gives the violation no meaning. `op` is the host operation whose word
R301 says is recorded. -/
inductive Fault where
  /-- Code 1, `F_NOLOCK`: a bus operation while the host does not hold the lock; raised by R142 to R146, R148, R149
  and R170. -/
  | noLock (op : Instr)
  /-- Code 2, `F_RELEASE`: `RELEASE` while the host does not hold the lock; raised by R141. -/
  | release (op : Instr)
  /-- Code 3, `F_REGION`: a WriteRegion that is empty or not inside the panel; raised by R146. -/
  | region (op : Instr)
  /-- Code 4, `F_DMA_BUSY`: `START_TRANSFER` on a channel that is not idle; raised by R170. -/
  | dmaBusy (op : Instr)
  /-- Code 5, `F_LEN_ZERO`: `START_TRANSFER` of no bytes; raised by R170. -/
  | lenZero (op : Instr)
  /-- Code 6, `F_MEM`: an access to a byte that is not allocated, or past `2^32`; raised by R174, R191, R192 and
  R197. -/
  | mem (addr : Nat)
deriving DecidableEq, Repr

/-- Why the machine gives no meaning to what it is given. Each is safe: nothing happens. -/
inductive Refusal where
  /-- An operation this model gives no meaning; raised by no arm of `exec`. -/
  | notModelled (mnemonic : String)
  /-- A word or a frame that R84, R90 or R91 refuses; raised when the host presents it. -/
  | encoding (why : Reject)
  /-- The parameters break a constraint of R7 (U20: the model is not instantiated); raised by `step`. -/
  | configuration
  /-- A `PAINT` whose PixelBuffer overlaps the stream buffer (R7 c4, R199, U20); raised by `PAINT`. -/
  | bufferOverlap
deriving DecidableEq, Repr

/-- The outcome of a step of this machine. -/
abbrev Outcome := Host.Outcome State Fault Refusal

/-- The machine right after reset, for any parameters (R330, R331): nothing on the wire, no operation in progress, no
program, no memory allocated (assumptions 4 and 7). -/
def State.resetWith (c : Config) : State where
  cfg := c
  lock := false
  holder := .none
  dc := c.dcReset
  cs := .deselected
  rst := c.rstReset
  theme := c.themeReset
  led := c.ledReset
  inverted := false
  borderDrawn := false
  orient := false
  dstate := .idle
  chEn := false
  irqEn := false
  irqPend := false
  td := c.tdReset
  mem := []
  wt := []
  prog := []
  opi := 0
  busy := []
  stream := []
  turns := []
  srcPast := false
  freeIdx := 0

/-- The machine right after reset, with the parameters of assumption 1. -/
def State.reset : State := State.resetWith Config.reference

end Sys2Proof.Machine
end

