-- ==== Sys2Proof/Machine/Flags.lean ====
section
/-! DEFINITION. Machine/Flags.lean: the single-bit status flags as bits (R23) and the read-only register view
`CR[0..9]` of spec/10_state.md R40. No operation computes a flag as a side effect of arithmetic (R23): each flag is
written by the step its rule names, in Machine/Ops.lean. -/

namespace Sys2Proof.Machine

/-- A flag as a bit of a 32-bit view. -/
def flagAt (f : Bool) (i : Nat) : BitVec 32 :=
  (BitVec.ofBool f).setWidth 32 <<< i

/-- `DSTATE` as a number: 0 Idle, 1 Configuring, 2 InFlight, 3 CompletingIRQ (R40). -/
def dstateCode : DmaState → BitVec 32
  | .idle => 0
  | .configuring => 1
  | .inFlight => 2
  | .completingIrq => 3

/-- `CR[0]`, `STATUS` (R40); bits 31:12 read 0. -/
def statusWord (s : State) : BitVec 32 :=
  flagAt s.lock 0 ||| flagAt (decide (s.dc = .data)) 1 ||| flagAt (decide (s.cs = .selected)) 2 |||
  flagAt (decide (s.rst = .asserted)) 3 ||| (dstateCode s.dstate <<< 4) ||| flagAt s.chEn 6 ||| flagAt s.irqEn 7 |||
  flagAt s.irqPend 8 ||| flagAt s.borderDrawn 9 ||| flagAt s.inverted 10 ||| flagAt s.orient 11

/-- `CR[n]` (R40): a view, computed from the fields; there are ten. -/
def controlRegister (s : State) (n : Nat) : Option (BitVec 32) :=
  match n with
  | 0 => some (statusWord s)
  | 1 => some s.td.src
  | 2 => some (s.td.cnt.setWidth 32)
  | 3 => some s.td.dst
  | 4 => some (flagAt s.td.inc 0)
  | 5 => some (s.theme.pixel.setWidth 32)
  | 6 => some (s.theme.bg.setWidth 32)
  | 7 => some (s.theme.bline.setWidth 32)
  | 8 => some (s.theme.bfill.setWidth 32)
  | 9 => some (s.led.red.setWidth 32 ||| (s.led.green.setWidth 32 <<< 8) ||| (s.led.blue.setWidth 32 <<< 16))
  | _ => none

/-- The model-level code of a fault (R301). -/
def faultCode : Fault → Nat
  | .noLock _ => 1
  | .release _ => 2
  | .region _ => 3
  | .dmaBusy _ => 4
  | .lenZero _ => 5
  | .mem _ => 6

/-- The operation word a fault records (R301); `F_MEM` records the byte address instead. -/
def faultWord : Fault → Option Item
  | .noLock op => some (encode op)
  | .release op => some (encode op)
  | .region op => some (encode op)
  | .dmaBusy op => some (encode op)
  | .lenZero op => some (encode op)
  | .mem _ => none

/-- The completion interrupt is requested and enabled (R306, R307). -/
def irqEnabled (s : State) : Bool :=
  s.irqPend && s.irqEn && decide (s.dstate = .inFlight)

/-- The DMA channel has a beat to make (R174). -/
def beatEnabled (s : State) : Bool :=
  decide (s.dstate = .inFlight) && s.chEn && decide (0 < s.td.cnt.toNat)

end Sys2Proof.Machine
end

