-- ==== Sys2Proof/Machine/Geometry.lean ====
section
/-! DEFINITION. Machine/Geometry.lean: what is computed from the parameters: the derived constants and the
constraints of spec/00_scope.md R7, and the rectangles of spec/44_borderrenderer.md R220 and R221. All values are
natural numbers, all divisions floor divisions (R15). -/

namespace Sys2Proof.Machine

/-- `2^ADDR_W`, the number of byte addresses (R60). -/
def addrSpace : Nat := 4294967296

/-- `ceil2(n)` (00_scope.md section 7). -/
def ceil2 (n : Nat) : Nat := (n + 1) / 2

/-- `GAP` as a number (R6). -/
def gapN (c : Config) : Nat := if c.gap then 1 else 0

/-- `SRC_BYTES` (R7). -/
def srcBytes (c : Config) : Nat := c.srcW * c.srcH / 8

/-- `N_PIX` (R7). -/
def nPix (c : Config) : Nat := c.dstW * c.dstH

/-- `STREAM_LEN` (R7). -/
def streamLen (c : Config) : Nat := 3 * ceil2 (nPix c)

/-- `marginX` (R220). -/
def marginX (c : Config) : Nat := (c.panelW - c.dstW - 2) / 2

/-- `marginY` (R220). -/
def marginY (c : Config) : Nat := (c.panelH - c.dstH - 2) / 2

/-- `VX0`, the viewport's first column (R220). -/
def vx0 (c : Config) : Nat := marginX c + 1

/-- `VY0`, the viewport's first row (R220). -/
def vy0 (c : Config) : Nat := marginY c + 1

/-- `MX`, the width of the left fill strip (R220). -/
def mx (c : Config) : Nat := marginX c - gapN c

/-- `MY`, the height of the top fill strip (R220). -/
def my (c : Config) : Nat := marginY c - gapN c

/-- `OX0`, the outline's first column (R220). -/
def ox0 (c : Config) : Nat := mx c

/-- `OY0`, the outline's first row (R220). -/
def oy0 (c : Config) : Nat := my c

/-- `OX1`, the outline's last column (R220). -/
def ox1 (c : Config) : Nat := vx0 c + c.dstW + gapN c

/-- `OY1`, the outline's last row (R220). -/
def oy1 (c : Config) : Nat := vy0 c + c.dstH + gapN c

/-- `OW` (R221). -/
def ow (c : Config) : Nat := ox1 c - ox0 c + 1

/-- `OH` (R221). -/
def oh (c : Config) : Nat := oy1 c - oy0 c + 1

/-- A WriteRegion `(x, y, w, h)`. -/
structure Region where
  x : Nat
  y : Nat
  w : Nat
  h : Nat
deriving DecidableEq, Repr

/-- The viewport (R220). -/
def viewport (c : Config) : Region := ⟨vx0 c, vy0 c, c.dstW, c.dstH⟩

/-- `F_TOP`, `F_BOTTOM`, `F_LEFT`, `F_RIGHT` (R221, R226). -/
def fillRegions (c : Config) : List Region :=
  [⟨0, 0, c.panelW, my c⟩,
   ⟨0, oy1 c + 1, c.panelW, c.panelH - oy1 c - 1⟩,
   ⟨0, oy0 c, mx c, oh c⟩,
   ⟨ox1 c + 1, oy0 c, c.panelW - ox1 c - 1, oh c⟩]

/-- `L_TOP`, `L_BOTTOM`, `L_LEFT`, `L_RIGHT` (R221, R227). -/
def outlineRegions (c : Config) : List Region :=
  [⟨ox0 c, oy0 c, ow c, 1⟩,
   ⟨ox0 c, oy1 c, ow c, 1⟩,
   ⟨ox0 c, oy0 c, 1, oh c⟩,
   ⟨ox1 c, oy0 c, 1, oh c⟩]

/-- `G_TOP`, `G_BOTTOM`, `G_LEFT`, `G_RIGHT`, only with `GAP = 1` (R221, R228). -/
def gapRegions (c : Config) : List Region :=
  if c.gap then
    [⟨ox0 c + 1, oy0 c + 1, c.dstW + 2, 1⟩,
     ⟨ox0 c + 1, oy1 c - 1, c.dstW + 2, 1⟩,
     ⟨ox0 c + 1, oy0 c + 1, 1, c.dstH + 2⟩,
     ⟨ox1 c - 1, oy0 c + 1, 1, c.dstH + 2⟩]
  else []

/-- The LED strip, `ORIENT = 0` at the top edge (R254); none with `LED_PRESENT = 0`. -/
def ledRegions (c : Config) (orient : Bool) : List Region :=
  if c.ledPresent then [⟨0, if orient then c.panelH - c.ledH else 0, c.panelW, c.ledH⟩] else []

/-- A WriteRegion the block admits: not empty and inside the panel (R146). -/
def inPanel (c : Config) (r : Region) : Bool :=
  decide (1 ≤ r.w ∧ 1 ≤ r.h ∧ r.x + r.w ≤ c.panelW ∧ r.y + r.h ≤ c.panelH)

/-- The ranges of the parameter table (R6, R7 c5). -/
def rangesOk (c : Config) : Bool :=
  decide (1 ≤ c.panelW ∧ c.panelW ≤ 256 ∧ 1 ≤ c.panelH ∧ c.panelH ≤ 256 ∧
    1 ≤ c.srcW ∧ c.srcW ≤ c.dstW ∧ c.dstW ≤ 256 ∧
    1 ≤ c.srcH ∧ c.srcH % 8 = 0 ∧ c.srcH ≤ c.dstH ∧ c.dstH ≤ 256 ∧ 1 ≤ c.ledH)

/-- Constraint c1: the border fits (R7). -/
def borderFits (c : Config) : Bool :=
  decide (c.dstW + 2 ≤ c.panelW ∧ c.dstH + 2 ≤ c.panelH ∧ gapN c ≤ marginX c ∧ gapN c ≤ marginY c)

/-- Constraint c3: the LED strip lies inside a fill strip, in a variant that has one (R7). -/
def ledFits (c : Config) : Bool :=
  !c.ledPresent || decide (c.ledH ≤ my c)

/-- Constraint c4 for the stream buffer: its range does not pass `2^32`, in both transports (R7). -/
def streamFits (c : Config) : Bool :=
  decide (c.streamBase.toNat + streamLen c ≤ addrSpace)

/-- A configuration the model is instantiated for: R6's ranges and R7's constraints c1 to c5. -/
def configOk (c : Config) : Bool :=
  rangesOk c && borderFits c && decide (nPix c % 2 = 0) && ledFits c && streamFits c

/-- Constraint c4 for one PixelBuffer: it overlaps the stream buffer (R7; R199: in both transports). -/
def overlapsStream (c : Config) (buf : Addr) : Bool :=
  decide (buf.toNat < c.streamBase.toNat + streamLen c ∧ c.streamBase.toNat < buf.toNat + srcBytes c)

end Sys2Proof.Machine
end

