-- ==== Sys2Proof/Machine/Operands.lean ====
section
/-! DEFINITION. Machine/Operands.lean: the pure functions the operations are made of: the colour packing of
spec/40_colormodel.md, the scaling and the packed stream of spec/43_framecompositor.md, the LED colour of
spec/45_ledbar.md, and how operands become values (R82). -/

namespace Sys2Proof.Machine

/-- `pack12(r, g, b)`: only the low four bits of each argument are used (R110). -/
def pack12 (r g b : Nat) : Color12 :=
  BitVec.ofNat 4 r ++ BitVec.ofNat 4 g ++ BitVec.ofNat 4 b

/-- `unpack12(v)` (R111). -/
def unpack12 (v : Color12) : Nat × Nat × Nat :=
  ((v.extractLsb' 8 4).toNat, (v.extractLsb' 4 4).toNat, (v.extractLsb' 0 4).toNat)

/-- `packPair(A, B)`, the three bytes of two adjacent pixels (R92, R112). -/
def packPair (a b : Color12) : List Byte :=
  [(a >>> 4).setWidth 8,
   ((a &&& 0xF).setWidth 8 <<< 4) ||| (b >>> 8).setWidth 8,
   (b &&& 0xFF).setWidth 8]

/-- `unpackPair(b0, b1, b2)` (R113). -/
def unpackPair (b0 b1 b2 : Byte) : Color12 × Color12 :=
  ((b0.setWidth 12 <<< 4) ||| (b1 >>> 4).setWidth 12, ((b1 &&& 0xF).setWidth 12 <<< 8) ||| b2.setWidth 12)

/-- The colour operand `cval & 0xFFF` (R82, R116). -/
def colorOf (cval : Half) : Color12 :=
  (cval &&& 0xFFF).setWidth 12

/-- The low byte of a coordinate (R91): the value itself, for a region inside the panel. -/
def lowByte (n : Nat) : Byte := BitVec.ofNat 8 n

/-- `THEME[r]` (R29). -/
def themeRead (t : Theme) : ThemeReg → Color12
  | .pixel => t.pixel
  | .bg => t.bg
  | .bline => t.bline
  | .bfill => t.bfill

/-- `THEME[r] <- c` (R29). -/
def themeWrite (t : Theme) (r : ThemeReg) (c : Color12) : Theme :=
  match r with
  | .pixel => { t with pixel := c }
  | .bg => { t with bg := c }
  | .bline => { t with bline := c }
  | .bfill => { t with bfill := c }

/-- The swap of `THEME[0]` and `THEME[1]` (R122). -/
def themeSwap (t : Theme) : Theme :=
  { t with pixel := t.bg, bg := t.pixel }

/-- `LED[ch] <- level`, 0 red, 1 green, 2 blue (R250); the reserved channel 3 writes nothing. -/
def ledWrite (l : Leds) (ch : BitVec 2) (level : Byte) : Leds :=
  if ch = 0 then { l with red := level }
  else if ch = 1 then { l with green := level }
  else if ch = 2 then { l with blue := level }
  else l

/-- The level of the digital mode, "mapped to 0/255" (R252). -/
def digitalLevel (on : Bool) : Byte := if on then 255 else 0

/-- The LED strip's colour, each channel `level * 15 / 255` (R254). -/
def ledColor (l : Leds) : Color12 :=
  pack12 (l.red.toNat * 15 / 255) (l.green.toNat * 15 / 255) (l.blue.toNat * 15 / 255)

/-- `ScaleIndex(d, srcDim, dstDim)` (R193). -/
def scaleIndex (d srcDim dstDim : Nat) : Nat :=
  if srcDim = dstDim then d else (d * (srcDim * 65536 / dstDim + 1)) / 65536

/-- The byte address of the logical pixel `(sx, sy)` of the PixelBuffer at `buf` (R61, R75 a1). -/
def pixelAddr (c : Config) (buf : Addr) (sx sy : Nat) : Nat :=
  buf.toNat + sx + (sy / 8) * c.srcW

/-- The pixel's bit in its byte, `(byte >> (sy & 7)) & 1` (R192). -/
def pixelBit (b : Byte) (sy : Nat) : Bool :=
  b.getLsbD (sy % 8)

/-- `StreamBytes(p)`: the pixels packed two at a time, a lone last pixel with itself (R196). -/
def streamBytes : List Color12 → List Byte
  | [] => []
  | [a] => packPair a a
  | a :: b :: rest => packPair a b ++ streamBytes rest

/-- The pixel bytes of a rectangle of `n` pixels in one colour: `ceil2(n)` groups (R198). -/
def fillBytes (c : Color12) (n : Nat) : List Byte :=
  (List.replicate (ceil2 n) (packPair c c)).flatten

/-- The bits of a byte in the order they leave on the wire, most significant first (R63 b3, R90). -/
def wireBits (b : Byte) : List Bool :=
  [b.getLsbD 7, b.getLsbD 6, b.getLsbD 5, b.getLsbD 4, b.getLsbD 3, b.getLsbD 2, b.getLsbD 1, b.getLsbD 0]

/-- The `MADCTL` parameter byte with the orientation bits `MY`, `MX`, `MV` and the low bits a host gives (R94, U15). -/
def madctlParam (mY mX mV : Bool) (low : BitVec 5) : Byte :=
  BitVec.ofBool mY ++ BitVec.ofBool mX ++ BitVec.ofBool mV ++ low

end Sys2Proof.Machine
end

