-- ==== Sys2Proof/Machine/Ops.lean ====
section
/-! DEFINITION. Machine/Ops.lean: the named operations over memory, the wire and the registers; the primitive steps of
the sequencer (spec/41_transportbus.md, 42_dmachannel.md, 43_framecompositor.md), how a host operation runs through
them (R13), and the one interrupt (R306 to R308). -/

namespace Sys2Proof.Machine

/-! ### Memory (R60, R67) -/

/-- What an address that is not listed reads as: nothing, it is not allocated (R67; assumption 4). -/
def unallocated : Option Byte := none

/-- The byte at an address, if it is allocated. -/
def memRead : Memory → Nat → Option Byte
  | [], _ => unallocated
  | (k, v) :: m, a => if k = a then some v else memRead m a

/-- The memory with one allocated byte written; an address that is not allocated is left so. -/
def memWrite : Memory → Nat → Byte → Memory
  | [], _, _ => []
  | (k, v) :: m, a, b => if k = a then (k, b) :: m else (k, v) :: memWrite m a b

/-- Every listed address is above `lo` and below `2^32`, and addresses rise. -/
def risingFrom : Nat → Memory → Bool
  | _, [] => true
  | lo, (k, _) :: m => decide (lo ≤ k) && decide (k < addrSpace) && risingFrom (k + 1) m

/-- The canonical form: addresses strictly rising, all below `2^32`. No listed byte can equal what an unlisted
address reads as, since that is no value. -/
def memoryWf (m : Memory) : Bool := risingFrom 0 m

/-- The block may access this address (R67). -/
def admitted (m : Memory) (a : Nat) : Bool :=
  decide (a < addrSpace) && (memRead m a).isSome

/-- `MemRead(addr, 1)`, or `F_MEM` (R67). -/
def load (m : Memory) (a : Nat) : Except Fault Byte :=
  if a < addrSpace then
    match memRead m a with
    | some b => .ok b
    | none => .error (.mem a)
  else .error (.mem a)

/-- `MemWrite(addr, 1, v)`, or `F_MEM` (R67). -/
def store (m : Memory) (a : Nat) (b : Byte) : Except Fault Memory :=
  if admitted m a then .ok (memWrite m a b) else .error (.mem a)

/-! ### The wire, the registers and the free values -/

/-- `Emit(ev)` (R12). -/
def emit (e : Event) (s : State) : State :=
  { s with wt := s.wt ++ [e] }

/-- One write of the SPI data register: a `BYTE` event under the lines' present states (R144, R174). -/
def emitByte (b : Byte) (s : State) : State :=
  emit (.byte s.cs s.dc b) s

/-- `DC <- m; Emit(DC(m))` (R142, R143). -/
def setDc (m : DcLine) (s : State) : State :=
  emit (.dc m) { s with dc := m }

/-- `CS <- c; Emit(CS(c))` (R148, R149). -/
def setCs (c : CsLine) (s : State) : State :=
  emit (.cs c) { s with cs := c }

/-- `RST <- a; Emit(RST(a))` (R150, R151). -/
def setRst (a : RstLine) (s : State) : State :=
  emit (.rst a) { s with rst := a }

/-- `LOCK <- 1; HOLDER <- h` (R140, R158). -/
def takeLock (h : Holder) (s : State) : State :=
  { s with lock := true, holder := h }

/-- `LOCK <- 0; HOLDER <- None` (R141, R158, R176). -/
def freeLock (s : State) : State :=
  { s with lock := false, holder := .none }

/-- The descriptor torn down: unspecified contents, four free values (R38, U14; assumption 5). -/
def tornDown (i : Nat) : Descriptor :=
  ⟨Config.freeTdSrc i, Config.freeTdCnt i, Config.freeTdDst i, Config.freeTdInc i⟩

/-! ### Composing a frame (R192, R195) -/

/-- `PixelColor(buf, dx, dy)`, or `F_MEM` (R192). -/
def pixelColor (s : State) (buf : Addr) (dx dy : Nat) : Except Fault Color12 :=
  let sx := scaleIndex dx s.cfg.srcW s.cfg.dstW
  let sy := scaleIndex dy s.cfg.srcH s.cfg.dstH
  match load s.mem (pixelAddr s.cfg buf sx sy) with
  | .ok b => .ok (if pixelBit b sy then s.theme.pixel else s.theme.bg)
  | .error f => .error f

/-- The destination pixels with the numbers listed, in that order; the first byte not admitted faults. -/
def composePixels (s : State) (buf : Addr) : List Nat → Except Fault (List Color12)
  | [] => .ok []
  | n :: ns =>
    match pixelColor s buf (n % s.cfg.dstW) (n / s.cfg.dstW) with
    | .error f => .error f
    | .ok p =>
      match composePixels s buf ns with
      | .error f => .error f
      | .ok ps => .ok (p :: ps)

/-- The pixels of a frame, row by row from the top, each row left to right (R195). -/
def framePixels (s : State) (buf : Addr) : Except Fault (List Color12) :=
  composePixels s buf (List.range (nPix s.cfg))

/-! ### The primitive steps -/

/-- What a primitive step does: it is taken, it waits, or its precondition fails. -/
inductive ActResult where
  | ok (s : State)
  | wait
  | fault (f : Fault)
deriving DecidableEq, Repr

/-- The holding requirement (R152): the step is taken only while the host holds the lock. -/
def underLock (op : Instr) (s : State) (s' : State) : ActResult :=
  if s.holder = .cons 0 then .ok s' else .fault (.noLock op)

/-- `START_TRANSFER` in one step (R170). -/
def startDma (op : Instr) (src : Addr) (len : Count) (s : State) : ActResult :=
  if s.holder = .cons 0 then
    if s.dstate = .idle ∧ s.chEn = false then
      if len = 0 then .fault (.lenZero op)
      else
        .ok { s with
          td := ⟨src, len, s.cfg.spiDrAddr, true⟩, srcPast := false, irqEn := true, chEn := true,
          dstate := .inFlight, holder := .dma }
    else .fault (.dmaBusy op)
  else .fault (.noLock op)

/-- One byte written to memory, or `F_MEM`. -/
def storeByte (a : Nat) (b : Byte) (s : State) : ActResult :=
  match store s.mem a b with
  | .ok m => .ok { s with mem := m }
  | .error f => .fault f

/-- One primitive step of the host operation `op`. -/
def runAct (op : Instr) (act : Act) (s : State) : ActResult :=
  match act with
  | .acquire => if s.lock then .wait else .ok (takeLock (.cons 0) s)
  | .release => if s.holder = .cons 0 then .ok (freeLock s) else .fault (.release op)
  | .cmdMode => underLock op s (setDc .command s)
  | .dataMode => underLock op s (setDc .data s)
  | .csSelect => underLock op s (setCs .selected s)
  | .csDeselect => underLock op s (setCs .deselected s)
  | .rstAssert => .ok (setRst .asserted s)
  | .rstRelease => .ok (setRst .released s)
  | .writeByte b => underLock op s (emitByte b s)
  | .requireRegion x y w h =>
    if s.holder = .cons 0 then
      if inPanel s.cfg ⟨x, y, w, h⟩ then .ok s else .fault (.region op)
    else .fault (.noLock op)
  | .startTransfer src len => startDma op src len s
  | .setTheme r c => .ok { s with theme := themeWrite s.theme r c }
  | .swapTheme flag => .ok { s with inverted := flag, theme := themeSwap s.theme }
  | .setLed ch level => .ok { s with led := ledWrite s.led ch level }
  | .setLeds l => .ok { s with led := l }
  | .setOrient flag => .ok { s with orient := flag }
  | .setBorderDrawn => .ok { s with borderDrawn := true }
  | .compose buf =>
    match framePixels s buf with
    | .ok ps => .ok { s with stream := streamBytes ps }
    | .error f => .fault f
  | .sendStream => underLock op s (emitByte (s.stream.headD 0) { s with stream := s.stream.tail })
  | .storeStream i =>
    storeByte (s.cfg.streamBase.toNat + i) (s.stream.headD 0) { s with stream := s.stream.tail }
  | .clearByte buf i => storeByte (buf.toNat + i) 0 s

/-- The next primitive step of the host would wait (R140: the lock is not free). -/
def blocked (s : State) : Bool :=
  match s.busy with
  | p :: _ => decide (p.act = .acquire) && s.lock
  | [] => false

/-! ### Running a host operation (R13) -/

/-- The host goes on with its next primitive step: the script is empty or names the host, whose turn is used up;
`none` when another agent moves first (assumption 9). -/
def hostTurn (s : State) : Option State :=
  match s.turns with
  | [] => some s
  | .host :: ts => some { s with turns := ts }
  | _ => none

/-- The operation is finished: "when the operation `prog[opi]` finishes, `opi <- opi + 1`" (R22). -/
def finish (s : State) : State :=
  { s with busy := [], opi := s.opi + 1 }

/-- The rest of an operation, until it is finished, another agent moves, or its next primitive step waits or faults:
that step is then the next one the machine takes, so that a fault finds the state R302 describes. -/
def runRest : List PrimStep → State → State
  | [], s => finish s
  | p :: ps, s =>
    match hostTurn s with
    | none => { s with busy := p :: ps }
    | some s1 =>
      match runAct p.op p.act s1 with
      | .ok s2 => runRest ps s2
      | _ => { s with busy := p :: ps }

/-- The host takes the first of these primitive steps, and goes on with the rest. A step that waits leaves the
operation in progress (R140: the host spins). -/
def runSteps (ps : List PrimStep) (s : State) : Outcome :=
  match ps with
  | [] => .next (finish s)
  | p :: rest =>
    match runAct p.op p.act s with
    | .ok s' => .next (runRest rest s')
    | .wait => .next { s with busy := ps }
    | .fault f => .fault f

/-- The primitive steps `acts` of the operation `op`. -/
def stepsOf (op : Instr) (acts : List Act) : List PrimStep :=
  acts.map fun a => ⟨op, a⟩

/-- The operation `op` begins, with the primitive steps `acts`. -/
def runOp (op : Instr) (acts : List Act) (s : State) : Outcome :=
  runSteps (stepsOf op acts) s

/-! ### Procedures as lists of primitive steps -/

/-- `SendCommand(code)` (R145). -/
def sendCommandActs (code : Byte) : List Act :=
  [.cmdMode, .writeByte code, .dataMode]

/-- One address-window frame: `SendCommand(code)` and the block `0x00, start, 0x00, end` (R91, R146). -/
def windowActs (code : Byte) (start size : Nat) : List Act :=
  sendCommandActs code ++
    [.writeByte 0, .writeByte (lowByte start), .writeByte 0, .writeByte (lowByte (start + size - 1))]

/-- `SetWriteRegion(x, y, w, h)` (R146). -/
def setWriteRegionActs (r : Region) : List Act :=
  .requireRegion r.x r.y r.w r.h ::
    (windowActs 0x2A r.x r.w ++ windowActs 0x2B r.y r.h ++ sendCommandActs 0x2C)

/-- `FillRect(x, y, w, h, c)` (R198). -/
def fillRectActs (r : Region) (c : Color12) : List Act :=
  if r.w = 0 ∨ r.h = 0 then []
  else
    [.acquire, .csSelect] ++ setWriteRegionActs r ++ (fillBytes c (r.w * r.h)).map .writeByte ++
      [.csDeselect, .release]

/-- `FillRect` of each region in turn, in one colour. -/
def fillAllActs (rs : List Region) (c : Color12) : List Act :=
  rs.flatMap fun r => fillRectActs r c

/-- `DrawFills()` in the colour `c = THEME[3]` (R226). -/
def drawFillsActs (cfg : Config) (c : Color12) : List Act := fillAllActs (fillRegions cfg) c

/-- `DrawOutline()` in the colour `c = THEME[2]` (R227). -/
def drawOutlineActs (cfg : Config) (c : Color12) : List Act := fillAllActs (outlineRegions cfg) c

/-- `DrawGap()` in the colour `c = THEME[1]`, nothing with `GAP = 0` (R228). -/
def drawGapActs (cfg : Config) (c : Color12) : List Act := fillAllActs (gapRegions cfg) c

/-- `LedRender()`, nothing with `LED_PRESENT = 0` (R254). -/
def ledRenderActs (s : State) : List Act :=
  fillAllActs (ledRegions s.cfg s.orient) (ledColor s.led)

/-- `ClearBuffer(buf)` when the flag is set (R197). -/
def clearActs (c : Config) (buf : Addr) (clr : Bool) : List Act :=
  if clr then (List.range (srcBytes c)).map (.clearByte buf) else []

/-- `PAINT` with `TRANSPORT = SYNC` (R190). -/
def paintSyncActs (c : Config) (buf : Addr) (clr : Bool) : List Act :=
  [.acquire, .csSelect] ++ setWriteRegionActs (viewport c) ++ [.compose buf] ++
    List.replicate (streamLen c) .sendStream ++ [.csDeselect, .release] ++ clearActs c buf clr

/-- `PAINT` with `TRANSPORT = DMA` (R191). -/
def paintDmaActs (c : Config) (buf : Addr) (clr : Bool) : List Act :=
  [.acquire, .compose buf] ++ (List.range (streamLen c)).map .storeStream ++ [.csSelect] ++
    setWriteRegionActs (viewport c) ++ [.startTransfer c.streamBase (BitVec.ofNat 24 (streamLen c))] ++
    clearActs c buf clr

/-- A wire command as its pseudo-operation expands: `SEND_COMMAND code`, one `WRITE_BYTE` for each parameter byte,
each primitive step belonging to the operation the block sees (R87, R90). -/
def commandSteps (code : Byte) (ps : List Byte) : List PrimStep :=
  stepsOf (.sendCommand code) (sendCommandActs code) ++ ps.map fun b => ⟨.writeByte b, .writeByte b⟩

/-- The wire command begins. -/
def runCommand (code : Byte) (ps : List Byte) (s : State) : Outcome :=
  runSteps (commandSteps code ps) s

/-! ### The DMA channel and the completion interrupt -/

/-- The increment of `TD.SRC` (R174). Past `2^32` the pointer is outside the address space: the next beat faults, and
what the 32-bit register then holds is a free value (R67, R170; assumption 6). -/
def advanceSource (s : State) : State :=
  if s.td.inc then
    if s.td.src.toNat + 1 < addrSpace then { s with td := { s.td with src := s.td.src + 1 } }
    else
      { s with td := { s.td with src := Config.freeTdSrc s.freeIdx }, srcPast := true, freeIdx := s.freeIdx + 1 }
  else s

/-- `TD.CNT <- TD.CNT - 1`, and `IRQ_PEND <- 1` when it reaches 0 (R174). -/
def countBeat (s : State) : State :=
  { s with
    td := { s.td with cnt := s.td.cnt - 1 },
    irqPend := if s.td.cnt - 1 = 0 then true else s.irqPend }

/-- `DmaBeat` (R174): one byte from memory to the SPI data register. The channel has no step when it is not
enabled. -/
def dmaBeat (s : State) : Outcome :=
  if beatEnabled s then
    if s.srcPast then .fault (.mem addrSpace)
    else
      match load s.mem s.td.src.toNat with
      | .ok b => .next (countBeat (advanceSource (emitByte b s)))
      | .error f => .fault f
  else .next s

/-- Taking the completion interrupt and returning from it (R176, R307, R308): one atomic step. It saves nothing; the
transient `CompletingIRQ` is entered and left inside it (R34), so `DSTATE` ends `Idle`. -/
def takeCompletion (s : State) : State :=
  let s1 : State := { s with dstate := .completingIrq, chEn := false }
  let s2 : State := freeLock (setCs .deselected s1)
  { s2 with irqPend := false, dstate := .idle, td := tornDown s2.freeIdx, srcPast := false, freeIdx := s2.freeIdx + 1 }

/-- `DmaIrq` (R176): the completion handler has a step exactly when the interrupt is pending and enabled. -/
def dmaIrq (s : State) : Outcome :=
  if irqEnabled s then .next (takeCompletion s) else .next s

/-! ### The other consumers (R158) and the host processor's own stores -/

/-- Consumer `k` is one of 1 .. `N_OTHER` (R5). -/
def isConsumer (c : Config) (k : Nat) : Bool :=
  decide (1 ≤ k ∧ k ≤ c.nOther)

/-- `OAcquire(k)` (R158); no step while the lock is held. -/
def otherAcquire (k : Nat) (s : State) : State :=
  if isConsumer s.cfg k && !s.lock then takeLock (.cons k) s else s

/-- `OByte(k, b)` (R158); no step unless the consumer holds the lock. -/
def otherByte (k : Nat) (b : Byte) (s : State) : State :=
  if isConsumer s.cfg k && decide (s.holder = .cons k) then emit (.other k s.cs s.dc b) s else s

/-- `ORelease(k)` (R158); no step unless the consumer holds the lock. -/
def otherRelease (k : Nat) (s : State) : State :=
  if isConsumer s.cfg k && decide (s.holder = .cons k) then freeLock s else s

/-- A store of the host processor's own program, between two operations and to allocated memory only (R70 o3, R341,
R342; assumption 17). -/
def hostStore (a : Nat) (b : Byte) (s : State) : State :=
  if s.busy.isEmpty && admitted s.mem a then { s with mem := memWrite s.mem a b } else s

end Sys2Proof.Machine
end

