-- ==== Sys2Proof/Machine/BorderRenderer.lean ====
section
/-! DEFINITION. Machine/BorderRenderer.lean: the host operation of spec/44_borderrenderer.md. -/

namespace Sys2Proof.Machine

/-- `DRAW_BORDER` (R230): fills, outline, gap, LED strip, then `BORDER_DRAWN <- 1`. -/
def execDrawBorder (s : State) : Outcome :=
  runOp .drawBorder
    (drawFillsActs s.cfg s.theme.bfill ++ drawOutlineActs s.cfg s.theme.bline ++ drawGapActs s.cfg s.theme.bg ++
      ledRenderActs s ++ [.setBorderDrawn]) s

end Sys2Proof.Machine
end

