-- ==== Sys2Proof/Machine/ColorModel.lean ====
section
/-! DEFINITION. Machine/ColorModel.lean: the host operations of spec/40_colormodel.md. A setter stores, always, and
redraws the regions its colour owns if and only if `BORDER_DRAWN = 1` (R116, R117, R231). -/

namespace Sys2Proof.Machine

/-- The redraw part of a setter: only after the first full draw (R116, R231). -/
def whenDrawn (s : State) (acts : List Act) : List Act :=
  if s.borderDrawn then acts else []

/-- `SET_PIXEL_COLOR cval` (R118): no redraw in any state. -/
def execSetPixelColor (cval : Half) (s : State) : Outcome :=
  runOp (.setPixelColor cval) [.setTheme .pixel (colorOf cval)] s

/-- `SET_BG_COLOR cval` (R119): the gap band is redrawn. -/
def execSetBgColor (cval : Half) (s : State) : Outcome :=
  runOp (.setBgColor cval)
    (.setTheme .bg (colorOf cval) :: whenDrawn s (drawGapActs s.cfg (colorOf cval))) s

/-- `SET_BORDER_LINE_COLOR cval` (R120): the outline is redrawn. -/
def execSetBorderLineColor (cval : Half) (s : State) : Outcome :=
  runOp (.setBorderLineColor cval)
    (.setTheme .bline (colorOf cval) :: whenDrawn s (drawOutlineActs s.cfg (colorOf cval))) s

/-- `SET_BORDER_FILL_COLOR cval` (R121): the fills are redrawn, then the LED strip that lies on them. -/
def execSetBorderFillColor (cval : Half) (s : State) : Outcome :=
  runOp (.setBorderFillColor cval)
    (.setTheme .bfill (colorOf cval) ::
      whenDrawn s (drawFillsActs s.cfg (colorOf cval) ++ ledRenderActs s)) s

/-- `INVERT flag` (R122): nothing in the state it names; else the swap, and the gap band in the new background, which
is the old `THEME[0]`. -/
def execInvert (flag : Bool) (s : State) : Outcome :=
  runOp (.invert flag)
    (if flag = s.inverted then []
     else .swapTheme flag :: whenDrawn s (drawGapActs s.cfg s.theme.pixel)) s

end Sys2Proof.Machine
end

