-- ==== Sys2Proof/Machine/DmaChannel.lean ====
section
/-! DEFINITION. Machine/DmaChannel.lean: the host operation of spec/42_dmachannel.md. The agent steps `DmaBeat` and
`DmaIrq` stand in Machine/Ops.lean. -/

namespace Sys2Proof.Machine

/-- `START_TRANSFER src, len` (R170): returns at once, and the lock passes to the channel. -/
def execStartTransfer (src : Addr) (len : Count) (s : State) : Outcome :=
  runOp (.startTransfer src len) [.startTransfer src len] s

end Sys2Proof.Machine
end

