-- ==== Sys2Proof/Machine/FrameCompositor.lean ====
section
/-! DEFINITION. Machine/FrameCompositor.lean: the host operation of spec/43_framecompositor.md. -/

namespace Sys2Proof.Machine

/-- `PAINT src, clr` (R190, R191, R199). In both transports a PixelBuffer that overlaps the stream buffer is refused
(R7 c4, R199, U20; assumption 14). -/
def execPaint (src : Addr) (clr : Bool) (s : State) : Outcome :=
  if overlapsStream s.cfg src then .refused .bufferOverlap
  else
    match s.cfg.transport with
    | .sync => runOp (.paint src clr) (paintSyncActs s.cfg src clr) s
    | .dma => runOp (.paint src clr) (paintDmaActs s.cfg src clr) s

end Sys2Proof.Machine
end

