-- ==== Sys2Proof/Machine/LedBar.lean ====
section
/-! DEFINITION. Machine/LedBar.lean: the host operations of spec/45_ledbar.md. The setters store only (R348). -/

namespace Sys2Proof.Machine

/-- `LED_SET_CHANNEL ch, level` (R250); the reserved channel 3 is a refused encoding (R84). -/
def execLedSetChannel (ch : BitVec 2) (level : Byte) (s : State) : Outcome :=
  if ch = 3 then .refused (.encoding .reservedChannel)
  else runOp (.ledSetChannel ch level) [.setLed ch level] s

/-- `LED_SET_ALL r, g, b` (R251). -/
def execLedSetAll (r g b : Byte) (s : State) : Outcome :=
  runOp (.ledSetAll r g b) [.setLeds ⟨r, g, b⟩] s

/-- `LED_SET_DIGITAL ch, on` (R252); the reserved channel 3 is a refused encoding (R84). -/
def execLedSetDigital (ch : BitVec 2) (on : Bool) (s : State) : Outcome :=
  if ch = 3 then .refused (.encoding .reservedChannel)
  else runOp (.ledSetDigital ch on) [.setLed ch (digitalLevel on)] s

/-- `LED_RENDER` (R253): the strip, whatever `BORDER_DRAWN` is; nothing with `LED_PRESENT = 0`. -/
def execLedRender (s : State) : Outcome := runOp .ledRender (ledRenderActs s) s

/-- `SET_ORIENT flag` (R256). -/
def execSetOrient (flag : Bool) (s : State) : Outcome := runOp (.setOrient flag) [.setOrient flag] s

end Sys2Proof.Machine
end

