-- ==== Sys2Proof/Machine/PanelCommands.lean ====
section
/-! DEFINITION. Machine/PanelCommands.lean: the wire commands of spec/46_panel_commands.md, each as the host sends it:
the frame of R90 by `SEND_COMMAND` and `WRITE_BYTE` (R87). They change the panel, and of the block's state only what
those operations change (R271, R332). -/

namespace Sys2Proof.Machine

/-- `SWRESET` (R271). -/
def execSwreset (s : State) : Outcome := runCommand 0x01 [] s

/-- `SLPIN` (R272). -/
def execSlpin (s : State) : Outcome := runCommand 0x10 [] s

/-- `SLPOUT` (R273). -/
def execSlpout (s : State) : Outcome := runCommand 0x11 [] s

/-- `INVOFF` (R274). -/
def execInvoff (s : State) : Outcome := runCommand 0x20 [] s

/-- `INVON` (R275). -/
def execInvon (s : State) : Outcome := runCommand 0x21 [] s

/-- `DISPOFF` (R276). -/
def execDispoff (s : State) : Outcome := runCommand 0x28 [] s

/-- `DISPON` (R277). -/
def execDispon (s : State) : Outcome := runCommand 0x29 [] s

/-- `CASET xs, xe` (R278, R91). -/
def execCaset (xs xe : Byte) (s : State) : Outcome := runCommand 0x2A [0, xs, 0, xe] s

/-- `RASET ys, ye` (R279, R91). -/
def execRaset (ys ye : Byte) (s : State) : Outcome := runCommand 0x2B [0, ys, 0, ye] s

/-- `RAMWR` (R280): the pixel stream that follows is data bytes of later operations (R87). -/
def execRamwr (s : State) : Outcome := runCommand 0x2C [] s

/-- `MADCTL p` (R281, R94). -/
def execMadctl (p : Byte) (s : State) : Outcome := runCommand 0x36 [p] s

/-- `COLMOD p` (R282). -/
def execColmod (p : Byte) (s : State) : Outcome := runCommand 0x3A [p] s

/-- `FRMCTR1 p0, p1, p2` (R283). -/
def execFrmctr1 (p0 p1 p2 : Byte) (s : State) : Outcome := runCommand 0xB1 [p0, p1, p2] s

/-- `GMCTRP1 p0, ..., p15` (R284). -/
def execGmctrp1 (ps : List Byte) (s : State) : Outcome := runCommand 0xE0 ps s

/-- `GMCTRN1 p0, ..., p15` (R285). -/
def execGmctrn1 (ps : List Byte) (s : State) : Outcome := runCommand 0xE1 ps s

end Sys2Proof.Machine
end

