-- ==== Sys2Proof/Machine/TransportBus.lean ====
section
/-! DEFINITION. Machine/TransportBus.lean: the host operations of spec/41_transportbus.md. -/

namespace Sys2Proof.Machine

/-- `ACQUIRE` (R140). While the lock is held the host spins: the operation stays in progress. -/
def execAcquire (s : State) : Outcome := runOp .acquire [.acquire] s

/-- `RELEASE` (R141). -/
def execRelease (s : State) : Outcome := runOp .release [.release] s

/-- `CMD_MODE` (R142). -/
def execCmdMode (s : State) : Outcome := runOp .cmdMode [.cmdMode] s

/-- `DATA_MODE` (R143). -/
def execDataMode (s : State) : Outcome := runOp .dataMode [.dataMode] s

/-- `WRITE_BYTE imm8` (R144). -/
def execWriteByte (imm8 : Byte) (s : State) : Outcome := runOp (.writeByte imm8) [.writeByte imm8] s

/-- `SEND_COMMAND imm8` (R145); any code is sent (R95). -/
def execSendCommand (imm8 : Byte) (s : State) : Outcome := runOp (.sendCommand imm8) (sendCommandActs imm8) s

/-- `SET_WRITE_REGION x, y, w, h` (R146). -/
def execSetWriteRegion (x y : Byte) (w h : Half) (s : State) : Outcome :=
  runOp (.setWriteRegion x y w h) (setWriteRegionActs ⟨x.toNat, y.toNat, w.toNat, h.toNat⟩) s

/-- `CS_SELECT` (R148). -/
def execCsSelect (s : State) : Outcome := runOp .csSelect [.csSelect] s

/-- `CS_DESELECT` (R149). -/
def execCsDeselect (s : State) : Outcome := runOp .csDeselect [.csDeselect] s

/-- `RST_ASSERT` (R150); no lock is needed. -/
def execRstAssert (s : State) : Outcome := runOp .rstAssert [.rstAssert] s

/-- `RST_RELEASE` (R151); no lock is needed. -/
def execRstRelease (s : State) : Outcome := runOp .rstRelease [.rstRelease] s

end Sys2Proof.Machine
end

