-- ==== Sys2Proof/Machine/Dispatch.lean ====
section
/-! DEFINITION. Machine/Dispatch.lean: one arm per operation, each a direct call of its meaning. -/

namespace Sys2Proof.Machine

/-- The host presents the operation `i`: its primitive steps run until it is finished, another agent moves, or a step
waits or fails (R13; assumption 9). -/
def exec (i : Instr) (s : State) : Host.Outcome State Fault Refusal :=
  match i with
  -- TransportBus
  | .acquire => Sys2Proof.Machine.execAcquire s
  | .release => Sys2Proof.Machine.execRelease s
  | .cmdMode => Sys2Proof.Machine.execCmdMode s
  | .dataMode => Sys2Proof.Machine.execDataMode s
  | .writeByte imm8 => Sys2Proof.Machine.execWriteByte imm8 s
  | .sendCommand imm8 => Sys2Proof.Machine.execSendCommand imm8 s
  | .setWriteRegion x y w h => Sys2Proof.Machine.execSetWriteRegion x y w h s
  | .csSelect => Sys2Proof.Machine.execCsSelect s
  | .csDeselect => Sys2Proof.Machine.execCsDeselect s
  | .rstAssert => Sys2Proof.Machine.execRstAssert s
  | .rstRelease => Sys2Proof.Machine.execRstRelease s
  -- DmaChannel
  | .startTransfer src len => Sys2Proof.Machine.execStartTransfer src len s
  -- ColorModel
  | .setPixelColor cval => Sys2Proof.Machine.execSetPixelColor cval s
  | .setBgColor cval => Sys2Proof.Machine.execSetBgColor cval s
  | .setBorderLineColor cval => Sys2Proof.Machine.execSetBorderLineColor cval s
  | .setBorderFillColor cval => Sys2Proof.Machine.execSetBorderFillColor cval s
  | .invert flag => Sys2Proof.Machine.execInvert flag s
  -- FrameCompositor
  | .paint src clr => Sys2Proof.Machine.execPaint src clr s
  -- BorderRenderer
  | .drawBorder => Sys2Proof.Machine.execDrawBorder s
  -- LedBar
  | .ledSetChannel ch level => Sys2Proof.Machine.execLedSetChannel ch level s
  | .ledSetAll r g b => Sys2Proof.Machine.execLedSetAll r g b s
  | .ledSetDigital ch on => Sys2Proof.Machine.execLedSetDigital ch on s
  | .ledRender => Sys2Proof.Machine.execLedRender s
  | .setOrient flag => Sys2Proof.Machine.execSetOrient flag s
  -- panel commands
  | .swreset => Sys2Proof.Machine.execSwreset s
  | .slpin => Sys2Proof.Machine.execSlpin s
  | .slpout => Sys2Proof.Machine.execSlpout s
  | .invoff => Sys2Proof.Machine.execInvoff s
  | .invon => Sys2Proof.Machine.execInvon s
  | .dispoff => Sys2Proof.Machine.execDispoff s
  | .dispon => Sys2Proof.Machine.execDispon s
  | .caset xs xe => Sys2Proof.Machine.execCaset xs xe s
  | .raset ys ye => Sys2Proof.Machine.execRaset ys ye s
  | .ramwr => Sys2Proof.Machine.execRamwr s
  | .madctl p => Sys2Proof.Machine.execMadctl p s
  | .colmod p => Sys2Proof.Machine.execColmod p s
  | .frmctr1 p0 p1 p2 => Sys2Proof.Machine.execFrmctr1 p0 p1 p2 s
  | .gmctrp1 ps => Sys2Proof.Machine.execGmctrp1 ps s
  | .gmctrn1 ps => Sys2Proof.Machine.execGmctrn1 ps s

end Sys2Proof.Machine
end

