-- ==== Sys2Proof/Machine/Agents.lean ====
section
/-! DEFINITION. Machine/Agents.lean: which agent takes the next step and what it does (spec/00_scope.md R5, R13,
spec/60_exceptions.md R309). -/

namespace Sys2Proof.Machine

/-- The line of the host program that the host presents next (R22): `prog[opi]`, none when the program has ended. -/
def fetch (s : State) : Option Item := s.prog[s.opi]?

/-- The host presents one line: a word or frame that is refused ends the run (R84, U11), any other runs. -/
def present (item : Item) (s : State) : Outcome :=
  match decode item with
  | .ok i => exec i s
  | .error why => .refused (.encoding why)

/-- The host's turn: it goes on with the operation in progress, or presents the next one (R13: not before the last
has finished); at the end of its program it does nothing. -/
def hostStep (s : State) : Outcome :=
  match s.busy with
  | [] =>
    match fetch s with
    | some item => present item s
    | none => .next s
  | p :: ps => runSteps (p :: ps) s

/-- The host has a step: an operation in progress that does not wait, or one to present. -/
def hostCanStep (s : State) : Bool :=
  match s.busy with
  | [] => (fetch s).isSome
  | _ :: _ => !blocked s

/-- The step when the script of turns is empty (assumption 9): the host while it can move, else the completion
handler, else the DMA channel, each if it has a step (R309: any order is a run; an enabled one is eventually taken);
with no agent able to move the state stays as it is (R140 c1: the run hangs). -/
def freeStep (s : State) : Outcome :=
  if hostCanStep s then hostStep s
  else if irqEnabled s then dmaIrq s
  else dmaBeat s

/-- The step of the agent whose turn it is; an agent that has no step does nothing. -/
def turnStep (t : Turn) (s : State) : Outcome :=
  match t with
  | .host => hostStep s
  | .dmaBeat => dmaBeat s
  | .dmaIrq => dmaIrq s
  | .oAcquire k => .next (otherAcquire k s)
  | .oByte k b => .next (otherByte k b s)
  | .oRelease k => .next (otherRelease k s)
  | .hostStore a b => .next (hostStore a b s)

/-- One step of the machine: the next turn of the script, or the default when the script is empty. Parameters that
break R7's constraints are refused (U20). -/
def machineStep (s : State) : Outcome :=
  if configOk s.cfg then
    match s.turns with
    | [] => freeStep s
    | t :: ts => turnStep t { s with turns := ts }
  else .refused .configuration

/-- A one-line program loaded, no operation in progress and no turn of another agent before it (assumption 7). -/
def loadLine (s : State) (item : Item) : State :=
  { s with prog := [item], opi := 0, busy := [], turns := [] }

end Sys2Proof.Machine
end

