-- ==== Sys2Proof/Machine/Step.lean ====
section
/-! DEFINITION. Machine/Step.lean: the step function, over Machine/Agents.lean. -/

namespace Sys2Proof.Machine

/-- One step of the machine. -/
def step (s : State) : Host.Outcome State Fault Refusal :=
  machineStep s

/-- `s` with the instruction of the bits `w` (a row of `nbits` bits, the bits above them 0) as the whole host
program, presented by the very next step (assumption 7). -/
def State.withFetchWord (s : State) (nbits w : Nat) : State :=
  loadLine s (itemOfTable nbits w)

end Sys2Proof.Machine
end

