-- ==== Sys2Proof/Machine/Sink.lean ====
section
/-! DEFINITION. Machine/Sink.lean: the reference panel sink of spec/46_panel_commands.md R290, an observation of the
wire trace (PRESUMED, assumption 19: from general knowledge of the panel family; no state of the block). -/

namespace Sys2Proof.Machine

/-- What the sink does with the next data byte. -/
inductive SinkMode where
  /-- Data bytes are ignored. -/
  | ignore
  /-- The parameter bytes of `CASET` so far, oldest first. -/
  | columns (got : List Byte)
  /-- The parameter bytes of `RASET` so far, oldest first. -/
  | rows (got : List Byte)
  /-- The pixel stream of `RAMWR`, with the half-assembled group, oldest byte first. -/
  | stream (group : List Byte)
deriving DecidableEq, Repr

/-- The sink: the window, the write pointer, the mode, and the image, newest write first. -/
structure Sink where
  xs : Nat
  xe : Nat
  ys : Nat
  ye : Nat
  px : Nat
  py : Nat
  mode : SinkMode
  img : List ((Nat × Nat) × Color12)
deriving DecidableEq, Repr

/-- A sink that has seen nothing: no pixel written (the window's values are read only after a window command). -/
def Sink.start : Sink := ⟨0, 0, 0, 0, 0, 0, .ignore, []⟩

/-- The pixel `IMG[x][y]`, none if it was never written. -/
def sinkPixel (k : Sink) (x y : Nat) : Option Color12 :=
  (k.img.find? fun e => decide (e.1 = (x, y))).map (·.2)

/-- Writing one pixel at the write pointer, which moves on row by row inside the window (R290). -/
def sinkWrite (k : Sink) (v : Color12) : Sink :=
  let k := { k with img := ((k.px, k.py), v) :: k.img }
  if k.px + 1 > k.xe then
    if k.py + 1 > k.ye then { k with px := k.xs, py := k.ys } else { k with px := k.xs, py := k.py + 1 }
  else { k with px := k.px + 1 }

/-- A command byte (R290): it ends a stream and drops a partial group. -/
def sinkCommand (k : Sink) (b : Byte) : Sink :=
  if b = 0x2A then { k with mode := .columns [] }
  else if b = 0x2B then { k with mode := .rows [] }
  else if b = 0x2C then { k with mode := .stream [], px := k.xs, py := k.ys }
  else { k with mode := .ignore }

/-- A data byte (R290). -/
def sinkData (k : Sink) (b : Byte) : Sink :=
  match k.mode with
  | .ignore => k
  | .columns [_, lo, _] => { k with mode := .ignore, xs := lo.toNat, xe := b.toNat }
  | .columns got => { k with mode := .columns (got ++ [b]) }
  | .rows [_, lo, _] => { k with mode := .ignore, ys := lo.toNat, ye := b.toNat }
  | .rows got => { k with mode := .rows (got ++ [b]) }
  | .stream [b0, b1] =>
    let k := { k with mode := .stream [] }
    sinkWrite (sinkWrite k (unpackPair b0 b1 b).1) (unpackPair b0 b1 b).2
  | .stream group => { k with mode := .stream (group ++ [b]) }

/-- One event: the sink reads the bytes sent while the panel is selected, and `CS-` (R290). -/
def sinkEvent (k : Sink) : Event → Sink
  | .byte .selected .command b => sinkCommand k b
  | .byte .selected .data b => sinkData k b
  | .other _ .selected .command b => sinkCommand k b
  | .other _ .selected .data b => sinkData k b
  | .cs .deselected => { k with mode := .ignore }
  | _ => k

/-- The sink after a stretch of the wire trace. -/
def sinkRun (k : Sink) (es : List Event) : Sink := es.foldl sinkEvent k

end Sys2Proof.Machine
end

