-- ==== Sys2Proof/Safety.lean ====
section
/-! DEFINITION. Safety.lean: the terms claims use: the invariants of spec/10_state.md R39, and the wire listings the
rules give for whole operations (spec/46_panel_commands.md R286), written without the primitive steps. -/

namespace Sys2Proof.Machine

/-- R39 (i1) to (i5), and that a transfer in flight has either a byte left or its interrupt pending (R174), so the
lock is never leaked. -/
abbrev lockInvariant (s : State) : Prop :=
  (s.lock = false ↔ s.holder = .none) ∧
  (s.dstate = .inFlight →
    s.chEn = true ∧ s.irqEn = true ∧ s.lock = true ∧ s.holder = .dma ∧ s.td.dst = s.cfg.spiDrAddr ∧ s.td.inc = true) ∧
  (s.dstate = .idle → s.chEn = false ∧ s.irqPend = false ∧ s.holder ≠ .dma) ∧
  (s.irqPend = true → s.dstate = .inFlight ∧ s.td.cnt = 0) ∧
  (s.dstate = .inFlight → s.irqPend = false → s.td.cnt ≠ 0) ∧
  s.dstate ≠ .configuring ∧ s.dstate ≠ .completingIrq

/-- The command byte of a frame, with the line events around it (R90, R145): `DC(Command)`, the code, `DC(Data)`. -/
def commandEvents (cs : CsLine) (code : Byte) : List Event :=
  [.dc .command, .byte cs .command code, .dc .data]

/-- Bytes sent in data mode. -/
def dataEvents (cs : CsLine) (bs : List Byte) : List Event :=
  bs.map (.byte cs .data)

/-- The eleven bytes of a WriteRegion and their line events (R146, R278 to R280). -/
def windowEvents (cs : CsLine) (r : Region) : List Event :=
  commandEvents cs 0x2A ++ dataEvents cs [0, BitVec.ofNat 8 r.x, 0, BitVec.ofNat 8 (r.x + r.w - 1)] ++
  commandEvents cs 0x2B ++ dataEvents cs [0, BitVec.ofNat 8 r.y, 0, BitVec.ofNat 8 (r.y + r.h - 1)] ++
  commandEvents cs 0x2C

/-- What the block puts on the wire for a frame or a rectangle (R286): `CS+`, the window, the stream, `CS-`. -/
def displayEvents (r : Region) (stream : List Byte) : List Event :=
  [.cs .selected] ++ windowEvents .selected r ++ dataEvents .selected stream ++ [.cs .deselected]

/-- A region with a pixel in it. -/
def nonEmpty (r : Region) : Bool := decide (r.w ≠ 0 ∧ r.h ≠ 0)

/-- The draw calls of the regions listed, in one colour; an empty region makes none (R198). -/
def drawEvents (rs : List Region) (c : Color12) : List Event :=
  (rs.filter nonEmpty).flatMap fun r => displayEvents r (fillBytes c (r.w * r.h))

/-- The state after draw calls that put `es` on the wire: each ends with the lock free, the panel deselected and
`DC = Data` (R198); without a draw call nothing has changed. -/
def afterDraws (es : List Event) (s : State) : State :=
  if es.isEmpty then s
  else { s with lock := false, holder := .none, cs := .deselected, dc := .data, wt := s.wt ++ es }

/-- The operation has finished (R22). -/
def finished (s : State) : State := { s with busy := [], opi := s.opi + 1 }

/-- The draw calls of `DrawFills` (R226). -/
def fillEvents (s : State) (c : Color12) : List Event := drawEvents (fillRegions s.cfg) c

/-- The draw calls of `DrawOutline` (R227). -/
def outlineEvents (s : State) (c : Color12) : List Event := drawEvents (outlineRegions s.cfg) c

/-- The draw calls of `DrawGap` (R228). -/
def gapEvents (s : State) (c : Color12) : List Event := drawEvents (gapRegions s.cfg) c

/-- The draw call of `LedRender` (R254). -/
def ledEvents (s : State) : List Event := drawEvents (ledRegions s.cfg s.orient) (ledColor s.led)

/-- The host is alone: the script of turns is empty and the lock is free, so an operation runs to its end. -/
abbrev undisturbed (s : State) : Prop := s.turns = [] ∧ s.lock = false

/-- Every byte of `[lo, lo + n)` is one the block may access (R67, R199). -/
def rangeAdmitted (m : Memory) (lo n : Nat) : Bool :=
  (List.range n).all fun i => admitted m (lo + i)

/-- An address inside `[lo, lo + n)`. -/
abbrev inRange (a lo n : Nat) : Prop := lo ≤ a ∧ a < lo + n

/-- The pixel `(px, py)` lies in the region. -/
abbrev inRegion (px py : Nat) (r : Region) : Prop :=
  r.x ≤ px ∧ px < r.x + r.w ∧ r.y ≤ py ∧ py < r.y + r.h

/-- The host operations of a listing, each run to its end (R22, R87). -/
def runListing : List Instr → State → Outcome
  | [], s => .next s
  | i :: is, s =>
    match exec i s with
    | .next s' => runListing is s'
    | .fault f => .fault f
    | .refused r => .refused r

/-- `n` steps of the machine, stopping at the first fault or refusal. -/
def runMachine (n : Nat) (s : State) : Outcome := Host.Core.run Sys2Proof.core n s

/-- The panel command `i` sends the frame of `code` and the parameter bytes `ps` (R90) when the host holds the lock,
and faults as its `SEND_COMMAND` does when it does not (R87, R152). -/
def sendsFrame (i : Instr) (code : Byte) (ps : List Byte) : Prop :=
  ∀ s : State,
    (s.holder = .cons 0 → s.turns = [] →
      exec i s = .next (finished { s with
        dc := .data, wt := s.wt ++ commandEvents s.cs code ++ dataEvents s.cs ps })) ∧
    (s.holder ≠ .cons 0 → exec i s = .fault (.noLock (.sendCommand code)))

/-- The events of the trace but for the bytes of other consumers, which R158 tags. -/
def hostEvents (es : List Event) : List Event :=
  es.filter fun e =>
    match e with
    | .other _ _ _ _ => false
    | _ => true

/-- The state without what other consumers do to it: the script, the lock (theirs as soon as the host lets go of it),
their bytes (R158). -/
def hostView (s : State) : State :=
  { s with turns := [], lock := false, holder := .none, wt := hostEvents s.wt }

/-- The host's view without what a transfer does to it: the channel, the select line, the trace (R174, R176). -/
def hostViewApartFromChannel (s : State) : State :=
  { hostView s with
    cs := .deselected, wt := [], dstate := .idle, chEn := false, irqPend := false, td := s.cfg.tdReset,
    srcPast := false, freeIdx := 0 }

/-- What a transfer of the stream buffer puts on the wire after a `PAINT` with `TRANSPORT = DMA`, its handler's `CS-`
included (R174, R176, R191). -/
def transferEvents (s : State) : List Event :=
  ((List.range (streamLen s.cfg)).map fun j =>
    .byte .selected .data ((memRead s.mem (s.cfg.streamBase.toNat + j)).getD 0)) ++ [.cs .deselected]

/-- The host's operation is still in progress before each of the next `n` steps. -/
def stillBusy (n : Nat) (s : State) : Prop :=
  ∀ m < n, ∃ v, runMachine m s = .next v ∧ v.busy ≠ []

/-- The operation `i` presented at `s` waits in an `Acquire` (R140), in the state `w` but for the steps left; and once
the lock is free, no other turn being left, the step does what `i` does from a free lock. -/
def waitsForLock (i : Instr) (s w : State) : Prop :=
  ∃ rest, exec i s = .next { w with busy := ⟨i, .acquire⟩ :: rest } ∧
    (s.turns = [] →
      step { w with busy := ⟨i, .acquire⟩ :: rest, lock := false, holder := .none } =
        exec i { s with lock := false, holder := .none })

/-- The primitive step stores to the address (R191, R197). -/
def storesTo (c : Config) (act : Act) (a : Nat) : Bool :=
  match act with
  | .storeStream i => decide (a = c.streamBase.toNat + i)
  | .clearByte buf i => decide (a = buf.toNat + i)
  | _ => false

/-- The pixel of a frame at the destination `(dx, dy)` (R61, R192, R193): the bit of the PixelBuffer at `buf` picks
`THEME[0]` or `THEME[1]`; none if its byte is not allocated. -/
def framePixelAt (s : State) (buf : Addr) (dx dy : Nat) : Option Color12 :=
  let sx := scaleIndex dx s.cfg.srcW s.cfg.dstW
  let sy := scaleIndex dy s.cfg.srcH s.cfg.dstH
  (memRead s.mem (buf.toNat + sx + (sy / 8) * s.cfg.srcW)).map fun b =>
    if b.getLsbD (sy % 8) then s.theme.pixel else s.theme.bg

/-- The match and mask of each host operation row of spec/opcode_table.json, in the table's order. -/
def hostRows : List (OpWord × OpWord) :=
  [(0x0000000000000001, 0xFFFFFFFFFFFFFFFF), (0x0000000000000002, 0xFFFFFFFFFFFFFFFF),
   (0x0000000000000003, 0xFFFFFFFFFFFFFFFF), (0x0000000000000004, 0xFFFFFFFFFFFFFFFF),
   (0x0000000000000005, 0xFFFFFFFFFFFF00FF), (0x0000000000000006, 0xFFFFFFFFFFFF00FF),
   (0x0000000000000007, 0xFF000000000000FF), (0x0000000000000008, 0xFFFFFFFFFFFFFFFF),
   (0x0000000000000009, 0xFFFFFFFFFFFFFFFF), (0x000000000000000A, 0xFFFFFFFFFFFFFFFF),
   (0x000000000000000B, 0xFFFFFFFFFFFFFFFF), (0x0000000000000010, 0x00000000000000FF),
   (0x0000000000000020, 0xFFFFFFFFFF0000FF), (0x0000000000000021, 0xFFFFFFFFFF0000FF),
   (0x0000000000000022, 0xFFFFFFFFFF0000FF), (0x0000000000000023, 0xFFFFFFFFFF0000FF),
   (0x0000000000000024, 0xFFFFFFFFFFFFFEFF), (0x0000000000000030, 0x00000000FFFFFEFF),
   (0x0000000000000031, 0xFFFFFFFFFFFFFFFF), (0x0000000000000040, 0xFFFFFFFFFF00FCFF),
   (0x0000000000000041, 0xFFFFFFFF000000FF), (0x0000000000000042, 0xFFFFFFFFFFFEFCFF),
   (0x0000000000000043, 0xFFFFFFFFFFFFFFFF), (0x0000000000000044, 0xFFFFFFFFFFFFFEFF)]

end Sys2Proof.Machine
end

