-- ==== Sys2Proof/WellFormed.lean ====
section
/-! DEFINITION. WellFormed.lean: which terms of `Instr` the encoding admits. A field's width is its type, so two
things are left to check: the LED channel 3 is reserved (R84), and a gamma table has 16 bytes (R270). -/

namespace Sys2Proof

/-- The operands are ones an encoding admits (R84, R90, R270). -/
def Instr.wellFormed : Instr → Bool
  | .acquire => true
  | .release => true
  | .cmdMode => true
  | .dataMode => true
  | .writeByte _ => true
  | .sendCommand _ => true
  | .setWriteRegion _ _ _ _ => true
  | .csSelect => true
  | .csDeselect => true
  | .rstAssert => true
  | .rstRelease => true
  | .startTransfer _ _ => true
  | .setPixelColor _ => true
  | .setBgColor _ => true
  | .setBorderLineColor _ => true
  | .setBorderFillColor _ => true
  | .invert _ => true
  | .paint _ _ => true
  | .drawBorder => true
  | .ledSetChannel ch _ => ch != 3
  | .ledSetAll _ _ _ => true
  | .ledSetDigital ch _ => ch != 3
  | .ledRender => true
  | .setOrient _ => true
  | .swreset => true
  | .slpin => true
  | .slpout => true
  | .invoff => true
  | .invon => true
  | .dispoff => true
  | .dispon => true
  | .caset _ _ => true
  | .raset _ _ => true
  | .ramwr => true
  | .madctl _ => true
  | .colmod _ => true
  | .frmctr1 _ _ _ => true
  | .gmctrp1 ps => ps.length == 16
  | .gmctrn1 ps => ps.length == 16

end Sys2Proof
end

