-- ==== Sys2Proof/Certificates/Slice0/Obligations.lean ====
section
/-! DEFINITION. Certificates/Slice0/Obligations.lean: the statements for the provers. `undisturbed s` says that the
script of turns is empty and the lock free (assumption 9: an operation then runs to its end in one step); the script
is an input, so a statement about every state is a statement about every interleaving. -/

open Sys2Proof Sys2Proof.Machine

/-! ### Encoding -/

/-- Decoding the encoding of any well-formed instruction gives it back: no bit of an operand is dropped (R81 to R83,
R90, R91, R270). -/
def Obligations.DecodeReadsBackEveryEncoding : Prop :=
  ∀ i : Instr, i.wellFormed = true → decode (encode i) = .ok i

/-- A word or frame that decodes is the encoding of its instruction, which is well-formed: no reserved bit is let
through (R81, R84, R90, R91). -/
def Obligations.AcceptedLinesAreEncodings : Prop :=
  ∀ (item : Item) (i : Instr), decode item = .ok i → encode i = item ∧ i.wellFormed = true

/-- R84: a word is accepted exactly when it matches a row of the opcode table under its mask and is not one of the
two LED operations with `ch = 3`; the run in which the host presents any other word is refused. -/
def Obligations.WordsAcceptedMatchTheTable : Prop :=
  ∀ w : OpWord,
    ((∃ i, decode (.word w) = .ok i) ↔
      (∃ row ∈ hostRows, w &&& row.2 = row.1) ∧
        ¬((w &&& 0xFF = 0x40 ∨ w &&& 0xFF = 0x42) ∧ w &&& 0x300 = 0x300)) ∧
    ((∀ i, decode (.word w) ≠ .ok i) →
      ∀ s : State, configOk s.cfg = true → s.busy = [] → s.turns = [] → s.prog[s.opi]? = some (.word w) →
        ∃ why, step s = .refused (.encoding why))

/-- Words written out from the formats of R81 decode to what they stand for, and words with a reserved bit are
refused (R81, R84; 95_test_vectors.md 3.8). -/
def Obligations.SampleWordsDecode : Prop :=
  decode (.word 0x0000080008020207) = .ok (.setWriteRegion 2 2 8 8) ∧
  decode (.word 0x200010000000C010) = .ok (.startTransfer 0x20001000 192) ∧
  decode (.word 0x0000000000010242) = .ok (.ledSetDigital 2 true) ∧
  decode (.word 0x0000010000000130) = .ok (.paint 0x100 true) ∧
  decode (.frame [0x2A, 0, 4, 0, 11]) = .ok (.caset 4 11) ∧
  decode (.word 0x0000010000000330) = .error .reservedBit ∧
  decode (.word 0x0000000000800340) = .error .reservedChannel

/-! ### The step -/

/-- When the host has the turn, no operation is in progress and the line at `opi` decodes to `i`, the step is `exec i`
at that state, less the turn it used (R13, R22). -/
def Obligations.StepRunsThePresentedOperation : Prop :=
  ∀ (s : State) (item : Item) (i : Instr),
    configOk s.cfg = true → s.busy = [] → s.prog[s.opi]? = some item → decode item = .ok i →
    (s.turns = [] → step s = exec i s) ∧
    (∀ ts, s.turns = .host :: ts → step s = exec i { s with turns := ts })

/-- A line that the decoder refuses ends the run as refused, before any precondition is looked at (R84, R303). -/
def Obligations.RefusedLineEndsTheRun : Prop :=
  ∀ (s : State) (item : Item) (why : Reject),
    configOk s.cfg = true → s.busy = [] → s.prog[s.opi]? = some item → decode item = .error why → s.turns = [] →
    step s = .refused (.encoding why)

/-- R6, R7: a step is refused for its configuration exactly when the parameters break a range of R6 or a constraint c1
to c5 of R7, here written out (c4 for the stream buffer, in both transports; a PixelBuffer is an operand, see
`PaintRefusesAnOverlappingBuffer`). That the refusal is an outcome of the step is the model's (assumption 3). -/
def Obligations.BadConfigurationIsRefused : Prop :=
  ∀ (s : State) (c : Config) (g marginX marginY : Nat), s.cfg = c →
    g = (if c.gap then 1 else 0) → marginX = (c.panelW - c.dstW - 2) / 2 → marginY = (c.panelH - c.dstH - 2) / 2 →
    (step s = .refused .configuration ↔
      ¬((1 ≤ c.panelW ∧ c.panelW ≤ 256 ∧ 1 ≤ c.panelH ∧ c.panelH ≤ 256) ∧
        (1 ≤ c.srcW ∧ c.srcW ≤ 256 ∧ 1 ≤ c.srcH ∧ c.srcH ≤ 256 ∧ c.srcH % 8 = 0) ∧
        (c.srcW ≤ c.dstW ∧ c.dstW ≤ 256 ∧ c.srcH ≤ c.dstH ∧ c.dstH ≤ 256) ∧
        (c.dstW + 2 ≤ c.panelW ∧ c.dstH + 2 ≤ c.panelH ∧ g ≤ marginX ∧ g ≤ marginY) ∧
        c.dstW * c.dstH % 2 = 0 ∧
        1 ≤ c.ledH ∧ (c.ledPresent = true → c.ledH + g ≤ marginY) ∧
        c.streamBase.toNat + 3 * ((c.dstW * c.dstH + 1) / 2) ≤ 4294967296))

/-! ### TransportBus -/

/-- R140: a free lock is claimed; while it is held the host spins with the operation in progress and nothing else
changes. -/
def Obligations.AcquireClaimsOrSpins : Prop :=
  encode .acquire = .word 0x01 ∧
  ∀ s : State,
    (s.lock = false → exec .acquire s = .next (finished { s with lock := true, holder := .cons 0 })) ∧
    (s.lock = true → exec .acquire s = .next { s with busy := [⟨.acquire, .acquire⟩] })

/-- R141: the holder's release frees the lock; any other release faults. -/
def Obligations.ReleaseFreesTheHostsLock : Prop :=
  encode .release = .word 0x02 ∧
  ∀ s : State,
    (s.holder = .cons 0 → exec .release s = .next (finished { s with lock := false, holder := .none })) ∧
    (s.holder ≠ .cons 0 → exec .release s = .fault (.release .release))

/-- R142, R143, R148, R149: each sets its line to the named state, whatever it was, and emits the event. -/
def Obligations.LineOperationsSetTheLine : Prop :=
  encode .cmdMode = .word 0x03 ∧ encode .dataMode = .word 0x04 ∧
  encode .csSelect = .word 0x08 ∧ encode .csDeselect = .word 0x09 ∧
  ∀ s : State,
    (s.holder = .cons 0 →
      exec .cmdMode s = .next (finished { s with dc := .command, wt := s.wt ++ [.dc .command] }) ∧
      exec .dataMode s = .next (finished { s with dc := .data, wt := s.wt ++ [.dc .data] }) ∧
      exec .csSelect s = .next (finished { s with cs := .selected, wt := s.wt ++ [.cs .selected] }) ∧
      exec .csDeselect s = .next (finished { s with cs := .deselected, wt := s.wt ++ [.cs .deselected] })) ∧
    (s.holder ≠ .cons 0 →
      exec .cmdMode s = .fault (.noLock .cmdMode) ∧ exec .dataMode s = .fault (.noLock .dataMode) ∧
      exec .csSelect s = .fault (.noLock .csSelect) ∧ exec .csDeselect s = .fault (.noLock .csDeselect))

/-- R150, R151: the reset line is set in every state, the lock held or not. -/
def Obligations.ResetLineNeedsNoLock : Prop :=
  encode .rstAssert = .word 0x0A ∧ encode .rstRelease = .word 0x0B ∧
  ∀ s : State,
    exec .rstAssert s = .next (finished { s with rst := .asserted, wt := s.wt ++ [.rst .asserted] }) ∧
    exec .rstRelease s = .next (finished { s with rst := .released, wt := s.wt ++ [.rst .released] })

/-- R144: one byte on the wire under the lines' present states; nothing else changes. -/
def Obligations.WriteByteEmitsOneByte : Prop :=
  ∀ (s : State) (b : Byte),
    encode (.writeByte b) = .word (0x05 ||| (b.setWidth 64 <<< 8)) ∧
    (s.holder = .cons 0 → exec (.writeByte b) s = .next (finished { s with wt := s.wt ++ [.byte s.cs s.dc b] })) ∧
    (s.holder ≠ .cons 0 → exec (.writeByte b) s = .fault (.noLock (.writeByte b)))

/-- R145: any code is sent in command mode, and `DC` is `Data` afterwards. -/
def Obligations.SendCommandFramesTheCode : Prop :=
  ∀ (s : State) (code : Byte),
    encode (.sendCommand code) = .word (0x06 ||| (code.setWidth 64 <<< 8)) ∧
    (s.holder = .cons 0 → s.turns = [] →
      exec (.sendCommand code) s =
        .next (finished { s with
          dc := .data, wt := s.wt ++ [.dc .command, .byte s.cs .command code, .dc .data] })) ∧
    (s.holder ≠ .cons 0 → exec (.sendCommand code) s = .fault (.noLock (.sendCommand code)))

/-- R146: a region that is not empty and lies in the panel sends the eleven window bytes, ends inclusive; another
region faults, and the lock is looked at first. -/
def Obligations.SetWriteRegionSendsTheWindow : Prop :=
  ∀ (s : State) (x y : Byte) (w h : Half),
    (s.holder = .cons 0 → s.turns = [] →
      1 ≤ w.toNat → 1 ≤ h.toNat → x.toNat + w.toNat ≤ s.cfg.panelW → y.toNat + h.toNat ≤ s.cfg.panelH →
      exec (.setWriteRegion x y w h) s =
        .next (finished { s with
          dc := .data,
          wt := s.wt ++
            [.dc .command, .byte s.cs .command 0x2A, .dc .data, .byte s.cs .data 0, .byte s.cs .data x,
             .byte s.cs .data 0, .byte s.cs .data (BitVec.ofNat 8 (x.toNat + w.toNat - 1)),
             .dc .command, .byte s.cs .command 0x2B, .dc .data, .byte s.cs .data 0, .byte s.cs .data y,
             .byte s.cs .data 0, .byte s.cs .data (BitVec.ofNat 8 (y.toNat + h.toNat - 1)),
             .dc .command, .byte s.cs .command 0x2C, .dc .data] })) ∧
    (s.holder = .cons 0 →
      (w.toNat = 0 ∨ h.toNat = 0 ∨ s.cfg.panelW < x.toNat + w.toNat ∨ s.cfg.panelH < y.toNat + h.toNat) →
      exec (.setWriteRegion x y w h) s = .fault (.region (.setWriteRegion x y w h))) ∧
    (s.holder ≠ .cons 0 →
      exec (.setWriteRegion x y w h) s = .fault (.noLock (.setWriteRegion x y w h)))

/-- R152: each bus operation and `START_TRANSFER` faults while the host does not hold the lock. -/
def Obligations.BusOperationsNeedTheLock : Prop :=
  ∀ (s : State) (i : Instr), s.holder ≠ .cons 0 →
    (i = .cmdMode ∨ i = .dataMode ∨ (∃ b, i = .writeByte b) ∨ (∃ b, i = .sendCommand b) ∨
      (∃ x y w h, i = .setWriteRegion x y w h) ∨ i = .csSelect ∨ i = .csDeselect ∨
      (∃ src len, i = .startTransfer src len)) →
    exec i s = .fault (.noLock i)

/-- While another consumer or the DMA channel holds the lock, no operation of the host puts a byte on the wire or
moves `CS` or `DC`, and none frees the lock (R140, R152, R160). -/
def Obligations.HeldLockKeepsTheHostOffTheWire : Prop :=
  ∀ (i : Instr) (s t : State), s.lock = true → s.holder ≠ .cons 0 → exec i s = .next t →
    t.lock = true ∧ t.holder = s.holder ∧ t.cs = s.cs ∧ t.dc = s.dc ∧
    ∃ es : List Event, t.wt = s.wt ++ es ∧ ∀ e ∈ es, ∃ a, e = .rst a

/-- R158: the three steps of another consumer `k`, each enabled as the rule says; a consumer without a step changes
nothing. -/
def Obligations.OtherConsumersShareTheLock : Prop :=
  ∀ (s : State) (k : Nat) (b : Byte) (ts : List Turn),
    configOk s.cfg = true → 1 ≤ k → k ≤ s.cfg.nOther →
    (s.turns = .oAcquire k :: ts →
      step s = .next (if s.lock = false then { s with turns := ts, lock := true, holder := .cons k }
                      else { s with turns := ts })) ∧
    (s.turns = .oByte k b :: ts →
      step s = .next (if s.holder = .cons k then { s with turns := ts, wt := s.wt ++ [.other k s.cs s.dc b] }
                      else { s with turns := ts })) ∧
    (s.turns = .oRelease k :: ts →
      step s = .next (if s.holder = .cons k then { s with turns := ts, lock := false, holder := .none }
                      else { s with turns := ts }))

/-- A second acquire of the host hangs (R140 c1, R304, U1): with the host the holder and no transfer in flight, no
number of steps, in any order of the agents, frees the lock, ends the operation or reaches the wire. -/
def Obligations.ReentrantAcquireHangs : Prop :=
  ∀ (s : State) (op : Instr) (rest : List PrimStep) (n : Nat),
    configOk s.cfg = true → s.lock = true → s.holder = .cons 0 → s.dstate = .idle →
    s.busy = ⟨op, .acquire⟩ :: rest →
    ∃ t, runMachine n s = .next t ∧ t.busy = s.busy ∧ t.lock = true ∧ t.holder = .cons 0 ∧ t.wt = s.wt

/-! ### DmaChannel -/

/-- R170: the channel is armed, the lock passes to it, the lines are not touched; the first failing precondition is
the fault (R303). -/
def Obligations.StartTransferArmsTheChannel : Prop :=
  ∀ (s : State) (src : Addr) (len : Count),
    encode (.startTransfer src len) = .word (0x10 ||| (len.setWidth 64 <<< 8) ||| (src.setWidth 64 <<< 32)) ∧
    (s.holder = .cons 0 → s.dstate = .idle → s.chEn = false → len ≠ 0 →
      exec (.startTransfer src len) s =
        .next (finished { s with
          td := ⟨src, len, s.cfg.spiDrAddr, true⟩, irqEn := true, chEn := true, dstate := .inFlight,
          holder := .dma, srcPast := false })) ∧
    (s.holder ≠ .cons 0 → exec (.startTransfer src len) s = .fault (.noLock (.startTransfer src len))) ∧
    (s.holder = .cons 0 → (s.dstate ≠ .idle ∨ s.chEn = true) →
      exec (.startTransfer src len) s = .fault (.dmaBusy (.startTransfer src len))) ∧
    (s.holder = .cons 0 → s.dstate = .idle → s.chEn = false → len = 0 →
      exec (.startTransfer src len) s = .fault (.lenZero (.startTransfer src len)))

/-- R174: exactly when a transfer is in flight with bytes left, the beat sends the byte at `TD.SRC` under the lines'
present states, moves the descriptor on, and raises transfer-complete with the last byte; a byte that is not
allocated faults. (An increment past `2^32` is `BeatPastTheAddressSpaceFaults`.) -/
def Obligations.DmaBeatMovesOneByte : Prop :=
  ∀ (s : State) (ts : List Turn), configOk s.cfg = true → s.turns = .dmaBeat :: ts →
    (¬(s.dstate = .inFlight ∧ s.chEn = true ∧ 0 < s.td.cnt.toNat) → step s = .next { s with turns := ts }) ∧
    (s.dstate = .inFlight → s.chEn = true → 0 < s.td.cnt.toNat → s.srcPast = false →
      (memRead s.mem s.td.src.toNat = none → step s = .fault (.mem s.td.src.toNat)) ∧
      (∀ b, memRead s.mem s.td.src.toNat = some b → (s.td.inc = true → s.td.src.toNat + 1 < 4294967296) →
        step s = .next { s with
          turns := ts,
          wt := s.wt ++ [.byte s.cs s.dc b],
          td := { s.td with src := if s.td.inc then s.td.src + 1 else s.td.src, cnt := s.td.cnt - 1 },
          irqPend := if s.td.cnt.toNat = 1 then true else s.irqPend }))

/-- The pointer past the last address: the beat that reads the byte at `2^32 - 1` is made and sends it, and a further
beat of the transfer faults; nothing is claimed of what `TD.SRC` then holds (R67, R170; the model's assumption 6). -/
def Obligations.BeatPastTheAddressSpaceFaults : Prop :=
  ∀ (s : State) (ts : List Turn) (b : Byte),
    configOk s.cfg = true → s.turns = .dmaBeat :: .dmaBeat :: ts → s.dstate = .inFlight → s.chEn = true →
    2 ≤ s.td.cnt.toNat → s.srcPast = false → s.td.inc = true → s.td.src.toNat = 4294967295 →
    memRead s.mem 4294967295 = some b →
    ∃ t, step s = .next t ∧ t.wt = s.wt ++ [.byte s.cs s.dc b] ∧ t.td.cnt = s.td.cnt - 1 ∧
      t.irqPend = s.irqPend ∧ t.lock = s.lock ∧ step t = .fault (.mem 4294967296)

/-- R176: exactly when the interrupt is pending, enabled and a transfer is in flight, the handler disables the
channel, deselects the panel, frees the lock and clears the pending flag; `TD` may hold anything afterwards, and
everything else is unchanged. -/
def Obligations.CompletionHandlerFreesTheLock : Prop :=
  ∀ (s : State) (ts : List Turn), configOk s.cfg = true → s.turns = .dmaIrq :: ts →
    (¬(s.irqPend = true ∧ s.irqEn = true ∧ s.dstate = .inFlight) → step s = .next { s with turns := ts }) ∧
    (s.irqPend = true → s.irqEn = true → s.dstate = .inFlight →
      ∃ (td' : Descriptor) (n : Nat),
        step s = .next { s with
          turns := ts, dstate := .idle, chEn := false, cs := .deselected, wt := s.wt ++ [.cs .deselected],
          lock := false, holder := .none, irqPend := false, td := td', srcPast := false, freeIdx := n })

/-- A host spinning in `ACQUIRE` while the last byte's interrupt is pending: the spin only uses its turn up, the handler's step
lifts it, and the host's next turn claims the lock and finishes (R140, R176, R308). -/
def Obligations.HandlerLiftsTheSpin : Prop :=
  ∀ s : State, configOk s.cfg = true → s.busy = [⟨.acquire, .acquire⟩] → s.lock = true → s.irqPend = true →
    s.irqEn = true → s.dstate = .inFlight → s.turns = [.host, .dmaIrq, .host] →
    runMachine 1 s = .next { s with turns := [.dmaIrq, .host] } ∧
    (∃ t, runMachine 2 s = .next t ∧ t.lock = false ∧ t.holder = .none ∧ t.busy = s.busy ∧
      t.wt = s.wt ++ [.cs .deselected]) ∧
    ∃ t, runMachine 3 s = .next t ∧ t.lock = true ∧ t.holder = .cons 0 ∧ t.busy = [] ∧ t.opi = s.opi + 1 ∧
      t.dstate = .idle ∧ t.cs = .deselected ∧ t.wt = s.wt ++ [.cs .deselected]

/-- R181: after `START_TRANSFER`, `len` beats and one handler step leave the channel idle and the lock free, with the
`len` bytes and one `CS-` on the wire; until the handler's step the lock is held. -/
def Obligations.TransferLifeCycle : Prop :=
  ∀ (s : State) (src : Addr) (len : Count) (bs : List Byte),
    configOk s.cfg = true → s.holder = .cons 0 → s.lock = true → s.dstate = .idle → s.chEn = false →
    s.irqPend = false → 1 ≤ len.toNat → src.toNat + len.toNat ≤ 4294967296 → bs.length = len.toNat →
    (∀ k < len.toNat, memRead s.mem (src.toNat + k) = bs[k]?) →
    ∃ s1, exec (.startTransfer src len) s = .next s1 ∧
      (∀ k ≤ len.toNat, ∃ u,
        runMachine k { s1 with turns := List.replicate len.toNat .dmaBeat ++ [.dmaIrq] } = .next u ∧
        u.lock = true ∧ u.wt = s.wt ++ (bs.take k).map (.byte s.cs s.dc)) ∧
      ∃ t, runMachine (len.toNat + 1) { s1 with turns := List.replicate len.toNat .dmaBeat ++ [.dmaIrq] } = .next t ∧
        t.dstate = .idle ∧ t.chEn = false ∧ t.irqPend = false ∧ t.lock = false ∧ t.holder = .none ∧
        t.wt = s.wt ++ bs.map (.byte s.cs s.dc) ++ [.cs .deselected]

/-! ### ColorModel -/

/-- The layouts of R110 to R113 and of the stream of R196 and R198, written as equations of natural numbers, and the four
laws of R114. -/
def Obligations.PackingRoundTrips : Prop :=
  (∀ r g b : Nat, (pack12 r g b).toNat = ((r &&& 0xF) <<< 8) ||| ((g &&& 0xF) <<< 4) ||| (b &&& 0xF)) ∧
  (∀ v : Color12, unpack12 v = (v.toNat >>> 8, (v.toNat >>> 4) &&& 0xF, v.toNat &&& 0xF)) ∧
  (∀ a b : Color12, (packPair a b).map BitVec.toNat =
    [a.toNat >>> 4, ((a.toNat &&& 0xF) <<< 4) ||| (b.toNat >>> 8), b.toNat &&& 0xFF]) ∧
  (∀ b0 b1 b2 : Byte,
    (unpackPair b0 b1 b2).1.toNat = (b0.toNat <<< 4) ||| (b1.toNat >>> 4) ∧
    (unpackPair b0 b1 b2).2.toNat = ((b1.toNat &&& 0xF) <<< 8) ||| b2.toNat) ∧
  (∀ ps : List Color12, (streamBytes ps).length = 3 * ((ps.length + 1) / 2) ∧
    ∀ (k : Nat) (a : Color12), ps[2 * k]? = some a →
      (((streamBytes ps).drop (3 * k)).take 3).map BitVec.toNat =
        [a.toNat >>> 4, ((a.toNat &&& 0xF) <<< 4) ||| ((ps[2 * k + 1]?.getD a).toNat >>> 8),
         (ps[2 * k + 1]?.getD a).toNat &&& 0xFF]) ∧
  (∀ (c : Color12) (n : Nat), fillBytes c n = streamBytes (List.replicate n c)) ∧
  (∀ v : Color12, pack12 (unpack12 v).1 (unpack12 v).2.1 (unpack12 v).2.2 = v) ∧
  (∀ r g b : Nat, unpack12 (pack12 r g b) = (r % 16, g % 16, b % 16)) ∧
  (∀ a b : Color12, ∃ b0 b1 b2, packPair a b = [b0, b1, b2] ∧ unpackPair b0 b1 b2 = (a, b)) ∧
  (∀ b0 b1 b2 : Byte, packPair (unpackPair b0 b1 b2).1 (unpackPair b0 b1 b2).2 = [b0, b1, b2])

/-- R118: the pixel setter stores the low twelve bits and nothing else changes, in any state. -/
def Obligations.PixelSetterStores : Prop :=
  ∀ (s : State) (cval : Half),
    encode (.setPixelColor cval) = .word (0x20 ||| (cval.setWidth 64 <<< 8)) ∧
    exec (.setPixelColor cval) s =
      .next (finished { s with theme := { s.theme with pixel := BitVec.ofNat 12 (cval.toNat % 4096) } })

/-- Before the first full border draw the three drawing setters only store, and need no lock (R116, R231, R335). -/
def Obligations.SettersBeforeTheFirstDrawOnlyStore : Prop :=
  ∀ (s : State) (cval : Half), s.borderDrawn = false →
    exec (.setBgColor cval) s =
      .next (finished { s with theme := { s.theme with bg := BitVec.ofNat 12 (cval.toNat % 4096) } }) ∧
    exec (.setBorderLineColor cval) s =
      .next (finished { s with theme := { s.theme with bline := BitVec.ofNat 12 (cval.toNat % 4096) } }) ∧
    exec (.setBorderFillColor cval) s =
      .next (finished { s with theme := { s.theme with bfill := BitVec.ofNat 12 (cval.toNat % 4096) } })

/-- R119: after the first full draw the background setter stores and redraws the gap band in the new colour, nothing
when `GAP = 0`; while the lock is held it stores and waits. -/
def Obligations.BackgroundSetterRedrawsTheGap : Prop :=
  ∀ (s : State) (cval : Half), configOk s.cfg = true → s.borderDrawn = true → s.turns = [] →
    (s.lock = false →
      exec (.setBgColor cval) s =
        .next (finished (afterDraws (gapEvents s (BitVec.ofNat 12 (cval.toNat % 4096)))
          { s with theme := { s.theme with bg := BitVec.ofNat 12 (cval.toNat % 4096) } }))) ∧
    (s.cfg.gap = false →
      exec (.setBgColor cval) s =
        .next (finished { s with theme := { s.theme with bg := BitVec.ofNat 12 (cval.toNat % 4096) } })) ∧
    (s.lock = true → s.cfg.gap = true →
      waitsForLock (.setBgColor cval) s
        { s with theme := { s.theme with bg := BitVec.ofNat 12 (cval.toNat % 4096) } })

/-- R120: after the first full draw the line setter stores and redraws exactly the outline in the new colour; while
the lock is held it stores and waits. -/
def Obligations.LineSetterRedrawsTheOutline : Prop :=
  ∀ (s : State) (cval : Half), configOk s.cfg = true → s.borderDrawn = true → s.turns = [] →
    (s.lock = false →
      exec (.setBorderLineColor cval) s =
        .next (finished (afterDraws (outlineEvents s (BitVec.ofNat 12 (cval.toNat % 4096)))
          { s with theme := { s.theme with bline := BitVec.ofNat 12 (cval.toNat % 4096) } }))) ∧
    (s.lock = true →
      waitsForLock (.setBorderLineColor cval) s
        { s with theme := { s.theme with bline := BitVec.ofNat 12 (cval.toNat % 4096) } })

/-- R121: after the first full draw the fill setter stores, redraws the fills in the new colour and then the LED strip
in the LED colour; no outline or gap. While the lock is held it stores and waits, if a fill strip has a pixel; with none
it only stores. -/
def Obligations.FillSetterRedrawsFillsAndStrip : Prop :=
  ∀ (s : State) (cval : Half), configOk s.cfg = true → s.borderDrawn = true → s.turns = [] →
    (s.lock = false →
      exec (.setBorderFillColor cval) s =
        .next (finished (afterDraws (fillEvents s (BitVec.ofNat 12 (cval.toNat % 4096)) ++ ledEvents s)
          { s with theme := { s.theme with bfill := BitVec.ofNat 12 (cval.toNat % 4096) } }))) ∧
    (s.lock = true → (∃ r ∈ fillRegions s.cfg, 1 ≤ r.w ∧ 1 ≤ r.h) →
      waitsForLock (.setBorderFillColor cval) s
        { s with theme := { s.theme with bfill := BitVec.ofNat 12 (cval.toNat % 4096) } }) ∧
    ((∀ r ∈ fillRegions s.cfg, r.w = 0 ∨ r.h = 0) →
      exec (.setBorderFillColor cval) s =
        .next (finished { s with theme := { s.theme with bfill := BitVec.ofNat 12 (cval.toNat % 4096) } }))

/-- R122: nothing in the state named; else the flag is set, the two registers are swapped, and after the first full
draw the gap band is redrawn once, in what was the pixel colour; with no gap band nothing is drawn, and with the lock
held the redraw waits. -/
def Obligations.InvertSwapsOnce : Prop :=
  ∀ (s : State) (flag : Bool),
    (flag = s.inverted → exec (.invert flag) s = .next (finished s)) ∧
    (flag ≠ s.inverted → (s.borderDrawn = false ∨ s.cfg.gap = false) →
      exec (.invert flag) s = .next (finished { s with
        inverted := flag, theme := { s.theme with pixel := s.theme.bg, bg := s.theme.pixel } })) ∧
    (flag ≠ s.inverted → s.borderDrawn = true → configOk s.cfg = true → undisturbed s →
      exec (.invert flag) s = .next (finished (afterDraws (gapEvents s s.theme.pixel) { s with
        inverted := flag, theme := { s.theme with pixel := s.theme.bg, bg := s.theme.pixel } }))) ∧
    (flag ≠ s.inverted → s.borderDrawn = true → s.cfg.gap = true → configOk s.cfg = true → s.turns = [] →
      s.lock = true →
      waitsForLock (.invert flag) s
        { s with inverted := flag, theme := { s.theme with pixel := s.theme.bg, bg := s.theme.pixel } })

/-- R124: no `INVERT`, in any state and order of agents, changes the LED levels or the colour of the strip. -/
def Obligations.InvertLeavesTheLedColour : Prop :=
  ∀ (s t : State) (flag : Bool), exec (.invert flag) s = .next t →
    t.led = s.led ∧ t.orient = s.orient ∧ ledEvents t = ledEvents s

/-! ### FrameCompositor -/

/-- The formula of R193 as the source writes it; the properties p1 to p4 of R194, and that the byte of every pixel lies
inside the PixelBuffer. -/
def Obligations.ScaleIndexStaysInTheSource : Prop :=
  (∀ d srcDim dstDim, 1 ≤ dstDim →
    scaleIndex d srcDim dstDim =
      if srcDim = dstDim then d else (d * ((srcDim <<< 16) / dstDim + 1)) >>> 16) ∧
  (∀ d srcDim dstDim, 1 ≤ srcDim → srcDim ≤ dstDim → dstDim ≤ 256 → d < dstDim →
    scaleIndex d srcDim dstDim < srcDim ∧ scaleIndex 0 srcDim dstDim = 0 ∧
    (∀ e, d ≤ e → e < dstDim → scaleIndex d srcDim dstDim ≤ scaleIndex e srcDim dstDim)) ∧
  (∀ (c : Config) (buf : Addr) (dx dy : Nat), rangesOk c = true → dx < c.dstW → dy < c.dstH →
    inRange (pixelAddr c buf (scaleIndex dx c.srcW c.dstW) (scaleIndex dy c.srcH c.dstH)) buf.toNat (srcBytes c)) ∧
  (∀ d srcDim, 1 ≤ srcDim → d < 32768 → scaleIndex d srcDim (2 * srcDim) = d / 2) ∧
  (∀ d dim, 1 ≤ dim → dim ≤ 256 → d < dim → scaleIndex d dim dim = d ∧ d * (dim * 65536 / dim + 1) / 65536 = d)

/-- R190: a synchronous `PAINT` of an allocated buffer puts `CS+`, the viewport's window, the packed frame and `CS-`
on the wire, each pixel as R192 gives it, and then clears exactly the buffer if `clr` says so. While the lock is held it
waits, whatever memory holds. -/
def Obligations.PaintSendsTheFrame : Prop :=
  ∀ (s : State) (src : Addr) (clr : Bool),
    configOk s.cfg = true → s.cfg.transport = .sync → overlapsStream s.cfg src = false →
    (undisturbed s → rangeAdmitted s.mem src.toNat (srcBytes s.cfg) = true →
      ∃ (ps : List Color12) (m : Memory),
        exec (.paint src clr) s = .next (finished { s with
          lock := false, holder := .none, cs := .deselected, dc := .data, mem := m, stream := [],
          wt := s.wt ++ displayEvents (viewport s.cfg) (streamBytes ps) }) ∧
        ps.length = nPix s.cfg ∧
        (∀ dx dy, dx < s.cfg.dstW → dy < s.cfg.dstH →
          (framePixelAt s src dx dy).isSome = true ∧ ps[dy * s.cfg.dstW + dx]? = framePixelAt s src dx dy) ∧
        (∀ a, memRead m a =
          if clr = true ∧ inRange a src.toNat (srcBytes s.cfg) then some 0 else memRead s.mem a)) ∧
    (s.lock = true → waitsForLock (.paint src clr) s s)

/-- R191: a DMA `PAINT` composes the frame into the stream buffer, opens the viewport's window, starts the transfer
of the stream and clears exactly the PixelBuffer if `clr` says so; it ends with the transfer in flight. While the lock is
held, by an earlier transfer or another consumer, it waits with the stream buffer not yet written. -/
def Obligations.PaintStartsTheTransfer : Prop :=
  ∀ (s : State) (src : Addr) (clr : Bool),
    configOk s.cfg = true → s.cfg.transport = .dma → overlapsStream s.cfg src = false →
    (undisturbed s → s.dstate = .idle → s.chEn = false →
      rangeAdmitted s.mem src.toNat (srcBytes s.cfg) = true →
      rangeAdmitted s.mem s.cfg.streamBase.toNat (streamLen s.cfg) = true →
      ∃ (ps : List Color12) (m : Memory),
        exec (.paint src clr) s = .next (finished { s with
          lock := true, holder := .dma, cs := .selected, dc := .data, mem := m, stream := [],
          td := ⟨s.cfg.streamBase, BitVec.ofNat 24 (streamLen s.cfg), s.cfg.spiDrAddr, true⟩, srcPast := false,
          irqEn := true, chEn := true, dstate := .inFlight,
          wt := s.wt ++ [.cs .selected] ++ windowEvents .selected (viewport s.cfg) }) ∧
        ps.length = nPix s.cfg ∧
        (∀ dx dy, dx < s.cfg.dstW → dy < s.cfg.dstH →
          (framePixelAt s src dx dy).isSome = true ∧ ps[dy * s.cfg.dstW + dx]? = framePixelAt s src dx dy) ∧
        (∀ a, memRead m a =
          if clr = true ∧ inRange a src.toNat (srcBytes s.cfg) then some 0
          else if inRange a s.cfg.streamBase.toNat (streamLen s.cfg) then
            (streamBytes ps)[a - s.cfg.streamBase.toNat]?
          else memRead s.mem a)) ∧
    (s.lock = true → waitsForLock (.paint src clr) s s)

/-- The wire trace of a DMA `PAINT` and its completion, the host presenting nothing more, is that of the same `PAINT`
presented in the same state with `TRANSPORT = SYNC`: `CS+`, the window, the packed frame, `CS-`; and both leave the lock
free and the panel deselected (R190, R191, R176, R309). -/
def Obligations.BothTransportsSendTheSameTrace : Prop :=
  ∀ (s : State) (src : Addr) (clr : Bool) (ps : List Color12),
    configOk s.cfg = true → s.cfg.transport = .dma → undisturbed s → s.dstate = .idle → s.chEn = false →
    s.irqPend = false → overlapsStream s.cfg src = false → s.prog.length ≤ s.opi + 1 →
    rangeAdmitted s.mem src.toNat (srcBytes s.cfg) = true →
    rangeAdmitted s.mem s.cfg.streamBase.toNat (streamLen s.cfg) = true →
    framePixels s src = .ok ps →
    ∃ s1 t u, exec (.paint src clr) s = .next s1 ∧ runMachine (streamLen s.cfg + 1) s1 = .next t ∧
      exec (.paint src clr) { s with cfg := { s.cfg with transport := .sync } } = .next u ∧ u.busy = [] ∧
      t.wt = u.wt ∧ t.wt = s.wt ++ displayEvents (viewport s.cfg) (streamBytes ps) ∧
      t.lock = false ∧ t.holder = .none ∧ t.dstate = .idle ∧ t.chEn = false ∧ t.cs = .deselected ∧
      u.lock = false ∧ u.holder = .none ∧ u.cs = .deselected ∧ t.dc = u.dc

/-- In both transports a `PAINT` whose PixelBuffer overlaps the stream buffer is refused (R7 c4, R199, U20; that the
refusal comes at the `PAINT` is the model's assumption 14). -/
def Obligations.PaintRefusesAnOverlappingBuffer : Prop :=
  ∀ (s : State) (src : Addr) (clr : Bool),
    src.toNat < s.cfg.streamBase.toNat + streamLen s.cfg → s.cfg.streamBase.toNat < src.toNat + srcBytes s.cfg →
    exec (.paint src clr) s = .refused .bufferOverlap

/-- A synchronous `PAINT` that meets a byte that is not allocated: `CS+` and the window have gone out, the lock is
held, and the next step is the fault at that byte, which changes nothing (R192, R302). -/
def Obligations.PaintFaultsAfterTheWindow : Prop :=
  ∀ (s : State) (src : Addr) (clr : Bool) (f : Fault),
    configOk s.cfg = true → s.cfg.transport = .sync → undisturbed s → overlapsStream s.cfg src = false →
    framePixels s src = .error f →
    ∃ (t : State) (a : Nat),
      exec (.paint src clr) s = .next t ∧ t.wt = s.wt ++ [.cs .selected] ++ windowEvents .selected (viewport s.cfg) ∧
      t.lock = true ∧ t.holder = .cons 0 ∧ t.cs = .selected ∧ t.mem = s.mem ∧
      f = .mem a ∧ admitted s.mem a = false ∧ step t = .fault f

/-- A DMA `PAINT` that meets a byte that is not allocated, in the PixelBuffer or (the first such byte) in the stream
buffer: the lock is held, nothing has gone out and the panel is not selected, the stream bytes before that byte are in
memory, and the next step is the fault at that byte (R191, R302; that the fault is a step of its own is assumption
12). -/
def Obligations.DmaPaintFaultsBeforeSelecting : Prop :=
  ∀ (s : State) (src : Addr) (clr : Bool),
    configOk s.cfg = true → s.cfg.transport = .dma → undisturbed s → overlapsStream s.cfg src = false →
    (∀ f, framePixels s src = .error f →
      ∃ (t : State) (a : Nat),
        exec (.paint src clr) s = .next t ∧ t.wt = s.wt ∧ t.cs = s.cs ∧ t.dc = s.dc ∧ t.mem = s.mem ∧
        t.lock = true ∧ t.holder = .cons 0 ∧ t.dstate = s.dstate ∧ t.chEn = s.chEn ∧
        f = .mem a ∧ admitted s.mem a = false ∧ step t = .fault f) ∧
    (∀ (ps : List Color12) (i : Nat), framePixels s src = .ok ps → i < streamLen s.cfg →
      (∀ j < i, admitted s.mem (s.cfg.streamBase.toNat + j) = true) →
      admitted s.mem (s.cfg.streamBase.toNat + i) = false →
      ∃ t : State,
        exec (.paint src clr) s = .next t ∧ t.wt = s.wt ∧ t.cs = s.cs ∧ t.dc = s.dc ∧
        t.lock = true ∧ t.holder = .cons 0 ∧ t.dstate = s.dstate ∧ t.chEn = s.chEn ∧
        (∀ a, memRead t.mem a =
          if inRange a s.cfg.streamBase.toNat i then (streamBytes ps)[a - s.cfg.streamBase.toNat]?
          else memRead s.mem a) ∧
        step t = .fault (.mem (s.cfg.streamBase.toNat + i)))

/-! ### BorderRenderer -/

/-- R220, R221: the viewport, the twelve regions in their order and the strip of R254 as rectangles, a spare row below
and a spare column to the right; and R222 g1: those that are not empty lie inside the panel. -/
def Obligations.RegionsLieInThePanel : Prop :=
  ∀ (c : Config) (orient : Bool) (g marginX marginY oX0 oY0 oX1 oY1 : Nat), configOk c = true →
    g = (if c.gap then 1 else 0) → marginX = (c.panelW - c.dstW - 2) / 2 → marginY = (c.panelH - c.dstH - 2) / 2 →
    oX0 = marginX - g → oY0 = marginY - g → oX1 = marginX + 1 + c.dstW + g → oY1 = marginY + 1 + c.dstH + g →
    viewport c = ⟨marginX + 1, marginY + 1, c.dstW, c.dstH⟩ ∧
    fillRegions c =
      [⟨0, 0, c.panelW, oY0⟩, ⟨0, oY1 + 1, c.panelW, c.panelH - oY1 - 1⟩,
       ⟨0, oY0, oX0, oY1 - oY0 + 1⟩, ⟨oX1 + 1, oY0, c.panelW - oX1 - 1, oY1 - oY0 + 1⟩] ∧
    outlineRegions c =
      [⟨oX0, oY0, oX1 - oX0 + 1, 1⟩, ⟨oX0, oY1, oX1 - oX0 + 1, 1⟩,
       ⟨oX0, oY0, 1, oY1 - oY0 + 1⟩, ⟨oX1, oY0, 1, oY1 - oY0 + 1⟩] ∧
    gapRegions c =
      (if c.gap then
        [⟨oX0 + 1, oY0 + 1, c.dstW + 2, 1⟩, ⟨oX0 + 1, oY1 - 1, c.dstW + 2, 1⟩,
         ⟨oX0 + 1, oY0 + 1, 1, c.dstH + 2⟩, ⟨oX1 - 1, oY0 + 1, 1, c.dstH + 2⟩]
      else []) ∧
    ledRegions c orient =
      (if c.ledPresent then [⟨0, if orient then c.panelH - c.ledH else 0, c.panelW, c.ledH⟩] else []) ∧
    (c.panelH - oY1 - 1 = oY0 + (c.panelH - c.dstH - 2) % 2 ∧ c.panelW - oX1 - 1 = oX0 + (c.panelW - c.dstW - 2) % 2) ∧
    ∀ r ∈ viewport c :: (fillRegions c ++ outlineRegions c ++ gapRegions c ++ ledRegions c orient),
      1 ≤ r.w → 1 ≤ r.h → r.x + r.w ≤ c.panelW ∧ r.y + r.h ≤ c.panelH

/-- R222 g2 to g4: fills, outline, gap and viewport cover every pixel of the panel; a fill shares no pixel with
another fill, the outline, the gap or the viewport; outline and gap are each a ring one pixel thick, the gap ring one
pixel further in; outline, gap and viewport are pairwise disjoint. -/
def Obligations.RegionsCoverThePanel : Prop :=
  ∀ (c : Config) (g oX0 oY0 oX1 oY1 : Nat), configOk c = true →
    g = (if c.gap then 1 else 0) → oX0 = (c.panelW - c.dstW - 2) / 2 - g → oY0 = (c.panelH - c.dstH - 2) / 2 - g →
    oX1 = (c.panelW - c.dstW - 2) / 2 + 1 + c.dstW + g → oY1 = (c.panelH - c.dstH - 2) / 2 + 1 + c.dstH + g →
    ∀ px py, px < c.panelW → py < c.panelH →
    (∃ r ∈ viewport c :: (fillRegions c ++ outlineRegions c ++ gapRegions c), inRegion px py r) ∧
    (∀ r ∈ fillRegions c, inRegion px py r →
      ∀ q ∈ viewport c :: (outlineRegions c ++ gapRegions c), ¬ inRegion px py q) ∧
    (fillRegions c).Pairwise (fun r q => ¬ (inRegion px py r ∧ inRegion px py q)) ∧
    ((∃ r ∈ outlineRegions c, inRegion px py r) ↔
      oX0 ≤ px ∧ px ≤ oX1 ∧ oY0 ≤ py ∧ py ≤ oY1 ∧ (px = oX0 ∨ px = oX1 ∨ py = oY0 ∨ py = oY1)) ∧
    ((∃ r ∈ gapRegions c, inRegion px py r) ↔
      c.gap = true ∧ oX0 + 1 ≤ px ∧ px + 1 ≤ oX1 ∧ oY0 + 1 ≤ py ∧ py + 1 ≤ oY1 ∧
        (px = oX0 + 1 ∨ px + 1 = oX1 ∨ py = oY0 + 1 ∨ py + 1 = oY1)) ∧
    (∀ r ∈ outlineRegions c, inRegion px py r → ∀ q ∈ viewport c :: gapRegions c, ¬ inRegion px py q) ∧
    (∀ r ∈ gapRegions c, inRegion px py r → ¬ inRegion px py (viewport c))

/-- R230: the full draw makes the draw calls of fills, outline, gap and LED strip in that order, and then the flag is
set; while the lock is held it waits with nothing drawn and the flag as it was. -/
def Obligations.DrawBorderDrawsEveryRegion : Prop :=
  encode .drawBorder = .word 0x31 ∧
  ∀ s : State, configOk s.cfg = true →
    (undisturbed s →
      exec .drawBorder s = .next (finished { afterDraws
        (fillEvents s s.theme.bfill ++ outlineEvents s s.theme.bline ++ gapEvents s s.theme.bg ++ ledEvents s) s with
        borderDrawn := true })) ∧
    (s.lock = true → waitsForLock .drawBorder s s)

/-! ### LedBar -/

/-- R250, R251, R252: the LED setters store their channel and nothing else; the reserved channel is refused. -/
def Obligations.LedSettersOnlyStore : Prop :=
  (∀ (ch : BitVec 2) (level r g b : Byte) (on : Bool),
    encode (.ledSetChannel ch level) = .word (0x40 ||| (ch.setWidth 64 <<< 8) ||| (level.setWidth 64 <<< 16)) ∧
    encode (.ledSetAll r g b) =
      .word (0x41 ||| (r.setWidth 64 <<< 8) ||| (g.setWidth 64 <<< 16) ||| (b.setWidth 64 <<< 24)) ∧
    encode (.ledSetDigital ch on) =
      .word (0x42 ||| (ch.setWidth 64 <<< 8) ||| (if on then 0x10000 else 0))) ∧
  ∀ (s : State) (r g b : Byte) (on : Bool),
    exec (.ledSetChannel 0 r) s = .next (finished { s with led := { s.led with red := r } }) ∧
    exec (.ledSetChannel 1 g) s = .next (finished { s with led := { s.led with green := g } }) ∧
    exec (.ledSetChannel 2 b) s = .next (finished { s with led := { s.led with blue := b } }) ∧
    exec (.ledSetChannel 3 b) s = .refused (.encoding .reservedChannel) ∧
    exec (.ledSetAll r g b) s = .next (finished { s with led := ⟨r, g, b⟩ }) ∧
    exec (.ledSetDigital 0 on) s =
      .next (finished { s with led := { s.led with red := if on then 255 else 0 } }) ∧
    exec (.ledSetDigital 1 on) s =
      .next (finished { s with led := { s.led with green := if on then 255 else 0 } }) ∧
    exec (.ledSetDigital 2 on) s =
      .next (finished { s with led := { s.led with blue := if on then 255 else 0 } }) ∧
    exec (.ledSetDigital 3 on) s = .refused (.encoding .reservedChannel)

/-- R256: the orientation flag is stored; nothing is drawn and no command is sent. -/
def Obligations.SetOrientOnlyStores : Prop :=
  ∀ (s : State) (flag : Bool),
    encode (.setOrient flag) = .word (if flag then 0x144 else 0x44) ∧
    exec (.setOrient flag) s = .next (finished { s with orient := flag })

/-- R253 and R254: one draw call of the full-width strip at the edge `ORIENT` names, in the LED colour, whatever
`BORDER_DRAWN` is; nothing at all with `LED_PRESENT = 0`; while the lock is held it waits. -/
def Obligations.LedRenderPaintsTheStrip : Prop :=
  encode .ledRender = .word 0x43 ∧
  ∀ s : State,
    (s.cfg.ledPresent = false → exec .ledRender s = .next (finished s)) ∧
    (s.cfg.ledPresent = true → configOk s.cfg = true → undisturbed s →
      exec .ledRender s = .next (finished { s with
        lock := false, holder := .none, cs := .deselected, dc := .data,
        wt := s.wt ++ displayEvents ⟨0, if s.orient then s.cfg.panelH - s.cfg.ledH else 0, s.cfg.panelW, s.cfg.ledH⟩
          (fillBytes (pack12 (s.led.red.toNat * 15 / 255) (s.led.green.toNat * 15 / 255)
            (s.led.blue.toNat * 15 / 255)) (s.cfg.panelW * s.cfg.ledH)) })) ∧
    (s.cfg.ledPresent = true → configOk s.cfg = true → s.lock = true → waitsForLock .ledRender s s)

/-! ### The panel commands -/

/-- Each of the fifteen wire commands sends its code and its parameter bytes (R90, R270), and changes no state of the
block but `DC`. -/
def Obligations.PanelCommandsSendTheirFrames : Prop :=
  sendsFrame .swreset 0x01 [] ∧ sendsFrame .slpin 0x10 [] ∧ sendsFrame .slpout 0x11 [] ∧
  sendsFrame .invoff 0x20 [] ∧ sendsFrame .invon 0x21 [] ∧ sendsFrame .dispoff 0x28 [] ∧
  sendsFrame .dispon 0x29 [] ∧ sendsFrame .ramwr 0x2C [] ∧
  (∀ xs xe, sendsFrame (.caset xs xe) 0x2A [0, xs, 0, xe]) ∧
  (∀ ys ye, sendsFrame (.raset ys ye) 0x2B [0, ys, 0, ye]) ∧
  (∀ p, sendsFrame (.madctl p) 0x36 [p]) ∧ (∀ p, sendsFrame (.colmod p) 0x3A [p]) ∧
  (∀ p0 p1 p2, sendsFrame (.frmctr1 p0 p1 p2) 0xB1 [p0, p1, p2]) ∧
  (∀ ps, sendsFrame (.gmctrp1 ps) 0xE0 ps) ∧ (∀ ps, sendsFrame (.gmctrn1 ps) 0xE1 ps)

/-- A pseudo-operation does what its listing of `SEND_COMMAND` and `WRITE_BYTE` does, one after the other; it counts
as one line of the program (R87; the model's assumption 8). -/
def Obligations.PseudoOperationsAreTheirListings : Prop :=
  ∀ (i : Instr) (code : Byte) (ps : List Byte) (s : State),
    encode i = .frame (code :: ps) → s.holder = .cons 0 → s.turns = [] →
    ∃ u, runListing (.sendCommand code :: ps.map .writeByte) s = .next u ∧
      exec i s = .next { u with opi := s.opi + 1 }

/-- On the reference sink, the wire trace of a draw call paints its rectangle in its colour and no other pixel, an
odd number of pixels included (R198, R290; the sink is the model's assumption 19). -/
def Obligations.DrawCallPaintsItsRectangle : Prop :=
  ∀ (c : Config) (k : Sink) (r : Region) (col : Color12),
    c.panelW ≤ 256 → c.panelH ≤ 256 → inPanel c r = true →
    ∀ x y, sinkPixel (sinkRun k (displayEvents r (fillBytes col (r.w * r.h)))) x y =
      if inRegion x y r then some col else sinkPixel k x y

/-! ### Reset and whole-machine rules -/

/-- R331: what reset leaves in every field, for any parameters. -/
def Obligations.ResetLeavesTheStatedValues : Prop :=
  ∀ c : Config,
    (State.resetWith c).lock = false ∧ (State.resetWith c).holder = .none ∧
    (State.resetWith c).cs = .deselected ∧ (State.resetWith c).inverted = false ∧
    (State.resetWith c).borderDrawn = false ∧ (State.resetWith c).orient = false ∧
    (State.resetWith c).dstate = .idle ∧ (State.resetWith c).chEn = false ∧
    (State.resetWith c).irqEn = false ∧ (State.resetWith c).irqPend = false ∧
    (State.resetWith c).dc = c.dcReset ∧ (State.resetWith c).rst = c.rstReset ∧
    (State.resetWith c).theme = c.themeReset ∧ (State.resetWith c).led = c.ledReset ∧
    (State.resetWith c).td = c.tdReset ∧ (State.resetWith c).wt = [] ∧ (State.resetWith c).opi = 0 ∧
    (State.resetWith c).busy = []

/-- The invariant of R39 and the canonical form of memory hold right after reset, for any parameters. -/
def Obligations.ResetMeetsTheInvariant : Prop :=
  ∀ c : Config, lockInvariant (State.resetWith c) ∧ memoryWf (State.resetWith c).mem = true

/-- R39: every step of every agent, from any state that meets them, keeps the lock and DMA invariants. -/
def Obligations.StepKeepsTheLockInvariant : Prop :=
  ∀ s t : State, lockInvariant s → step s = .next t → lockInvariant t

/-- Every step keeps the canonical form of memory and which bytes are allocated (R67). -/
def Obligations.StepKeepsTheAllocation : Prop :=
  ∀ s t : State, memoryWf s.mem = true → step s = .next t →
    memoryWf t.mem = true ∧ ∀ a, (memRead t.mem a).isSome = (memRead s.mem a).isSome

/-- No step writes the parameters or the host program, and the wire trace only grows (R6, R12, R22). -/
def Obligations.StepOnlyAppendsToTheTrace : Prop :=
  ∀ s t : State, step s = .next t →
    t.cfg = s.cfg ∧ t.prog = s.prog ∧ s.opi ≤ t.opi ∧ t.opi ≤ s.opi + 1 ∧ ∃ es, t.wt = s.wt ++ es

/-- R32 and R36: no step clears `BORDER_DRAWN` or `IRQ_EN` once set. -/
def Obligations.BorderDrawnAndIrqEnableStaySet : Prop :=
  ∀ s t : State, step s = .next t →
    (s.borderDrawn = true → t.borderDrawn = true) ∧ (s.irqEn = true → t.irqEn = true)

/-- The frame of the operations (R20, column "written by"): a field outside the list of its writers is unchanged by
every operation, completed, waiting or preempted. -/
def Obligations.OnlyTheirWritersWriteTheFields : Prop :=
  ∀ (i : Instr) (s t : State), exec i s = .next t →
    t.cfg = s.cfg ∧ t.prog = s.prog ∧ t.irqPend = s.irqPend ∧ t.freeIdx = s.freeIdx ∧
    ((i ≠ .rstAssert ∧ i ≠ .rstRelease) → t.rst = s.rst) ∧
    ((∀ c, i ≠ .setPixelColor c) ∧ (∀ c, i ≠ .setBgColor c) ∧ (∀ c, i ≠ .setBorderLineColor c) ∧
      (∀ c, i ≠ .setBorderFillColor c) ∧ (∀ f, i ≠ .invert f) → t.theme = s.theme) ∧
    ((∀ f, i ≠ .invert f) → t.inverted = s.inverted) ∧
    ((∀ ch l, i ≠ .ledSetChannel ch l) ∧ (∀ r g b, i ≠ .ledSetAll r g b) ∧ (∀ ch on, i ≠ .ledSetDigital ch on) →
      t.led = s.led) ∧
    ((∀ f, i ≠ .setOrient f) → t.orient = s.orient) ∧
    (i ≠ .drawBorder → t.borderDrawn = s.borderDrawn) ∧
    ((∀ a n, i ≠ .startTransfer a n) ∧ (∀ a f, i ≠ .paint a f) →
      t.td = s.td ∧ t.dstate = s.dstate ∧ t.chEn = s.chEn ∧ t.irqEn = s.irqEn ∧ t.srcPast = s.srcPast) ∧
    ((∀ a f, i ≠ .paint a f) → t.mem = s.mem ∧ t.stream = s.stream)

/-- Who writes memory. An operation, completed, waiting or preempted, changes no byte but for `PAINT`, which stores to
its PixelBuffer when `clr` is set (R197), and with `TRANSPORT = DMA` to the stream buffer (R191). A store of the host
processor's own program writes its one byte, between two operations and to an allocated address, and changes nothing
else (R70 o3, R341; that such stores are turns of the script is the model's assumption 17). Any other step changes only
bytes to which a `PAINT` in progress or presented stores. -/
def Obligations.OperationsStoreOnlyWherePaintStores : Prop :=
  (∀ (i : Instr) (s t : State), exec i s = .next t → ∀ a : Nat,
    (∀ src clr, i = .paint src clr →
      ¬(clr = true ∧ inRange a src.toNat (srcBytes s.cfg)) ∧
      ¬(s.cfg.transport = .dma ∧ inRange a s.cfg.streamBase.toNat (streamLen s.cfg))) →
    memRead t.mem a = memRead s.mem a) ∧
  (∀ (s : State) (p : Nat) (b : Byte) (ts : List Turn), configOk s.cfg = true → s.turns = .hostStore p b :: ts →
    ∃ m : Memory, step s = .next { s with turns := ts, mem := m } ∧
      ∀ a, memRead m a =
        if s.busy = [] ∧ a = p ∧ p < 4294967296 ∧ (memRead s.mem p).isSome = true then some b else memRead s.mem a) ∧
  (∀ (s t : State), step s = .next t → (∀ p b ts, s.turns ≠ .hostStore p b :: ts) → ∀ a : Nat,
    (∀ p ∈ s.busy, storesTo s.cfg p.act a = false) →
    (s.busy = [] → ∀ item src clr, s.prog[s.opi]? = some item → decode item = .ok (.paint src clr) →
      ¬(clr = true ∧ inRange a src.toNat (srcBytes s.cfg)) ∧
      ¬(s.cfg.transport = .dma ∧ inRange a s.cfg.streamBase.toNat (streamLen s.cfg))) →
    memRead t.mem a = memRead s.mem a)

/-- While a host operation is in progress, a turn of another agent leaves its steps, the composed stream, memory, the
Theme, the LED levels, the host-written flags, `RST`, `DC` and `opi` as they were; and in a state that meets
`lockInvariant` in which the host holds the lock it changes nothing at all, `CS`, `LOCK`, `HOLDER`, the channel and the
trace included (R20, R152, R158, R174, R176). -/
def Obligations.OtherAgentsLeaveAnOperationItsInputs : Prop :=
  ∀ (s t : State) (a : Turn) (ts : List Turn), s.busy ≠ [] → s.turns = a :: ts → a ≠ .host → step s = .next t →
    (t.busy = s.busy ∧ t.stream = s.stream ∧ t.mem = s.mem ∧ t.theme = s.theme ∧ t.led = s.led ∧
      t.orient = s.orient ∧ t.inverted = s.inverted ∧ t.borderDrawn = s.borderDrawn ∧ t.rst = s.rst ∧
      t.dc = s.dc ∧ t.opi = s.opi) ∧
    (lockInvariant s → s.holder = .cons 0 → t = { s with turns := ts })

/-- R13, R309: an operation preempted by other agents' turns ends as the same operation does when nobody interrupts it.
If the operation (but for a DMA `PAINT`, the next statement) runs to its end at once with an empty script, then with any
script it starts, no step of the machine fails while it is in progress, and whenever it ends everything that the host
sees is the same: every field, memory and the trace but for the bytes of other consumers; and the lock is as it was left,
or another consumer has claimed it after the host's release. With the script used up and no other consumer in possession of the
lock the next step ends it. -/
def Obligations.PreemptedOperationsEndTheSame : Prop :=
  ∀ (i : Instr) (s t : State) (ts : List Turn),
    configOk s.cfg = true → (s.lock = false ↔ s.holder = .none) → s.dstate = .idle →
    (∀ src clr, i = .paint src clr → s.cfg.transport = .sync) →
    exec i { s with turns := [] } = .next t → t.busy = [] →
    ∃ s1, exec i { s with turns := ts } = .next s1 ∧
      ∀ n, stillBusy n s1 → ∃ u, runMachine n s1 = .next u ∧
        (u.busy = [] → hostView u = hostView t ∧
          (u.lock = t.lock ∧ u.holder = t.holder ∨ t.lock = false ∧ u.lock = true ∧ ∃ k, 1 ≤ k ∧ u.holder = .cons k)) ∧
        (u.busy ≠ [] → u.turns = [] → (u.lock = false ∨ u.holder = .cons 0) → ∃ v, step u = .next v ∧ v.busy = [])

/-- R191, R309: the same of a DMA `PAINT`, whose transfer may already be on its way, or done, when the operation returns:
the trace is then that of the uninterrupted `PAINT` and the first `k` events of what its transfer sends, the channel, the
select line and the lock are as `k` beats (or, at the end, the handler) leave them, everything else is the same, and with
the script used up the next step ends it. -/
def Obligations.PreemptedDmaPaintSendsTheSame : Prop :=
  ∀ (src : Addr) (clr : Bool) (s t : State) (ts : List Turn),
    configOk s.cfg = true → lockInvariant s → s.dstate = .idle → s.cfg.transport = .dma →
    exec (.paint src clr) { s with turns := [] } = .next t → t.busy = [] →
    ∃ s1, exec (.paint src clr) { s with turns := ts } = .next s1 ∧
      ∀ n, stillBusy n s1 → ∃ u, runMachine n s1 = .next u ∧
        (u.busy = [] → hostViewApartFromChannel u = hostViewApartFromChannel t ∧
          ∃ k ≤ streamLen s.cfg + 1, hostEvents u.wt = hostEvents t.wt ++ (transferEvents t).take k ∧
            (k ≤ streamLen s.cfg → u.dstate = .inFlight ∧ u.chEn = true ∧ u.lock = true ∧ u.holder = .dma ∧
              u.cs = .selected ∧ u.td.cnt.toNat = streamLen s.cfg - k) ∧
            (k = streamLen s.cfg + 1 → u.dstate = .idle ∧ u.chEn = false ∧ u.irqPend = false ∧
              u.cs = .deselected ∧ u.holder ≠ .dma)) ∧
        (u.busy ≠ [] → u.turns = [] → ∃ v, step u = .next v ∧ v.busy = [])

/-- R40: the ten registers of the view, each field at its bits and the rest 0. -/
def Obligations.ControlRegistersShowTheFields : Prop :=
  ∀ s : State,
    (∃ v, controlRegister s 0 = some v ∧ v.getLsbD 0 = s.lock ∧ v.getLsbD 1 = decide (s.dc = .data) ∧
      v.getLsbD 2 = decide (s.cs = .selected) ∧ v.getLsbD 3 = decide (s.rst = .asserted) ∧
      v.extractLsb' 4 2 = (match s.dstate with | .idle => 0#2 | .configuring => 1#2 | .inFlight => 2#2 | .completingIrq => 3#2) ∧
      v.getLsbD 6 = s.chEn ∧ v.getLsbD 7 = s.irqEn ∧ v.getLsbD 8 = s.irqPend ∧ v.getLsbD 9 = s.borderDrawn ∧
      v.getLsbD 10 = s.inverted ∧ v.getLsbD 11 = s.orient ∧ v.extractLsb' 12 20 = 0#20) ∧
    controlRegister s 1 = some s.td.src ∧ controlRegister s 2 = some (0#8 ++ s.td.cnt) ∧
    controlRegister s 3 = some s.td.dst ∧ controlRegister s 4 = some (0#31 ++ BitVec.ofBool s.td.inc) ∧
    controlRegister s 5 = some (0#20 ++ s.theme.pixel) ∧ controlRegister s 6 = some (0#20 ++ s.theme.bg) ∧
    controlRegister s 7 = some (0#20 ++ s.theme.bline) ∧ controlRegister s 8 = some (0#20 ++ s.theme.bfill) ∧
    controlRegister s 9 = some (0#8 ++ s.led.blue ++ s.led.green ++ s.led.red) ∧
    ∀ n, 10 ≤ n → controlRegister s n = none
end

