-- ==== Sys2Proof/Laws/Encoding.lean ====
section
/-! SUPPORT. Laws/Encoding.lean: reading fields back out of a word made of shifted operands. -/

namespace Sys2Proof.Laws

/-- A field of an or-ed word is the or of the fields. -/
@[simp] theorem field_or (a b : OpWord) (lo n : Nat) : field (a ||| b) lo n = field a lo n ||| field b lo n := by
  ext i hi
  simp [field]

/-- An operand shifted above a field leaves it 0. -/
theorem field_shifted_above {m : Nat} (v : BitVec m) (k lo n : Nat) (h : lo + n ≤ k) : field (shifted v k) lo n = 0 := by
  ext i hi
  simp [field, shifted]
  omega

/-- An operand whose last bit lies below a field leaves it 0. -/
theorem field_shifted_below {m : Nat} (v : BitVec m) (k lo n : Nat) (h : k + m ≤ lo) : field (shifted v k) lo n = 0 := by
  ext i hi
  simp [field, shifted]
  intro _ _ _
  exact BitVec.getLsbD_of_ge v _ (by omega)

/-- An operand is read back from its own field. -/
theorem field_shifted_same {m : Nat} (v : BitVec m) (k : Nat) (h : k + m ≤ 64) : field (shifted v k) k m = v := by
  ext i hi
  have h1 : k + i < 64 := by omega
  simp [field, shifted, h1, BitVec.getLsbD_eq_getElem hi]

end Sys2Proof.Laws
end

