-- ==== Sys2Proof/Laws/Memory.lean ====
section
/-! SUPPORT. Laws/Memory.lean: reading after writing, and the canonical form. -/

namespace Sys2Proof.Laws

open Sys2Proof.Machine

/-- A write to an allocated byte is read back. -/
theorem memRead_memWrite_same (m : Memory) (a : Nat) (b : Byte) (h : (memRead m a).isSome = true) :
    memRead (memWrite m a b) a = some b := by
  induction m with
  | nil => simp [memRead, unallocated] at h
  | cons c m ih =>
    obtain ⟨k, v⟩ := c
    by_cases hk : k = a
    · simp [memWrite, memRead, hk]
    · have h' : (memRead m a).isSome = true := by simpa [memRead, hk] using h
      simp [memWrite, memRead, hk, ih h']

/-- A write leaves every other address alone. -/
theorem memRead_memWrite_other (m : Memory) (a a' : Nat) (b : Byte) (h : a' ≠ a) :
    memRead (memWrite m a b) a' = memRead m a' := by
  induction m with
  | nil => rfl
  | cons c m ih =>
    obtain ⟨k, v⟩ := c
    by_cases hk : k = a
    · subst hk; simp [memWrite, memRead, Ne.symm h]
    · by_cases hk' : k = a'
      · subst hk'; simp [memWrite, memRead, hk]
      · simp [memWrite, memRead, hk, hk', ih]

/-- What a write does to every address at once. -/
theorem memRead_memWrite (m : Memory) (a a' : Nat) (b : Byte) (h : (memRead m a).isSome = true) :
    memRead (memWrite m a b) a' = if a' = a then some b else memRead m a' := by
  by_cases ha : a' = a
  · subst ha; simp [memRead_memWrite_same m a' b h]
  · simp [ha, memRead_memWrite_other m a a' b ha]

/-- No write allocates or frees a byte. -/
@[simp] theorem memWrite_isSome (m : Memory) (a a' : Nat) (b : Byte) :
    (memRead (memWrite m a b) a').isSome = (memRead m a').isSome := by
  induction m with
  | nil => rfl
  | cons c m ih =>
    obtain ⟨k, v⟩ := c
    by_cases hk : k = a
    · subst hk
      by_cases hk' : k = a' <;> simp [memWrite, memRead, hk']
    · by_cases hk' : k = a'
      · subst hk'; simp [memWrite, memRead, hk]
      · simp [memWrite, memRead, hk, hk', ih]

/-- No write changes what the block may access. -/
@[simp] theorem admitted_memWrite (m : Memory) (a a' : Nat) (b : Byte) :
    admitted (memWrite m a b) a' = admitted m a' := by
  simp [admitted]

/-- A write keeps the addresses as they are. -/
@[simp] theorem risingFrom_memWrite (m : Memory) (lo a : Nat) (b : Byte) :
    risingFrom lo (memWrite m a b) = risingFrom lo m := by
  induction m generalizing lo with
  | nil => rfl
  | cons c m ih =>
    obtain ⟨k, v⟩ := c
    by_cases hk : k = a <;> simp [memWrite, risingFrom, hk, ih]

/-- Every write keeps the canonical form. -/
@[simp] theorem memoryWf_memWrite (m : Memory) (a : Nat) (b : Byte) :
    memoryWf (memWrite m a b) = memoryWf m :=
  risingFrom_memWrite m 0 a b

/-- The memory after reset has the canonical form. -/
theorem memoryWf_reset (c : Config) : memoryWf (State.resetWith c).mem = true := rfl

/-- A load answers a byte exactly when the address is below `2^32` and allocated. -/
theorem load_ok_iff (m : Memory) (a : Nat) (b : Byte) :
    load m a = .ok b ↔ a < addrSpace ∧ memRead m a = some b := by
  unfold load
  split
  · split <;> simp_all
  · simp_all

/-- A load that does not answer faults at its address, which is not admitted. -/
theorem load_error_iff (m : Memory) (a : Nat) (f : Fault) :
    load m a = .error f ↔ admitted m a = false ∧ f = .mem a := by
  have h : Except.error (Fault.mem a) = (Except.error f : Except Fault Byte) ↔ f = .mem a :=
    ⟨fun e => (Except.error.inj e).symm, fun e => by rw [e]⟩
  unfold load admitted
  split
  · split <;> simp_all
  · simp_all

/-- A store answers exactly when the address is admitted, and writes that byte. -/
theorem store_ok_iff (m m' : Memory) (a : Nat) (b : Byte) :
    store m a b = .ok m' ↔ admitted m a = true ∧ m' = memWrite m a b := by
  have h : Except.ok (memWrite m a b) = (Except.ok m' : Except Fault Memory) ↔ m' = memWrite m a b :=
    ⟨fun e => (Except.ok.inj e).symm, fun e => by rw [e]⟩
  unfold store
  split <;> simp_all

end Sys2Proof.Laws
end

