-- ==== Sys2Proof/Laws/State.lean ====
section
/-! SUPPORT. Laws/State.lean: what each named update of the state leaves in each field. -/

namespace Sys2Proof.Laws

open Sys2Proof.Machine

@[simp] theorem emit_cfg (s : State) (e : Event) : (emit e s).cfg = s.cfg := rfl
@[simp] theorem emit_lock (s : State) (e : Event) : (emit e s).lock = s.lock := rfl
@[simp] theorem emit_holder (s : State) (e : Event) : (emit e s).holder = s.holder := rfl
@[simp] theorem emit_dc (s : State) (e : Event) : (emit e s).dc = s.dc := rfl
@[simp] theorem emit_cs (s : State) (e : Event) : (emit e s).cs = s.cs := rfl
@[simp] theorem emit_rst (s : State) (e : Event) : (emit e s).rst = s.rst := rfl
@[simp] theorem emit_theme (s : State) (e : Event) : (emit e s).theme = s.theme := rfl
@[simp] theorem emit_led (s : State) (e : Event) : (emit e s).led = s.led := rfl
@[simp] theorem emit_inverted (s : State) (e : Event) : (emit e s).inverted = s.inverted := rfl
@[simp] theorem emit_borderDrawn (s : State) (e : Event) : (emit e s).borderDrawn = s.borderDrawn := rfl
@[simp] theorem emit_orient (s : State) (e : Event) : (emit e s).orient = s.orient := rfl
@[simp] theorem emit_dstate (s : State) (e : Event) : (emit e s).dstate = s.dstate := rfl
@[simp] theorem emit_chEn (s : State) (e : Event) : (emit e s).chEn = s.chEn := rfl
@[simp] theorem emit_irqEn (s : State) (e : Event) : (emit e s).irqEn = s.irqEn := rfl
@[simp] theorem emit_irqPend (s : State) (e : Event) : (emit e s).irqPend = s.irqPend := rfl
@[simp] theorem emit_td (s : State) (e : Event) : (emit e s).td = s.td := rfl
@[simp] theorem emit_mem (s : State) (e : Event) : (emit e s).mem = s.mem := rfl
@[simp] theorem emit_wt (s : State) (e : Event) : (emit e s).wt = s.wt ++ [e] := rfl
@[simp] theorem emit_prog (s : State) (e : Event) : (emit e s).prog = s.prog := rfl
@[simp] theorem emit_opi (s : State) (e : Event) : (emit e s).opi = s.opi := rfl
@[simp] theorem emit_busy (s : State) (e : Event) : (emit e s).busy = s.busy := rfl
@[simp] theorem emit_stream (s : State) (e : Event) : (emit e s).stream = s.stream := rfl
@[simp] theorem emit_turns (s : State) (e : Event) : (emit e s).turns = s.turns := rfl
@[simp] theorem emit_srcPast (s : State) (e : Event) : (emit e s).srcPast = s.srcPast := rfl
@[simp] theorem emit_freeIdx (s : State) (e : Event) : (emit e s).freeIdx = s.freeIdx := rfl

@[simp] theorem emitByte_cfg (s : State) (b : Byte) : (emitByte b s).cfg = s.cfg := rfl
@[simp] theorem emitByte_lock (s : State) (b : Byte) : (emitByte b s).lock = s.lock := rfl
@[simp] theorem emitByte_holder (s : State) (b : Byte) : (emitByte b s).holder = s.holder := rfl
@[simp] theorem emitByte_dc (s : State) (b : Byte) : (emitByte b s).dc = s.dc := rfl
@[simp] theorem emitByte_cs (s : State) (b : Byte) : (emitByte b s).cs = s.cs := rfl
@[simp] theorem emitByte_rst (s : State) (b : Byte) : (emitByte b s).rst = s.rst := rfl
@[simp] theorem emitByte_theme (s : State) (b : Byte) : (emitByte b s).theme = s.theme := rfl
@[simp] theorem emitByte_led (s : State) (b : Byte) : (emitByte b s).led = s.led := rfl
@[simp] theorem emitByte_inverted (s : State) (b : Byte) : (emitByte b s).inverted = s.inverted := rfl
@[simp] theorem emitByte_borderDrawn (s : State) (b : Byte) : (emitByte b s).borderDrawn = s.borderDrawn := rfl
@[simp] theorem emitByte_orient (s : State) (b : Byte) : (emitByte b s).orient = s.orient := rfl
@[simp] theorem emitByte_dstate (s : State) (b : Byte) : (emitByte b s).dstate = s.dstate := rfl
@[simp] theorem emitByte_chEn (s : State) (b : Byte) : (emitByte b s).chEn = s.chEn := rfl
@[simp] theorem emitByte_irqEn (s : State) (b : Byte) : (emitByte b s).irqEn = s.irqEn := rfl
@[simp] theorem emitByte_irqPend (s : State) (b : Byte) : (emitByte b s).irqPend = s.irqPend := rfl
@[simp] theorem emitByte_td (s : State) (b : Byte) : (emitByte b s).td = s.td := rfl
@[simp] theorem emitByte_mem (s : State) (b : Byte) : (emitByte b s).mem = s.mem := rfl
@[simp] theorem emitByte_wt (s : State) (b : Byte) : (emitByte b s).wt = s.wt ++ [.byte s.cs s.dc b] := rfl
@[simp] theorem emitByte_prog (s : State) (b : Byte) : (emitByte b s).prog = s.prog := rfl
@[simp] theorem emitByte_opi (s : State) (b : Byte) : (emitByte b s).opi = s.opi := rfl
@[simp] theorem emitByte_busy (s : State) (b : Byte) : (emitByte b s).busy = s.busy := rfl
@[simp] theorem emitByte_stream (s : State) (b : Byte) : (emitByte b s).stream = s.stream := rfl
@[simp] theorem emitByte_turns (s : State) (b : Byte) : (emitByte b s).turns = s.turns := rfl
@[simp] theorem emitByte_srcPast (s : State) (b : Byte) : (emitByte b s).srcPast = s.srcPast := rfl
@[simp] theorem emitByte_freeIdx (s : State) (b : Byte) : (emitByte b s).freeIdx = s.freeIdx := rfl

@[simp] theorem setDc_cfg (s : State) (m : DcLine) : (setDc m s).cfg = s.cfg := rfl
@[simp] theorem setDc_lock (s : State) (m : DcLine) : (setDc m s).lock = s.lock := rfl
@[simp] theorem setDc_holder (s : State) (m : DcLine) : (setDc m s).holder = s.holder := rfl
@[simp] theorem setDc_dc (s : State) (m : DcLine) : (setDc m s).dc = m := rfl
@[simp] theorem setDc_cs (s : State) (m : DcLine) : (setDc m s).cs = s.cs := rfl
@[simp] theorem setDc_rst (s : State) (m : DcLine) : (setDc m s).rst = s.rst := rfl
@[simp] theorem setDc_theme (s : State) (m : DcLine) : (setDc m s).theme = s.theme := rfl
@[simp] theorem setDc_led (s : State) (m : DcLine) : (setDc m s).led = s.led := rfl
@[simp] theorem setDc_inverted (s : State) (m : DcLine) : (setDc m s).inverted = s.inverted := rfl
@[simp] theorem setDc_borderDrawn (s : State) (m : DcLine) : (setDc m s).borderDrawn = s.borderDrawn := rfl
@[simp] theorem setDc_orient (s : State) (m : DcLine) : (setDc m s).orient = s.orient := rfl
@[simp] theorem setDc_dstate (s : State) (m : DcLine) : (setDc m s).dstate = s.dstate := rfl
@[simp] theorem setDc_chEn (s : State) (m : DcLine) : (setDc m s).chEn = s.chEn := rfl
@[simp] theorem setDc_irqEn (s : State) (m : DcLine) : (setDc m s).irqEn = s.irqEn := rfl
@[simp] theorem setDc_irqPend (s : State) (m : DcLine) : (setDc m s).irqPend = s.irqPend := rfl
@[simp] theorem setDc_td (s : State) (m : DcLine) : (setDc m s).td = s.td := rfl
@[simp] theorem setDc_mem (s : State) (m : DcLine) : (setDc m s).mem = s.mem := rfl
@[simp] theorem setDc_wt (s : State) (m : DcLine) : (setDc m s).wt = s.wt ++ [.dc m] := rfl
@[simp] theorem setDc_prog (s : State) (m : DcLine) : (setDc m s).prog = s.prog := rfl
@[simp] theorem setDc_opi (s : State) (m : DcLine) : (setDc m s).opi = s.opi := rfl
@[simp] theorem setDc_busy (s : State) (m : DcLine) : (setDc m s).busy = s.busy := rfl
@[simp] theorem setDc_stream (s : State) (m : DcLine) : (setDc m s).stream = s.stream := rfl
@[simp] theorem setDc_turns (s : State) (m : DcLine) : (setDc m s).turns = s.turns := rfl
@[simp] theorem setDc_srcPast (s : State) (m : DcLine) : (setDc m s).srcPast = s.srcPast := rfl
@[simp] theorem setDc_freeIdx (s : State) (m : DcLine) : (setDc m s).freeIdx = s.freeIdx := rfl

@[simp] theorem setCs_cfg (s : State) (c : CsLine) : (setCs c s).cfg = s.cfg := rfl
@[simp] theorem setCs_lock (s : State) (c : CsLine) : (setCs c s).lock = s.lock := rfl
@[simp] theorem setCs_holder (s : State) (c : CsLine) : (setCs c s).holder = s.holder := rfl
@[simp] theorem setCs_dc (s : State) (c : CsLine) : (setCs c s).dc = s.dc := rfl
@[simp] theorem setCs_cs (s : State) (c : CsLine) : (setCs c s).cs = c := rfl
@[simp] theorem setCs_rst (s : State) (c : CsLine) : (setCs c s).rst = s.rst := rfl
@[simp] theorem setCs_theme (s : State) (c : CsLine) : (setCs c s).theme = s.theme := rfl
@[simp] theorem setCs_led (s : State) (c : CsLine) : (setCs c s).led = s.led := rfl
@[simp] theorem setCs_inverted (s : State) (c : CsLine) : (setCs c s).inverted = s.inverted := rfl
@[simp] theorem setCs_borderDrawn (s : State) (c : CsLine) : (setCs c s).borderDrawn = s.borderDrawn := rfl
@[simp] theorem setCs_orient (s : State) (c : CsLine) : (setCs c s).orient = s.orient := rfl
@[simp] theorem setCs_dstate (s : State) (c : CsLine) : (setCs c s).dstate = s.dstate := rfl
@[simp] theorem setCs_chEn (s : State) (c : CsLine) : (setCs c s).chEn = s.chEn := rfl
@[simp] theorem setCs_irqEn (s : State) (c : CsLine) : (setCs c s).irqEn = s.irqEn := rfl
@[simp] theorem setCs_irqPend (s : State) (c : CsLine) : (setCs c s).irqPend = s.irqPend := rfl
@[simp] theorem setCs_td (s : State) (c : CsLine) : (setCs c s).td = s.td := rfl
@[simp] theorem setCs_mem (s : State) (c : CsLine) : (setCs c s).mem = s.mem := rfl
@[simp] theorem setCs_wt (s : State) (c : CsLine) : (setCs c s).wt = s.wt ++ [.cs c] := rfl
@[simp] theorem setCs_prog (s : State) (c : CsLine) : (setCs c s).prog = s.prog := rfl
@[simp] theorem setCs_opi (s : State) (c : CsLine) : (setCs c s).opi = s.opi := rfl
@[simp] theorem setCs_busy (s : State) (c : CsLine) : (setCs c s).busy = s.busy := rfl
@[simp] theorem setCs_stream (s : State) (c : CsLine) : (setCs c s).stream = s.stream := rfl
@[simp] theorem setCs_turns (s : State) (c : CsLine) : (setCs c s).turns = s.turns := rfl
@[simp] theorem setCs_srcPast (s : State) (c : CsLine) : (setCs c s).srcPast = s.srcPast := rfl
@[simp] theorem setCs_freeIdx (s : State) (c : CsLine) : (setCs c s).freeIdx = s.freeIdx := rfl

@[simp] theorem setRst_cfg (s : State) (a : RstLine) : (setRst a s).cfg = s.cfg := rfl
@[simp] theorem setRst_lock (s : State) (a : RstLine) : (setRst a s).lock = s.lock := rfl
@[simp] theorem setRst_holder (s : State) (a : RstLine) : (setRst a s).holder = s.holder := rfl
@[simp] theorem setRst_dc (s : State) (a : RstLine) : (setRst a s).dc = s.dc := rfl
@[simp] theorem setRst_cs (s : State) (a : RstLine) : (setRst a s).cs = s.cs := rfl
@[simp] theorem setRst_rst (s : State) (a : RstLine) : (setRst a s).rst = a := rfl
@[simp] theorem setRst_theme (s : State) (a : RstLine) : (setRst a s).theme = s.theme := rfl
@[simp] theorem setRst_led (s : State) (a : RstLine) : (setRst a s).led = s.led := rfl
@[simp] theorem setRst_inverted (s : State) (a : RstLine) : (setRst a s).inverted = s.inverted := rfl
@[simp] theorem setRst_borderDrawn (s : State) (a : RstLine) : (setRst a s).borderDrawn = s.borderDrawn := rfl
@[simp] theorem setRst_orient (s : State) (a : RstLine) : (setRst a s).orient = s.orient := rfl
@[simp] theorem setRst_dstate (s : State) (a : RstLine) : (setRst a s).dstate = s.dstate := rfl
@[simp] theorem setRst_chEn (s : State) (a : RstLine) : (setRst a s).chEn = s.chEn := rfl
@[simp] theorem setRst_irqEn (s : State) (a : RstLine) : (setRst a s).irqEn = s.irqEn := rfl
@[simp] theorem setRst_irqPend (s : State) (a : RstLine) : (setRst a s).irqPend = s.irqPend := rfl
@[simp] theorem setRst_td (s : State) (a : RstLine) : (setRst a s).td = s.td := rfl
@[simp] theorem setRst_mem (s : State) (a : RstLine) : (setRst a s).mem = s.mem := rfl
@[simp] theorem setRst_wt (s : State) (a : RstLine) : (setRst a s).wt = s.wt ++ [.rst a] := rfl
@[simp] theorem setRst_prog (s : State) (a : RstLine) : (setRst a s).prog = s.prog := rfl
@[simp] theorem setRst_opi (s : State) (a : RstLine) : (setRst a s).opi = s.opi := rfl
@[simp] theorem setRst_busy (s : State) (a : RstLine) : (setRst a s).busy = s.busy := rfl
@[simp] theorem setRst_stream (s : State) (a : RstLine) : (setRst a s).stream = s.stream := rfl
@[simp] theorem setRst_turns (s : State) (a : RstLine) : (setRst a s).turns = s.turns := rfl
@[simp] theorem setRst_srcPast (s : State) (a : RstLine) : (setRst a s).srcPast = s.srcPast := rfl
@[simp] theorem setRst_freeIdx (s : State) (a : RstLine) : (setRst a s).freeIdx = s.freeIdx := rfl

@[simp] theorem takeLock_cfg (s : State) (h : Holder) : (takeLock h s).cfg = s.cfg := rfl
@[simp] theorem takeLock_lock (s : State) (h : Holder) : (takeLock h s).lock = true := rfl
@[simp] theorem takeLock_holder (s : State) (h : Holder) : (takeLock h s).holder = h := rfl
@[simp] theorem takeLock_dc (s : State) (h : Holder) : (takeLock h s).dc = s.dc := rfl
@[simp] theorem takeLock_cs (s : State) (h : Holder) : (takeLock h s).cs = s.cs := rfl
@[simp] theorem takeLock_rst (s : State) (h : Holder) : (takeLock h s).rst = s.rst := rfl
@[simp] theorem takeLock_theme (s : State) (h : Holder) : (takeLock h s).theme = s.theme := rfl
@[simp] theorem takeLock_led (s : State) (h : Holder) : (takeLock h s).led = s.led := rfl
@[simp] theorem takeLock_inverted (s : State) (h : Holder) : (takeLock h s).inverted = s.inverted := rfl
@[simp] theorem takeLock_borderDrawn (s : State) (h : Holder) : (takeLock h s).borderDrawn = s.borderDrawn := rfl
@[simp] theorem takeLock_orient (s : State) (h : Holder) : (takeLock h s).orient = s.orient := rfl
@[simp] theorem takeLock_dstate (s : State) (h : Holder) : (takeLock h s).dstate = s.dstate := rfl
@[simp] theorem takeLock_chEn (s : State) (h : Holder) : (takeLock h s).chEn = s.chEn := rfl
@[simp] theorem takeLock_irqEn (s : State) (h : Holder) : (takeLock h s).irqEn = s.irqEn := rfl
@[simp] theorem takeLock_irqPend (s : State) (h : Holder) : (takeLock h s).irqPend = s.irqPend := rfl
@[simp] theorem takeLock_td (s : State) (h : Holder) : (takeLock h s).td = s.td := rfl
@[simp] theorem takeLock_mem (s : State) (h : Holder) : (takeLock h s).mem = s.mem := rfl
@[simp] theorem takeLock_wt (s : State) (h : Holder) : (takeLock h s).wt = s.wt := rfl
@[simp] theorem takeLock_prog (s : State) (h : Holder) : (takeLock h s).prog = s.prog := rfl
@[simp] theorem takeLock_opi (s : State) (h : Holder) : (takeLock h s).opi = s.opi := rfl
@[simp] theorem takeLock_busy (s : State) (h : Holder) : (takeLock h s).busy = s.busy := rfl
@[simp] theorem takeLock_stream (s : State) (h : Holder) : (takeLock h s).stream = s.stream := rfl
@[simp] theorem takeLock_turns (s : State) (h : Holder) : (takeLock h s).turns = s.turns := rfl
@[simp] theorem takeLock_srcPast (s : State) (h : Holder) : (takeLock h s).srcPast = s.srcPast := rfl
@[simp] theorem takeLock_freeIdx (s : State) (h : Holder) : (takeLock h s).freeIdx = s.freeIdx := rfl

@[simp] theorem freeLock_cfg (s : State) : (freeLock s).cfg = s.cfg := rfl
@[simp] theorem freeLock_lock (s : State) : (freeLock s).lock = false := rfl
@[simp] theorem freeLock_holder (s : State) : (freeLock s).holder = .none := rfl
@[simp] theorem freeLock_dc (s : State) : (freeLock s).dc = s.dc := rfl
@[simp] theorem freeLock_cs (s : State) : (freeLock s).cs = s.cs := rfl
@[simp] theorem freeLock_rst (s : State) : (freeLock s).rst = s.rst := rfl
@[simp] theorem freeLock_theme (s : State) : (freeLock s).theme = s.theme := rfl
@[simp] theorem freeLock_led (s : State) : (freeLock s).led = s.led := rfl
@[simp] theorem freeLock_inverted (s : State) : (freeLock s).inverted = s.inverted := rfl
@[simp] theorem freeLock_borderDrawn (s : State) : (freeLock s).borderDrawn = s.borderDrawn := rfl
@[simp] theorem freeLock_orient (s : State) : (freeLock s).orient = s.orient := rfl
@[simp] theorem freeLock_dstate (s : State) : (freeLock s).dstate = s.dstate := rfl
@[simp] theorem freeLock_chEn (s : State) : (freeLock s).chEn = s.chEn := rfl
@[simp] theorem freeLock_irqEn (s : State) : (freeLock s).irqEn = s.irqEn := rfl
@[simp] theorem freeLock_irqPend (s : State) : (freeLock s).irqPend = s.irqPend := rfl
@[simp] theorem freeLock_td (s : State) : (freeLock s).td = s.td := rfl
@[simp] theorem freeLock_mem (s : State) : (freeLock s).mem = s.mem := rfl
@[simp] theorem freeLock_wt (s : State) : (freeLock s).wt = s.wt := rfl
@[simp] theorem freeLock_prog (s : State) : (freeLock s).prog = s.prog := rfl
@[simp] theorem freeLock_opi (s : State) : (freeLock s).opi = s.opi := rfl
@[simp] theorem freeLock_busy (s : State) : (freeLock s).busy = s.busy := rfl
@[simp] theorem freeLock_stream (s : State) : (freeLock s).stream = s.stream := rfl
@[simp] theorem freeLock_turns (s : State) : (freeLock s).turns = s.turns := rfl
@[simp] theorem freeLock_srcPast (s : State) : (freeLock s).srcPast = s.srcPast := rfl
@[simp] theorem freeLock_freeIdx (s : State) : (freeLock s).freeIdx = s.freeIdx := rfl

@[simp] theorem finish_cfg (s : State) : (finish s).cfg = s.cfg := rfl
@[simp] theorem finish_lock (s : State) : (finish s).lock = s.lock := rfl
@[simp] theorem finish_holder (s : State) : (finish s).holder = s.holder := rfl
@[simp] theorem finish_dc (s : State) : (finish s).dc = s.dc := rfl
@[simp] theorem finish_cs (s : State) : (finish s).cs = s.cs := rfl
@[simp] theorem finish_rst (s : State) : (finish s).rst = s.rst := rfl
@[simp] theorem finish_theme (s : State) : (finish s).theme = s.theme := rfl
@[simp] theorem finish_led (s : State) : (finish s).led = s.led := rfl
@[simp] theorem finish_inverted (s : State) : (finish s).inverted = s.inverted := rfl
@[simp] theorem finish_borderDrawn (s : State) : (finish s).borderDrawn = s.borderDrawn := rfl
@[simp] theorem finish_orient (s : State) : (finish s).orient = s.orient := rfl
@[simp] theorem finish_dstate (s : State) : (finish s).dstate = s.dstate := rfl
@[simp] theorem finish_chEn (s : State) : (finish s).chEn = s.chEn := rfl
@[simp] theorem finish_irqEn (s : State) : (finish s).irqEn = s.irqEn := rfl
@[simp] theorem finish_irqPend (s : State) : (finish s).irqPend = s.irqPend := rfl
@[simp] theorem finish_td (s : State) : (finish s).td = s.td := rfl
@[simp] theorem finish_mem (s : State) : (finish s).mem = s.mem := rfl
@[simp] theorem finish_wt (s : State) : (finish s).wt = s.wt := rfl
@[simp] theorem finish_prog (s : State) : (finish s).prog = s.prog := rfl
@[simp] theorem finish_opi (s : State) : (finish s).opi = s.opi + 1 := rfl
@[simp] theorem finish_busy (s : State) : (finish s).busy = [] := rfl
@[simp] theorem finish_stream (s : State) : (finish s).stream = s.stream := rfl
@[simp] theorem finish_turns (s : State) : (finish s).turns = s.turns := rfl
@[simp] theorem finish_srcPast (s : State) : (finish s).srcPast = s.srcPast := rfl
@[simp] theorem finish_freeIdx (s : State) : (finish s).freeIdx = s.freeIdx := rfl

@[simp] theorem countBeat_cfg (s : State) : (countBeat s).cfg = s.cfg := rfl
@[simp] theorem countBeat_lock (s : State) : (countBeat s).lock = s.lock := rfl
@[simp] theorem countBeat_holder (s : State) : (countBeat s).holder = s.holder := rfl
@[simp] theorem countBeat_dc (s : State) : (countBeat s).dc = s.dc := rfl
@[simp] theorem countBeat_cs (s : State) : (countBeat s).cs = s.cs := rfl
@[simp] theorem countBeat_rst (s : State) : (countBeat s).rst = s.rst := rfl
@[simp] theorem countBeat_theme (s : State) : (countBeat s).theme = s.theme := rfl
@[simp] theorem countBeat_led (s : State) : (countBeat s).led = s.led := rfl
@[simp] theorem countBeat_inverted (s : State) : (countBeat s).inverted = s.inverted := rfl
@[simp] theorem countBeat_borderDrawn (s : State) : (countBeat s).borderDrawn = s.borderDrawn := rfl
@[simp] theorem countBeat_orient (s : State) : (countBeat s).orient = s.orient := rfl
@[simp] theorem countBeat_dstate (s : State) : (countBeat s).dstate = s.dstate := rfl
@[simp] theorem countBeat_chEn (s : State) : (countBeat s).chEn = s.chEn := rfl
@[simp] theorem countBeat_irqEn (s : State) : (countBeat s).irqEn = s.irqEn := rfl
@[simp] theorem countBeat_irqPend (s : State) : (countBeat s).irqPend = (if s.td.cnt - 1 = 0 then true else s.irqPend) := rfl
@[simp] theorem countBeat_td (s : State) : (countBeat s).td = { s.td with cnt := s.td.cnt - 1 } := rfl
@[simp] theorem countBeat_mem (s : State) : (countBeat s).mem = s.mem := rfl
@[simp] theorem countBeat_wt (s : State) : (countBeat s).wt = s.wt := rfl
@[simp] theorem countBeat_prog (s : State) : (countBeat s).prog = s.prog := rfl
@[simp] theorem countBeat_opi (s : State) : (countBeat s).opi = s.opi := rfl
@[simp] theorem countBeat_busy (s : State) : (countBeat s).busy = s.busy := rfl
@[simp] theorem countBeat_stream (s : State) : (countBeat s).stream = s.stream := rfl
@[simp] theorem countBeat_turns (s : State) : (countBeat s).turns = s.turns := rfl
@[simp] theorem countBeat_srcPast (s : State) : (countBeat s).srcPast = s.srcPast := rfl
@[simp] theorem countBeat_freeIdx (s : State) : (countBeat s).freeIdx = s.freeIdx := rfl

@[simp] theorem takeCompletion_cfg (s : State) : (takeCompletion s).cfg = s.cfg := rfl
@[simp] theorem takeCompletion_lock (s : State) : (takeCompletion s).lock = false := rfl
@[simp] theorem takeCompletion_holder (s : State) : (takeCompletion s).holder = .none := rfl
@[simp] theorem takeCompletion_dc (s : State) : (takeCompletion s).dc = s.dc := rfl
@[simp] theorem takeCompletion_cs (s : State) : (takeCompletion s).cs = .deselected := rfl
@[simp] theorem takeCompletion_rst (s : State) : (takeCompletion s).rst = s.rst := rfl
@[simp] theorem takeCompletion_theme (s : State) : (takeCompletion s).theme = s.theme := rfl
@[simp] theorem takeCompletion_led (s : State) : (takeCompletion s).led = s.led := rfl
@[simp] theorem takeCompletion_inverted (s : State) : (takeCompletion s).inverted = s.inverted := rfl
@[simp] theorem takeCompletion_borderDrawn (s : State) : (takeCompletion s).borderDrawn = s.borderDrawn := rfl
@[simp] theorem takeCompletion_orient (s : State) : (takeCompletion s).orient = s.orient := rfl
@[simp] theorem takeCompletion_dstate (s : State) : (takeCompletion s).dstate = .idle := rfl
@[simp] theorem takeCompletion_chEn (s : State) : (takeCompletion s).chEn = false := rfl
@[simp] theorem takeCompletion_irqEn (s : State) : (takeCompletion s).irqEn = s.irqEn := rfl
@[simp] theorem takeCompletion_irqPend (s : State) : (takeCompletion s).irqPend = false := rfl
@[simp] theorem takeCompletion_td (s : State) : (takeCompletion s).td = tornDown s.freeIdx := rfl
@[simp] theorem takeCompletion_mem (s : State) : (takeCompletion s).mem = s.mem := rfl
@[simp] theorem takeCompletion_wt (s : State) : (takeCompletion s).wt = s.wt ++ [.cs .deselected] := rfl
@[simp] theorem takeCompletion_prog (s : State) : (takeCompletion s).prog = s.prog := rfl
@[simp] theorem takeCompletion_opi (s : State) : (takeCompletion s).opi = s.opi := rfl
@[simp] theorem takeCompletion_busy (s : State) : (takeCompletion s).busy = s.busy := rfl
@[simp] theorem takeCompletion_stream (s : State) : (takeCompletion s).stream = s.stream := rfl
@[simp] theorem takeCompletion_turns (s : State) : (takeCompletion s).turns = s.turns := rfl
@[simp] theorem takeCompletion_srcPast (s : State) : (takeCompletion s).srcPast = false := rfl
@[simp] theorem takeCompletion_freeIdx (s : State) : (takeCompletion s).freeIdx = s.freeIdx + 1 := rfl

@[simp] theorem loadLine_cfg (s : State) (item : Item) : (loadLine s item).cfg = s.cfg := rfl
@[simp] theorem loadLine_lock (s : State) (item : Item) : (loadLine s item).lock = s.lock := rfl
@[simp] theorem loadLine_holder (s : State) (item : Item) : (loadLine s item).holder = s.holder := rfl
@[simp] theorem loadLine_dc (s : State) (item : Item) : (loadLine s item).dc = s.dc := rfl
@[simp] theorem loadLine_cs (s : State) (item : Item) : (loadLine s item).cs = s.cs := rfl
@[simp] theorem loadLine_rst (s : State) (item : Item) : (loadLine s item).rst = s.rst := rfl
@[simp] theorem loadLine_theme (s : State) (item : Item) : (loadLine s item).theme = s.theme := rfl
@[simp] theorem loadLine_led (s : State) (item : Item) : (loadLine s item).led = s.led := rfl
@[simp] theorem loadLine_inverted (s : State) (item : Item) : (loadLine s item).inverted = s.inverted := rfl
@[simp] theorem loadLine_borderDrawn (s : State) (item : Item) : (loadLine s item).borderDrawn = s.borderDrawn := rfl
@[simp] theorem loadLine_orient (s : State) (item : Item) : (loadLine s item).orient = s.orient := rfl
@[simp] theorem loadLine_dstate (s : State) (item : Item) : (loadLine s item).dstate = s.dstate := rfl
@[simp] theorem loadLine_chEn (s : State) (item : Item) : (loadLine s item).chEn = s.chEn := rfl
@[simp] theorem loadLine_irqEn (s : State) (item : Item) : (loadLine s item).irqEn = s.irqEn := rfl
@[simp] theorem loadLine_irqPend (s : State) (item : Item) : (loadLine s item).irqPend = s.irqPend := rfl
@[simp] theorem loadLine_td (s : State) (item : Item) : (loadLine s item).td = s.td := rfl
@[simp] theorem loadLine_mem (s : State) (item : Item) : (loadLine s item).mem = s.mem := rfl
@[simp] theorem loadLine_wt (s : State) (item : Item) : (loadLine s item).wt = s.wt := rfl
@[simp] theorem loadLine_prog (s : State) (item : Item) : (loadLine s item).prog = [item] := rfl
@[simp] theorem loadLine_opi (s : State) (item : Item) : (loadLine s item).opi = 0 := rfl
@[simp] theorem loadLine_busy (s : State) (item : Item) : (loadLine s item).busy = [] := rfl
@[simp] theorem loadLine_stream (s : State) (item : Item) : (loadLine s item).stream = s.stream := rfl
@[simp] theorem loadLine_turns (s : State) (item : Item) : (loadLine s item).turns = [] := rfl
@[simp] theorem loadLine_srcPast (s : State) (item : Item) : (loadLine s item).srcPast = s.srcPast := rfl
@[simp] theorem loadLine_freeIdx (s : State) (item : Item) : (loadLine s item).freeIdx = s.freeIdx := rfl

end Sys2Proof.Laws
end

