-- ==== Sys2Proof/Laws/Ops.lean ====
section
/-! SUPPORT. Laws/Ops.lean: for each shared operation, once, everything it can do; and the two ways a whole operation
is reasoned about: what every primitive step keeps, an operation keeps (`runSteps_keeps`), and an operation whose
steps all succeed ends in the state they lead to (`runSteps_complete`). -/

namespace Sys2Proof.Laws

open Sys2Proof.Machine

/-- A step under the lock is taken exactly while the host is the holder. -/
@[simp] theorem underLock_ok_iff (op : Instr) (s s' t : State) :
    underLock op s s' = .ok t ↔ s.holder = .cons 0 ∧ t = s' := by
  have h : ActResult.ok s' = .ok t ↔ t = s' := ⟨fun e => (ActResult.ok.inj e).symm, fun e => by rw [e]⟩
  unfold underLock
  split <;> simp_all

/-- A step under the lock that is not taken faults with `F_NOLOCK`. -/
@[simp] theorem underLock_fault_iff (op : Instr) (s s' : State) (f : Fault) :
    underLock op s s' = .fault f ↔ s.holder ≠ .cons 0 ∧ f = .noLock op := by
  have h : ActResult.fault (.noLock op) = .fault f ↔ f = .noLock op :=
    ⟨fun e => (ActResult.fault.inj e).symm, fun e => by rw [e]⟩
  unfold underLock
  split <;> simp_all

/-- `START_TRANSFER` is taken exactly under its three preconditions, and arms the channel. -/
theorem startDma_ok_iff (op : Instr) (src : Addr) (len : Count) (s t : State) :
    startDma op src len s = .ok t ↔
      s.holder = .cons 0 ∧ s.dstate = .idle ∧ s.chEn = false ∧ len ≠ 0 ∧
      t = { s with
        td := ⟨src, len, s.cfg.spiDrAddr, true⟩, srcPast := false, irqEn := true, chEn := true,
        dstate := .inFlight, holder := .dma } := by
  unfold startDma
  split
  · split
    · split
      · simp_all
      · rename_i h1 h2 h3
        exact ⟨fun e => ⟨h1, h2.1, h2.2, h3, (ActResult.ok.inj e).symm⟩, fun e => by rw [e.2.2.2.2]⟩
    · rename_i h1 h2
      exact ⟨fun e => (nomatch e), fun e => absurd ⟨e.2.1, e.2.2.1⟩ h2⟩
  · rename_i h1
    exact ⟨fun e => (nomatch e), fun e => absurd e.1 h1⟩

/-- A byte is stored exactly to an admitted address. -/
theorem storeByte_ok_iff (a : Nat) (b : Byte) (s t : State) :
    storeByte a b s = .ok t ↔ admitted s.mem a = true ∧ t = { s with mem := memWrite s.mem a b } := by
  unfold storeByte store
  by_cases h : admitted s.mem a = true
  · simp only [h, if_true, true_and]
    exact ⟨fun e => (ActResult.ok.inj e).symm, fun e => by rw [e]⟩
  · simp [h]

/-- Everything a primitive step can do when it is taken. -/
theorem runAct_ok_cases (op : Instr) (act : Act) (s t : State) (h : runAct op act s = .ok t) :
    (act = .acquire ∧ s.lock = false ∧ t = takeLock (.cons 0) s) ∨
    (act = .release ∧ s.holder = .cons 0 ∧ t = freeLock s) ∨
    (act = .cmdMode ∧ s.holder = .cons 0 ∧ t = setDc .command s) ∨
    (act = .dataMode ∧ s.holder = .cons 0 ∧ t = setDc .data s) ∨
    (act = .csSelect ∧ s.holder = .cons 0 ∧ t = setCs .selected s) ∨
    (act = .csDeselect ∧ s.holder = .cons 0 ∧ t = setCs .deselected s) ∨
    (act = .rstAssert ∧ t = setRst .asserted s) ∨
    (act = .rstRelease ∧ t = setRst .released s) ∨
    (∃ b, act = .writeByte b ∧ s.holder = .cons 0 ∧ t = emitByte b s) ∨
    (∃ x y w h, act = .requireRegion x y w h ∧ s.holder = .cons 0 ∧ inPanel s.cfg ⟨x, y, w, h⟩ = true ∧ t = s) ∨
    (∃ src len, act = .startTransfer src len ∧ startDma op src len s = .ok t) ∨
    (∃ r c, act = .setTheme r c ∧ t = { s with theme := themeWrite s.theme r c }) ∨
    (∃ f, act = .swapTheme f ∧ t = { s with inverted := f, theme := themeSwap s.theme }) ∨
    (∃ ch l, act = .setLed ch l ∧ t = { s with led := ledWrite s.led ch l }) ∨
    (∃ l, act = .setLeds l ∧ t = { s with led := l }) ∨
    (∃ f, act = .setOrient f ∧ t = { s with orient := f }) ∨
    (act = .setBorderDrawn ∧ t = { s with borderDrawn := true }) ∨
    (∃ buf ps, act = .compose buf ∧ framePixels s buf = .ok ps ∧ t = { s with stream := streamBytes ps }) ∨
    (act = .sendStream ∧ s.holder = .cons 0 ∧
      t = emitByte (s.stream.headD 0) { s with stream := s.stream.tail }) ∨
    (∃ i, act = .storeStream i ∧
      storeByte (s.cfg.streamBase.toNat + i) (s.stream.headD 0) { s with stream := s.stream.tail } = .ok t) ∨
    (∃ buf i, act = .clearByte buf i ∧ storeByte (buf.toNat + i) 0 s = .ok t) := by
  cases act with
  | acquire => by_cases hl : s.lock = true <;> simp_all [runAct]
  | release => by_cases hh : s.holder = .cons 0 <;> simp_all [runAct]
  | requireRegion x y w h' =>
    by_cases hh : s.holder = .cons 0
    · by_cases hp : inPanel s.cfg ⟨x, y, w, h'⟩ = true <;> simp_all [runAct]
    · simp_all [runAct]
  | compose buf =>
    simp only [runAct] at h
    split at h
    · simp_all
    · cases h
  | startTransfer src len => simp_all [runAct]
  | storeStream i => simp_all [runAct]
  | clearByte buf i => simp_all [runAct]
  | _ => simp_all [runAct]

/-- A primitive step waits only for the lock (R140). -/
theorem runAct_wait (op : Instr) (act : Act) (s : State) (h : runAct op act s = .wait) :
    act = .acquire ∧ s.lock = true := by
  cases act with
  | acquire => by_cases hl : s.lock = true <;> simp_all [runAct]
  | release => by_cases hh : s.holder = .cons 0 <;> simp_all [runAct]
  | requireRegion x y w h' =>
    by_cases hh : s.holder = .cons 0
    · by_cases hp : inPanel s.cfg ⟨x, y, w, h'⟩ = true <;> simp_all [runAct]
    · simp_all [runAct]
  | compose buf =>
    simp only [runAct] at h
    split at h <;> cases h
  | startTransfer src len =>
    simp only [runAct, startDma] at h
    split at h
    · split at h
      · split at h <;> cases h
      · cases h
    · cases h
  | storeStream i =>
    simp only [runAct, storeByte] at h
    split at h <;> cases h
  | clearByte buf i =>
    simp only [runAct, storeByte] at h
    split at h <;> cases h
  | _ =>
    simp only [runAct, underLock] at h
    first
      | cases h
      | (split at h <;> cases h)

/-- What every primitive step leaves alone: the parameters, the program and its index, the operation in progress, the
script, the pending flag and the counter of free values. -/
theorem runAct_frame (op : Instr) (act : Act) (s t : State) (h : runAct op act s = .ok t) :
    t.cfg = s.cfg ∧ t.prog = s.prog ∧ t.opi = s.opi ∧ t.busy = s.busy ∧ t.turns = s.turns ∧
      t.irqPend = s.irqPend ∧ t.freeIdx = s.freeIdx := by
  rcases runAct_ok_cases op act s t h with ⟨_, _, rfl⟩ | ⟨_, _, rfl⟩ | ⟨_, _, rfl⟩ | ⟨_, _, rfl⟩ | ⟨_, _, rfl⟩ |
    ⟨_, _, rfl⟩ | ⟨_, rfl⟩ | ⟨_, rfl⟩ | ⟨_, _, _, rfl⟩ | ⟨_, _, _, _, _, _, _, rfl⟩ | ⟨_, _, _, h'⟩ | ⟨_, _, _, rfl⟩ |
    ⟨_, _, rfl⟩ | ⟨_, _, _, rfl⟩ | ⟨_, _, rfl⟩ | ⟨_, _, rfl⟩ | ⟨_, rfl⟩ | ⟨_, _, _, _, rfl⟩ | ⟨_, _, rfl⟩ |
    ⟨_, _, h'⟩ | ⟨_, _, _, h'⟩
  case inr.inr.inr.inr.inr.inr.inr.inr.inr.inr.inl =>
    obtain ⟨_, _, _, _, rfl⟩ := (startDma_ok_iff op _ _ s t).1 h'
    simp
  case inr.inr.inr.inr.inr.inr.inr.inr.inr.inr.inr.inr.inr.inr.inr.inr.inr.inr.inr.inl =>
    obtain ⟨_, rfl⟩ := (storeByte_ok_iff _ _ _ t).1 h'
    simp
  case inr.inr.inr.inr.inr.inr.inr.inr.inr.inr.inr.inr.inr.inr.inr.inr.inr.inr.inr.inr =>
    obtain ⟨_, rfl⟩ := (storeByte_ok_iff _ _ _ t).1 h'
    simp
  all_goals simp

/-- Between two primitive steps the host's turn only uses up the script. -/
theorem hostTurn_some (s s1 : State) (h : hostTurn s = some s1) : ∃ ts, s1 = { s with turns := ts } := by
  unfold hostTurn at h
  split at h
  · exact ⟨s.turns, by simpa using h.symm⟩
  · exact ⟨_, by simpa using h.symm⟩
  · cases h

/-- With an empty script the host goes on. -/
@[simp] theorem hostTurn_nil (s : State) (h : s.turns = []) : hostTurn s = some s := by
  simp [hostTurn, h]

/-- What every primitive step of the list keeps, and the bookkeeping between steps keeps, the rest of an operation
keeps. -/
theorem runRest_keeps (P : State → Prop) (ps : List PrimStep)
    (hact : ∀ p ∈ ps, ∀ s t, P s → runAct p.op p.act s = .ok t → P t)
    (hturn : ∀ s ts, P s → P { s with turns := ts })
    (hbusy : ∀ s qs, P s → P { s with busy := qs })
    (hfin : ∀ s, P s → P (finish s)) :
    ∀ s, P s → P (runRest ps s) := by
  induction ps with
  | nil => exact fun s h => hfin s h
  | cons p ps ih =>
    intro s hs
    have ih' := ih fun q hq => hact q (List.mem_cons_of_mem p hq)
    unfold runRest
    split
    · exact hbusy s _ hs
    · rename_i s1 h1
      obtain ⟨ts, rfl⟩ := hostTurn_some s s1 h1
      split
      · rename_i s2 h2
        exact ih' s2 (hact p List.mem_cons_self _ _ (hturn s ts hs) h2)
      · exact hbusy s _ hs

/-- Everything running primitive steps can do when it answers a next state. -/
theorem runSteps_next_cases (ps : List PrimStep) (s t : State) (h : runSteps ps s = .next t) :
    (ps = [] ∧ t = finish s) ∨
    (∃ p rest s', ps = p :: rest ∧ runAct p.op p.act s = .ok s' ∧ t = runRest rest s') ∨
    (∃ p rest, ps = p :: rest ∧ runAct p.op p.act s = .wait ∧ t = { s with busy := ps }) := by
  cases ps with
  | nil => exact .inl ⟨rfl, by simpa [runSteps] using h.symm⟩
  | cons p rest =>
    simp only [runSteps] at h
    split at h
    · rename_i s' h'
      exact .inr (.inl ⟨p, rest, s', rfl, h', by simpa using h.symm⟩)
    · rename_i h'
      exact .inr (.inr ⟨p, rest, rfl, h', by simpa using h.symm⟩)
    · cases h

/-- Running primitive steps never refuses: a refusal comes before an operation's first step. -/
theorem runSteps_not_refused (ps : List PrimStep) (s : State) (r : Refusal) : runSteps ps s ≠ .refused r := by
  unfold runSteps
  split
  · simp
  · split <;> simp

/-- What every primitive step of the list keeps, and the bookkeeping keeps, the operation keeps. -/
theorem runSteps_keeps (P : State → Prop) (ps : List PrimStep) (s t : State) (h : runSteps ps s = .next t)
    (hact : ∀ p ∈ ps, ∀ s t, P s → runAct p.op p.act s = .ok t → P t)
    (hturn : ∀ s ts, P s → P { s with turns := ts })
    (hbusy : ∀ s qs, P s → P { s with busy := qs })
    (hfin : ∀ s, P s → P (finish s)) (hs : P s) : P t := by
  rcases runSteps_next_cases ps s t h with ⟨rfl, rfl⟩ | ⟨p, rest, s', rfl, h', rfl⟩ | ⟨p, rest, rfl, _, rfl⟩
  · exact hfin s hs
  · exact runRest_keeps P rest (fun q hq => hact q (List.mem_cons_of_mem p hq)) hturn hbusy hfin s'
      (hact p List.mem_cons_self s s' hs h')
  · exact hbusy s _ hs

/-- The primitive steps one after the other, if every one of them is taken. -/
def runAll : List PrimStep → State → Option State
  | [], s => some s
  | p :: ps, s =>
    match runAct p.op p.act s with
    | .ok s' => runAll ps s'
    | _ => none

@[simp] theorem runAll_nil (s : State) : runAll [] s = some s := rfl

theorem runAll_cons_ok (p : PrimStep) (ps : List PrimStep) (s s' : State) (h : runAct p.op p.act s = .ok s') :
    runAll (p :: ps) s = runAll ps s' := by
  simp [runAll, h]

theorem runAll_append (ps qs : List PrimStep) (s : State) :
    runAll (ps ++ qs) s = (runAll ps s).bind (runAll qs) := by
  induction ps generalizing s with
  | nil => rfl
  | cons p ps ih =>
    simp only [List.cons_append, runAll]
    split
    · exact ih _
    · rfl

/-- With an empty script, the rest of an operation whose steps are all taken ends finished in the state they lead
to. -/
theorem runRest_complete (ps : List PrimStep) (s t : State) (hs : s.turns = []) (h : runAll ps s = some t) :
    runRest ps s = finish t := by
  induction ps generalizing s with
  | nil => simp_all [runRest]
  | cons p ps ih =>
    simp only [runAll] at h
    split at h
    · rename_i s' h'
      have ht : s'.turns = [] := by rw [(runAct_frame p.op p.act s s' h').2.2.2.2.1, hs]
      simp [runRest, hs, h', ih s' ht h]
    · cases h

/-- With an empty script, an operation whose steps are all taken ends finished in the state they lead to. -/
theorem runSteps_complete (ps : List PrimStep) (s t : State) (hs : s.turns = []) (h : runAll ps s = some t) :
    runSteps ps s = .next (finish t) := by
  cases ps with
  | nil => simp_all [runSteps]
  | cons p ps =>
    simp only [runAll] at h
    split at h
    · rename_i s' h'
      have ht : s'.turns = [] := by rw [(runAct_frame p.op p.act s s' h').2.2.2.2.1, hs]
      simp [runSteps, h', runRest_complete ps s' t ht h]
    · cases h

/-- Everything a beat of the DMA channel can do when it answers a next state. -/
theorem dmaBeat_next_cases (s t : State) (h : dmaBeat s = .next t) :
    (beatEnabled s = false ∧ t = s) ∨
    (∃ b, beatEnabled s = true ∧ s.srcPast = false ∧ s.td.src.toNat < addrSpace ∧
      memRead s.mem s.td.src.toNat = some b ∧ t = countBeat (advanceSource (emitByte b s))) := by
  unfold dmaBeat at h
  split at h
  · split at h
    · cases h
    · split at h
      · rename_i hb hp _ b hl
        obtain ⟨h1, h2⟩ := (load_ok_iff _ _ _).1 hl
        exact .inr ⟨b, hb, by simpa using hp, h1, h2, by simpa using h.symm⟩
      · cases h
  · exact .inl ⟨by simp_all, by simpa using h.symm⟩

/-- Everything the completion interrupt can do: its handler's step when it is enabled, else nothing. -/
theorem dmaIrq_next_cases (s t : State) (h : dmaIrq s = .next t) :
    (irqEnabled s = false ∧ t = s) ∨ (irqEnabled s = true ∧ t = takeCompletion s) := by
  unfold dmaIrq at h
  split at h
  · exact .inr ⟨‹_›, by simpa using h.symm⟩
  · exact .inl ⟨by simp_all, by simpa using h.symm⟩

/-- Everything the increment of `TD.SRC` can do. -/
theorem advanceSource_cases (s : State) :
    advanceSource s = s ∨
    advanceSource s = { s with td := { s.td with src := s.td.src + 1 } } ∨
    advanceSource s = { s with
      td := { s.td with src := Config.freeTdSrc s.freeIdx }, srcPast := true, freeIdx := s.freeIdx + 1 } := by
  unfold advanceSource
  split
  · split
    · exact .inr (.inl rfl)
    · exact .inr (.inr rfl)
  · exact .inl rfl

/-- Everything another consumer's acquire can do (R158). -/
theorem otherAcquire_cases (k : Nat) (s : State) :
    otherAcquire k s = s ∨ (s.lock = false ∧ isConsumer s.cfg k = true ∧ otherAcquire k s = takeLock (.cons k) s) := by
  unfold otherAcquire
  split
  · rename_i h; simp at h; exact .inr ⟨h.2, h.1, rfl⟩
  · exact .inl rfl

/-- Everything another consumer's byte can do (R158). -/
theorem otherByte_cases (k : Nat) (b : Byte) (s : State) :
    otherByte k b s = s ∨
    (s.holder = .cons k ∧ isConsumer s.cfg k = true ∧ otherByte k b s = emit (.other k s.cs s.dc b) s) := by
  unfold otherByte
  split
  · rename_i h; simp at h; exact .inr ⟨h.2, h.1, rfl⟩
  · exact .inl rfl

/-- Everything another consumer's release can do (R158). -/
theorem otherRelease_cases (k : Nat) (s : State) :
    otherRelease k s = s ∨ (s.holder = .cons k ∧ isConsumer s.cfg k = true ∧ otherRelease k s = freeLock s) := by
  unfold otherRelease
  split
  · rename_i h; simp at h; exact .inr ⟨h.2, h.1, rfl⟩
  · exact .inl rfl

/-- Everything a store of the host processor can do. -/
theorem hostStore_cases (a : Nat) (b : Byte) (s : State) :
    hostStore a b s = s ∨
    (s.busy = [] ∧ admitted s.mem a = true ∧ hostStore a b s = { s with mem := memWrite s.mem a b }) := by
  unfold hostStore
  split
  · rename_i h; simp at h; exact .inr ⟨h.1, h.2, rfl⟩
  · exact .inl rfl

end Sys2Proof.Laws
end

