-- ==== Sys2Proof/Laws/PerInstr.lean ====
section
/-! SUPPORT. Laws/PerInstr.lean: the family `Opcode`: each instruction's encoding carries the code its row of
spec/opcode_table.json has (R83, R270). -/

namespace Sys2Proof.Laws.Opcode

open Sys2Proof.Laws

/-- The opcode of a word, or the command code of a frame. -/
def codeOf : Item → Option Byte
  | .word w => some (field w 0 8)
  | .frame bytes => bytes.head?

/-- The code of the instruction's row (R83, R270). -/
def rowCode : Instr → Byte
  | .acquire => 0x01
  | .release => 0x02
  | .cmdMode => 0x03
  | .dataMode => 0x04
  | .writeByte _ => 0x05
  | .sendCommand _ => 0x06
  | .setWriteRegion _ _ _ _ => 0x07
  | .csSelect => 0x08
  | .csDeselect => 0x09
  | .rstAssert => 0x0A
  | .rstRelease => 0x0B
  | .startTransfer _ _ => 0x10
  | .setPixelColor _ => 0x20
  | .setBgColor _ => 0x21
  | .setBorderLineColor _ => 0x22
  | .setBorderFillColor _ => 0x23
  | .invert _ => 0x24
  | .paint _ _ => 0x30
  | .drawBorder => 0x31
  | .ledSetChannel _ _ => 0x40
  | .ledSetAll _ _ _ => 0x41
  | .ledSetDigital _ _ => 0x42
  | .ledRender => 0x43
  | .setOrient _ => 0x44
  | .swreset => 0x01
  | .slpin => 0x10
  | .slpout => 0x11
  | .invoff => 0x20
  | .invon => 0x21
  | .dispoff => 0x28
  | .dispon => 0x29
  | .caset _ _ => 0x2A
  | .raset _ _ => 0x2B
  | .ramwr => 0x2C
  | .madctl _ => 0x36
  | .colmod _ => 0x3A
  | .frmctr1 _ _ _ => 0xB1
  | .gmctrp1 _ => 0xE0
  | .gmctrn1 _ => 0xE1

/-- The encoding carries the row's code. -/
def Statement (i : Instr) : Prop := codeOf (encode i) = some (rowCode i)

theorem acquire : Statement (.acquire) := rfl

theorem release : Statement (.release) := rfl

theorem cmdMode : Statement (.cmdMode) := rfl

theorem dataMode : Statement (.dataMode) := rfl

theorem writeByte (imm8 : Byte) : Statement (.writeByte imm8) := by
  simp [Statement, codeOf, rowCode, encode, wordB, field_shifted_above, field_shifted_same]

theorem sendCommand (imm8 : Byte) : Statement (.sendCommand imm8) := by
  simp [Statement, codeOf, rowCode, encode, wordB, field_shifted_above, field_shifted_same]

theorem setWriteRegion (x : Byte) (y : Byte) (w : Half) (h : Half) : Statement (.setWriteRegion x y w h) := by
  simp [Statement, codeOf, rowCode, encode, wordR, field_shifted_above, field_shifted_same]

theorem csSelect : Statement (.csSelect) := rfl

theorem csDeselect : Statement (.csDeselect) := rfl

theorem rstAssert : Statement (.rstAssert) := rfl

theorem rstRelease : Statement (.rstRelease) := rfl

theorem startTransfer (src : Addr) (len : Count) : Statement (.startTransfer src len) := by
  simp [Statement, codeOf, rowCode, encode, wordT, field_shifted_above, field_shifted_same]

theorem setPixelColor (cval : Half) : Statement (.setPixelColor cval) := by
  simp [Statement, codeOf, rowCode, encode, wordC, field_shifted_above, field_shifted_same]

theorem setBgColor (cval : Half) : Statement (.setBgColor cval) := by
  simp [Statement, codeOf, rowCode, encode, wordC, field_shifted_above, field_shifted_same]

theorem setBorderLineColor (cval : Half) : Statement (.setBorderLineColor cval) := by
  simp [Statement, codeOf, rowCode, encode, wordC, field_shifted_above, field_shifted_same]

theorem setBorderFillColor (cval : Half) : Statement (.setBorderFillColor cval) := by
  simp [Statement, codeOf, rowCode, encode, wordC, field_shifted_above, field_shifted_same]

theorem invert (flag : Bool) : Statement (.invert flag) := by
  simp [Statement, codeOf, rowCode, encode, wordF, shiftedBit, field_shifted_above, field_shifted_same]

theorem paint (src : Addr) (clr : Bool) : Statement (.paint src clr) := by
  simp [Statement, codeOf, rowCode, encode, wordP, shiftedBit, field_shifted_above, field_shifted_same]

theorem drawBorder : Statement (.drawBorder) := rfl

theorem ledSetChannel (ch : BitVec 2) (level : Byte) : Statement (.ledSetChannel ch level) := by
  simp [Statement, codeOf, rowCode, encode, wordL1, field_shifted_above, field_shifted_same]

theorem ledSetAll (r : Byte) (g : Byte) (b : Byte) : Statement (.ledSetAll r g b) := by
  simp [Statement, codeOf, rowCode, encode, wordL3, field_shifted_above, field_shifted_same]

theorem ledSetDigital (ch : BitVec 2) (on : Bool) : Statement (.ledSetDigital ch on) := by
  simp [Statement, codeOf, rowCode, encode, wordLD, shiftedBit, field_shifted_above, field_shifted_same]

theorem ledRender : Statement (.ledRender) := rfl

theorem setOrient (flag : Bool) : Statement (.setOrient flag) := by
  simp [Statement, codeOf, rowCode, encode, wordF, shiftedBit, field_shifted_above, field_shifted_same]

theorem swreset : Statement (.swreset) := rfl

theorem slpin : Statement (.slpin) := rfl

theorem slpout : Statement (.slpout) := rfl

theorem invoff : Statement (.invoff) := rfl

theorem invon : Statement (.invon) := rfl

theorem dispoff : Statement (.dispoff) := rfl

theorem dispon : Statement (.dispon) := rfl

theorem caset (xs : Byte) (xe : Byte) : Statement (.caset xs xe) := rfl

theorem raset (ys : Byte) (ye : Byte) : Statement (.raset ys ye) := rfl

theorem ramwr : Statement (.ramwr) := rfl

theorem madctl (p : Byte) : Statement (.madctl p) := rfl

theorem colmod (p : Byte) : Statement (.colmod p) := rfl

theorem frmctr1 (p0 : Byte) (p1 : Byte) (p2 : Byte) : Statement (.frmctr1 p0 p1 p2) := rfl

theorem gmctrp1 (ps : List Byte) : Statement (.gmctrp1 ps) := rfl

theorem gmctrn1 (ps : List Byte) : Statement (.gmctrn1 ps) := rfl

end Sys2Proof.Laws.Opcode
end

