-- ==== Sys2Proof/Laws/Procedures.lean ====
section
/-! SUPPORT. Laws/Procedures.lean: what each procedure of the rules does when every one of its primitive steps is
taken (`runAll`), said once: the command, the window, a stretch of data bytes, a rectangle, a list of rectangles. -/

namespace Sys2Proof.Laws

open Sys2Proof.Machine

/-- `SendCommand(code)` under the lock (R145). -/
theorem runAll_sendCommand (op : Instr) (code : Byte) (s : State) (hh : s.holder = .cons 0) :
    runAll (stepsOf op (sendCommandActs code)) s =
      some { s with dc := .data, wt := s.wt ++ commandEvents s.cs code } := by
  simp [stepsOf, sendCommandActs, runAll, runAct, underLock, hh, setDc, emitByte, emit, commandEvents]

/-- `WriteByte` of each byte of a list, in data mode under the lock (R144). -/
theorem runAll_writeBytes (op : Instr) (bs : List Byte) (s : State) (hh : s.holder = .cons 0) (hd : s.dc = .data) :
    runAll (stepsOf op (bs.map .writeByte)) s = some { s with wt := s.wt ++ dataEvents s.cs bs } := by
  induction bs generalizing s with
  | nil => simp [stepsOf, dataEvents]
  | cons b bs ih =>
    have h0 : runAct op (.writeByte b) s = .ok (emitByte b s) := by simp [runAct, underLock, hh]
    have h := ih (emitByte b s) hh hd
    rw [stepsOf] at h
    rw [List.map_cons, stepsOf, List.map_cons, runAll_cons_ok _ _ s _ h0, h]
    simp [emitByte, emit, dataEvents, hd]

/-- One address-window frame under the lock (R91). -/
theorem runAll_window (op : Instr) (code : Byte) (start size : Nat) (s : State) (hh : s.holder = .cons 0) :
    runAll (stepsOf op (windowActs code start size)) s =
      some { s with
        dc := .data,
        wt := s.wt ++ commandEvents s.cs code ++
          dataEvents s.cs [0, BitVec.ofNat 8 start, 0, BitVec.ofNat 8 (start + size - 1)] } := by
  have h := runAll_writeBytes op [0, lowByte start, 0, lowByte (start + size - 1)]
    { s with dc := .data, wt := s.wt ++ commandEvents s.cs code } hh rfl
  simp only [stepsOf, List.map_cons, List.map_nil] at h
  rw [windowActs, stepsOf, List.map_append, runAll_append, ← stepsOf, runAll_sendCommand op code s hh]
  simp only [Option.bind_some, List.map_cons, List.map_nil]
  rw [h]
  rfl

/-- `SetWriteRegion` of a region inside the panel, under the lock (R146). -/
theorem runAll_setWriteRegion (op : Instr) (r : Region) (s : State) (hh : s.holder = .cons 0)
    (hp : inPanel s.cfg r = true) :
    runAll (stepsOf op (setWriteRegionActs r)) s =
      some { s with dc := .data, wt := s.wt ++ windowEvents s.cs r } := by
  have h0 : runAct op (.requireRegion r.x r.y r.w r.h) s = .ok s := by simp [runAct, hh, hp]
  rw [setWriteRegionActs, stepsOf, List.map_cons, runAll_cons_ok _ _ s s h0, List.map_append, List.map_append,
    runAll_append, runAll_append, ← stepsOf, ← stepsOf, ← stepsOf, runAll_window op 0x2A r.x r.w s hh,
    Option.bind_some, runAll_window _ _ _ _ _ (by exact hh), Option.bind_some,
    runAll_sendCommand _ _ _ (by exact hh)]
  simp [windowEvents]

/-- A draw call (R198): from a free lock, a region that is not empty and lies in the panel. -/
theorem runAll_fillRect (op : Instr) (r : Region) (c : Color12) (s : State) (hl : s.lock = false)
    (hn : nonEmpty r = true) (hp : inPanel s.cfg r = true) :
    runAll (stepsOf op (fillRectActs r c)) s =
      some { s with
        lock := false, holder := .none, cs := .deselected, dc := .data,
        wt := s.wt ++ displayEvents r (fillBytes c (r.w * r.h)) } := by
  have hz : ¬(r.w = 0 ∨ r.h = 0) := by simpa [nonEmpty] using hn
  have h1 : runAll (stepsOf op [.acquire, .csSelect]) s = some (setCs .selected (takeLock (.cons 0) s)) := by
    simp [stepsOf, runAll, runAct, hl, underLock]
  simp only [fillRectActs, hz, if_false, stepsOf, List.map_append, runAll_append] at *
  rw [h1, Option.bind_some]
  have h2 := runAll_setWriteRegion op r (setCs .selected (takeLock (.cons 0) s)) rfl hp
  simp only [stepsOf] at h2
  rw [h2, Option.bind_some]
  have h3 := runAll_writeBytes op (fillBytes c (r.w * r.h))
    { setCs .selected (takeLock (.cons 0) s) with
      dc := .data, wt := (setCs .selected (takeLock (.cons 0) s)).wt ++
        windowEvents (setCs .selected (takeLock (.cons 0) s)).cs r } rfl rfl
  simp only [stepsOf] at h3
  rw [h3, Option.bind_some]
  simp [runAll, runAct, underLock, setCs, takeLock, freeLock, emit, displayEvents]

/-- An empty region makes no draw call (R198). -/
theorem fillRectActs_empty (r : Region) (c : Color12) (h : nonEmpty r = false) : fillRectActs r c = [] := by
  have hz : r.w = 0 ∨ r.h = 0 := by
    by_contra hc
    simp [nonEmpty] at h
    exact hc (by omega)
  simp [fillRectActs, hz]

/-- Draw calls one after the other put their events one after the other. -/
theorem afterDraws_afterDraws (es fs : List Event) (s : State) :
    afterDraws fs (afterDraws es s) = afterDraws (es ++ fs) s := by
  by_cases he : es = [] <;> by_cases hf : fs = [] <;> simp [afterDraws, he, hf]

/-- `FillRect` of each region in turn (R226 to R228, R254): the regions that are not empty lie in the panel. -/
theorem runAll_fillAll (op : Instr) (rs : List Region) (c : Color12) (s : State) (hl : s.lock = false)
    (hp : ∀ r ∈ rs, nonEmpty r = true → inPanel s.cfg r = true) :
    runAll (stepsOf op (fillAllActs rs c)) s = some (afterDraws (drawEvents rs c) s) := by
  induction rs generalizing s with
  | nil => simp [fillAllActs, stepsOf, drawEvents, afterDraws]
  | cons r rs ih =>
    have hrs : ∀ q ∈ rs, nonEmpty q = true → inPanel s.cfg q = true :=
      fun q hq => hp q (List.mem_cons_of_mem r hq)
    simp only [fillAllActs, List.flatMap_cons, stepsOf, List.map_append, runAll_append] at *
    by_cases hn : nonEmpty r = true
    · have h1 := runAll_fillRect op r c s hl hn (hp r List.mem_cons_self hn)
      simp only [stepsOf] at h1
      rw [h1, Option.bind_some, ih { s with
        lock := false, holder := .none, cs := .deselected, dc := .data,
        wt := s.wt ++ displayEvents r (fillBytes c (r.w * r.h)) } rfl hrs]
      simp [afterDraws, drawEvents, hn, displayEvents]
    · have hf : nonEmpty r = false := by simpa using hn
      simp [fillRectActs_empty r c hf, ih s hl hrs, drawEvents, hf]

/-- The lock is free after draw calls that started from a free lock. -/
theorem afterDraws_lock (es : List Event) (s : State) (hl : s.lock = false) : (afterDraws es s).lock = false := by
  unfold afterDraws
  split <;> simp [hl]

/-- Draw calls do not change the parameters. -/
@[simp] theorem afterDraws_cfg (es : List Event) (s : State) : (afterDraws es s).cfg = s.cfg := by
  unfold afterDraws
  split <;> rfl

/-- What the host sees of a trace, one stretch after the other. -/
@[simp] theorem hostEvents_append (es fs : List Event) : hostEvents (es ++ fs) = hostEvents es ++ hostEvents fs := by
  simp [hostEvents]

/-- The bytes of another consumer are not the host's. -/
@[simp] theorem hostEvents_other (k : Nat) (cs : CsLine) (dc : DcLine) (b : Byte) :
    hostEvents [.other k cs dc b] = [] := rfl

end Sys2Proof.Laws
end

