-- ==== Sys2Proof/Laws/Step.lean ====
section
/-! SUPPORT. Laws/Step.lean: everything one step of the machine can do. -/

namespace Sys2Proof.Laws

open Sys2Proof.Machine

/-- Everything the host's turn can do when it answers a next state: it does nothing at the end of its program, goes on
with the operation in progress, or presents the next one. -/
theorem hostStep_next_cases (s t : State) (h : hostStep s = .next t) :
    (s.busy = [] ∧ fetch s = none ∧ t = s) ∨
    (s.busy ≠ [] ∧ runSteps s.busy s = .next t) ∨
    (∃ item i, s.busy = [] ∧ fetch s = some item ∧ decode item = .ok i ∧ exec i s = .next t) := by
  unfold hostStep at h
  split at h
  · rename_i hb
    split at h
    · rename_i item hf
      unfold present at h
      split at h
      · exact .inr (.inr ⟨item, _, hb, hf, ‹_›, h⟩)
      · cases h
    · exact .inl ⟨hb, ‹_›, by simpa using h.symm⟩
  · rename_i p ps hb
    exact .inr (.inl ⟨by simp [hb], by rw [hb]; exact h⟩)

/-- Everything a step can do when it answers a next state: the parameters are admitted, and either the script names
the agent, or it is empty and the agent is the host, the completion handler or the DMA channel. -/
theorem step_next_cases (s t : State) (h : step s = .next t) :
    configOk s.cfg = true ∧
    ((∃ a ts, s.turns = a :: ts ∧ turnStep a { s with turns := ts } = .next t) ∨
     (s.turns = [] ∧ hostCanStep s = true ∧ hostStep s = .next t) ∨
     (s.turns = [] ∧ hostCanStep s = false ∧ irqEnabled s = true ∧ dmaIrq s = .next t) ∨
     (s.turns = [] ∧ hostCanStep s = false ∧ irqEnabled s = false ∧ dmaBeat s = .next t)) := by
  unfold step machineStep at h
  split at h
  · rename_i hc
    refine ⟨hc, ?_⟩
    split at h
    · rename_i ht
      unfold freeStep at h
      split at h
      · exact .inr (.inl ⟨ht, ‹_›, h⟩)
      · split at h
        · exact .inr (.inr (.inl ⟨ht, by simp_all, ‹_›, h⟩))
        · exact .inr (.inr (.inr ⟨ht, by simp_all, by simp_all, h⟩))
    · exact .inl ⟨_, _, ‹_›, h⟩
  · cases h

/-- Everything a turn of the script can do when it answers a next state. -/
theorem turnStep_next_cases (a : Turn) (s t : State) (h : turnStep a s = .next t) :
    (a = .host ∧ hostStep s = .next t) ∨ (a = .dmaBeat ∧ dmaBeat s = .next t) ∨ (a = .dmaIrq ∧ dmaIrq s = .next t) ∨
    (∃ k, a = .oAcquire k ∧ t = otherAcquire k s) ∨ (∃ k b, a = .oByte k b ∧ t = otherByte k b s) ∨
    (∃ k, a = .oRelease k ∧ t = otherRelease k s) ∨ (∃ p b, a = .hostStore p b ∧ t = hostStore p b s) := by
  cases a <;> simp_all [turnStep, eq_comm]

/-- No steps. -/
@[simp] theorem runMachine_zero (s : State) : runMachine 0 s = .next s := rfl

/-- The first step, and the others after it. -/
theorem runMachine_succ (n : Nat) (s t : State) (h : step s = .next t) : runMachine (n + 1) s = runMachine n t := by
  simp [runMachine, Host.Core.run, core, h]

/-- With a script, the turn it names first. -/
theorem step_turn (s : State) (a : Turn) (ts : List Turn) (hc : configOk s.cfg = true) (ht : s.turns = a :: ts) :
    step s = turnStep a { s with turns := ts } := by
  simp [step, machineStep, hc, ht]

/-- With no turn left, the default order. -/
theorem step_free (s : State) (hc : configOk s.cfg = true) (ht : s.turns = []) : step s = freeStep s := by
  simp [step, machineStep, hc, ht]

end Sys2Proof.Laws
end

