-- ==== Sys2Proof/Machine/Listing.lean ====
section
/-! DEFINITION. Machine/Listing.lean: host listings the spec gives a name: the pseudo-operation `PIXPAIR` (R87) and
the boot program (R333). They are lists of operations; the block sees each operation by itself. -/

namespace Sys2Proof.Machine

/-- `PIXPAIR a, b`: the three `WRITE_BYTE`s of `packPair(a, b)` (R87). -/
def pixPair (a b : Color12) : List Instr :=
  (packPair a b).map .writeByte

/-- The host's values of R333 that the source does not give: panel parameters (U15), colours, LED levels and the
first frame. -/
structure BootValues where
  frmctr1 : Byte × Byte × Byte
  madctl : Byte
  colmod : Byte
  gammaP : List Byte
  gammaN : List Byte
  pixel : Half
  bg : Half
  line : Half
  fill : Half
  red : Byte
  green : Byte
  blue : Byte
  frame : Addr
  clr : Bool
deriving DecidableEq, Repr

/-- Step 1 of R333: the pulse on the panel's reset line. -/
def bootReset : List Instr := [.rstRelease, .rstAssert, .rstRelease]

/-- Step 2 of R333: panel bring-up, one critical section. -/
def bootPanel (v : BootValues) : List Instr :=
  [.acquire, .csSelect, .swreset, .slpout, .frmctr1 v.frmctr1.1 v.frmctr1.2.1 v.frmctr1.2.2, .madctl v.madctl,
   .colmod v.colmod, .gmctrp1 v.gammaP, .gmctrn1 v.gammaN, .dispon, .csDeselect, .release]

/-- Step 3 of R333: the state whose reset value is open. -/
def bootState (c : Config) (v : BootValues) : List Instr :=
  [.setPixelColor v.pixel, .setBgColor v.bg, .setBorderLineColor v.line, .setBorderFillColor v.fill] ++
    (if c.ledPresent then [.ledSetAll v.red v.green v.blue] else [])

/-- The boot program (R333), to the first frame. -/
def bootProgram (c : Config) (v : BootValues) : List Instr :=
  bootReset ++ bootPanel v ++ bootState c v ++ [.drawBorder, .paint v.frame v.clr]

end Sys2Proof.Machine
end

