-- ==== Sys2Proof/Tests/Slice0.lean ====
section
/-! SUPPORT. Tests/Slice0.lean: words written out from spec/30_encoding.md and spec/95_test_vectors.md, the checks of
WellFormed, one step of each operation on the vectors of spec/95_test_vectors.md (named in each comment), and for each
statement with hypotheses a state and operands that meet them. -/

namespace Sys2Proof.Tests

open Sys2Proof.Machine

/-! ### Helpers -/

/-- The next state of an outcome, if it is one. -/
def next? (o : Outcome) : Option State :=
  match o with
  | .next t => some t
  | _ => none

/-- The code of the fault of an outcome (R301), if it is one. -/
def fault? (o : Outcome) : Option Nat :=
  match o with
  | .fault f => some (faultCode f)
  | _ => none

/-- The reason of a refusal, if the outcome is one. -/
def refusal? (o : Outcome) : Option Refusal :=
  match o with
  | .refused r => some r
  | _ => none

/-- The instruction a line decodes to, or why it is refused. -/
def reads (item : Item) (r : Except Reject Instr) : Bool :=
  match decode item, r with
  | .ok i, .ok j => decide (i = j)
  | .error e, .error e' => decide (e = e')
  | _, _ => false

/-- The events a listing of the spec shows: all but those of the `DC` line. -/
def listed (es : List Event) : List Event :=
  es.filter fun e =>
    match e with
    | .dc _ => false
    | _ => true

/-- `C:b` of a listing. -/
def cb (b : Byte) : Event := .byte .selected .command b

/-- `D:b` of a listing. -/
def db (b : Byte) : Event := .byte .selected .data b

/-- `n` steps of a program of operation words, from the state `s`. -/
def runWords (n : Nat) (ws : List OpWord) (s : State) : Outcome :=
  runMachine n { s with prog := ws.map .word }

/-- What the trace lists after `n` steps. -/
def trace? (o : Outcome) : Option (List Event) :=
  (next? o).map fun t => listed t.wt

/-- Configuration T1 of 95_test_vectors.md Part 2. -/
def t1 : Config := Config.reference

/-- Configuration T2 of 95_test_vectors.md Part 2. -/
def t2 : Config :=
  { t1 with
    transport := .dma, panelW := 16, panelH := 24, srcW := 4, srcH := 8, dstW := 8, dstH := 16, gap := true,
    ledPresent := true, ledH := 2, streamBase := 0x20001000, nOther := 0 }

/-- The smallest synchronous configuration: 1 by 8 pixels on a 3 by 10 panel. -/
def tiny : Config :=
  { t1 with panelW := 3, panelH := 10, srcW := 1, srcH := 8, dstW := 1, dstH := 8 }

/-- A small configuration with the DMA transport, a gap, an LED strip and two other consumers. -/
def small : Config :=
  { tiny with
    transport := .dma, panelW := 6, panelH := 14, dstW := 2, gap := true, ledPresent := true, ledH := 1,
    streamBase := 0x100, nOther := 2 }

/-- Reset. -/
def fresh (c : Config) : State := State.resetWith c

/-- The host holds the lock and has selected the panel. -/
def held (c : Config) : State :=
  { State.resetWith c with lock := true, holder := .cons 0, cs := .selected }

/-- A transfer of the two bytes at `0x20` in flight. -/
def flying (c : Config) : State :=
  { State.resetWith c with
    lock := true, holder := .dma, cs := .selected, dstate := .inFlight, chEn := true, irqEn := true,
    td := ⟨0x20, 2, c.spiDrAddr, true⟩, mem := [(0x20, 0x11), (0x21, 0x22)] }

/-- The same transfer after its last beat. -/
def landed (c : Config) : State :=
  { flying c with td := ⟨0x22, 0, c.spiDrAddr, true⟩, irqPend := true }

/-- `n` allocated bytes of 0 at `lo`. -/
def zeros (lo n : Nat) : Memory := (List.range n).map fun i => (lo + i, 0)

/-- The parameters, colours and levels the border vectors of 95_test_vectors.md 3.5 and P5 start from. -/
def dressed (c : Config) (drawn : Bool) : State :=
  { State.resetWith c with theme := ⟨0xFFF, 0, 0xF00, 0x00F⟩, led := ⟨255, 128, 17⟩, borderDrawn := drawn }

/-! ### Decoding: every constructor from a word of 95_test_vectors.md 3.8 or a frame of 3.7 -/

theorem test_decode_bus :
    reads (.word 0x0000000000000001) (.ok .acquire) ∧ reads (.word 0x0000000000000002) (.ok .release) ∧
    reads (.word 0x0000000000000003) (.ok .cmdMode) ∧ reads (.word 0x0000000000000004) (.ok .dataMode) ∧
    reads (.word 0x000000000000A505) (.ok (.writeByte 0xA5)) ∧
    reads (.word 0x0000000000002C06) (.ok (.sendCommand 0x2C)) ∧
    reads (.word 0x0000080008020207) (.ok (.setWriteRegion 2 2 8 8)) ∧
    reads (.word 0x0000400080201007) (.ok (.setWriteRegion 16 32 128 64)) ∧
    reads (.word 0x0000000000000008) (.ok .csSelect) ∧ reads (.word 0x0000000000000009) (.ok .csDeselect) ∧
    reads (.word 0x000000000000000A) (.ok .rstAssert) ∧ reads (.word 0x000000000000000B) (.ok .rstRelease) := by
  decide +kernel

theorem test_decode_dma :
    reads (.word 0x200010000000C010) (.ok (.startTransfer 0x20001000 192)) ∧
    reads (.word 0xFFFFFFFFFFFFFF10) (.ok (.startTransfer 0xFFFFFFFF 0xFFFFFF)) := by decide +kernel

theorem test_decode_colour :
    reads (.word 0x00000000000FFF20) (.ok (.setPixelColor 0xFFF)) ∧
    reads (.word 0x00000000001F8020) (.ok (.setPixelColor 0x1F80)) ∧
    reads (.word 0x0000000000022221) (.ok (.setBgColor 0x222)) ∧
    reads (.word 0x00000000000F0022) (.ok (.setBorderLineColor 0xF00)) ∧
    reads (.word 0x0000000000000F23) (.ok (.setBorderFillColor 0x00F)) ∧
    reads (.word 0x0000000000000124) (.ok (.invert true)) ∧ reads (.word 0x0000000000000024) (.ok (.invert false)) := by
  decide +kernel

theorem test_decode_frame_border :
    reads (.word 0x0000010000000130) (.ok (.paint 0x100 true)) ∧
    reads (.word 0x2000000000000030) (.ok (.paint 0x20000000 false)) ∧
    reads (.word 0x0000000000000031) (.ok .drawBorder) := by decide +kernel

theorem test_decode_led :
    reads (.word 0x0000000000800140) (.ok (.ledSetChannel 1 128)) ∧
    reads (.word 0x000000001180FF41) (.ok (.ledSetAll 255 128 17)) ∧
    reads (.word 0x0000000000010242) (.ok (.ledSetDigital 2 true)) ∧
    reads (.word 0x0000000000000043) (.ok .ledRender) ∧ reads (.word 0x0000000000000144) (.ok (.setOrient true)) := by
  decide +kernel

theorem test_decode_panel :
    reads (.frame [0x01]) (.ok .swreset) ∧ reads (.frame [0x10]) (.ok .slpin) ∧ reads (.frame [0x11]) (.ok .slpout) ∧
    reads (.frame [0x20]) (.ok .invoff) ∧ reads (.frame [0x21]) (.ok .invon) ∧
    reads (.frame [0x28]) (.ok .dispoff) ∧ reads (.frame [0x29]) (.ok .dispon) ∧
    reads (.frame [0x2A, 0, 4, 0, 11]) (.ok (.caset 4 11)) ∧ reads (.frame [0x2B, 0, 2, 0, 9]) (.ok (.raset 2 9)) ∧
    reads (.frame [0x2C]) (.ok .ramwr) ∧ reads (.frame [0x36, 0xA0]) (.ok (.madctl 0xA0)) ∧
    reads (.frame [0x3A, 0x03]) (.ok (.colmod 0x03)) ∧
    reads (.frame [0xB1, 0xA1, 0xA2, 0xA3]) (.ok (.frmctr1 0xA1 0xA2 0xA3)) ∧
    reads (.frame (0xE0 :: List.replicate 16 0x10)) (.ok (.gmctrp1 (List.replicate 16 0x10))) ∧
    reads (.frame (0xE1 :: List.replicate 16 0x20)) (.ok (.gmctrn1 (List.replicate 16 0x20))) := by decide +kernel

/-- The refused words of 95_test_vectors.md 3.8. -/
theorem test_refused_words :
    reads (.word 0x0000000000000000) (.error .undefinedOpcode) ∧
    reads (.word 0x000000000000000C) (.error .undefinedOpcode) ∧
    reads (.word 0x0000000000000011) (.error .undefinedOpcode) ∧
    reads (.word 0x00000000000000FF) (.error .undefinedOpcode) ∧
    reads (.word 0x0000000000000101) (.error .reservedBit) ∧ reads (.word 0x000000000001A505) (.error .reservedBit) ∧
    reads (.word 0x0000000001000F23) (.error .reservedBit) ∧ reads (.word 0x0000000000000324) (.error .reservedBit) ∧
    reads (.word 0x0100080008020207) (.error .reservedBit) ∧ reads (.word 0x0000010000000330) (.error .reservedBit) ∧
    reads (.word 0x0000000000800340) (.error .reservedChannel) ∧
    reads (.word 0x0000000000010342) (.error .reservedChannel) ∧
    reads (.word 0x0000000000020242) (.error .reservedBit) ∧ reads (.word 0x000000011180FF41) (.error .reservedBit) := by
  decide +kernel

/-- Frames R90, R91 and R270 do not admit. -/
theorem test_refused_frames :
    reads (.frame []) (.error .frameLength) ∧ reads (.frame [0x02]) (.error .undefinedCommand) ∧
    reads (.frame [0x01, 0]) (.error .frameLength) ∧ reads (.frame [0x36]) (.error .frameLength) ∧
    reads (.frame [0x2A, 1, 4, 0, 11]) (.error .windowHighByte) ∧
    reads (.frame [0x2B, 0, 4, 1, 11]) (.error .windowHighByte) ∧
    reads (.frame (0xE0 :: List.replicate 15 0)) (.error .frameLength) := by decide +kernel

/-- WellFormed refuses the reserved channel and a gamma table of another length, and admits the ones beside them. -/
theorem test_wellFormed :
    (Instr.ledSetChannel 3 0).wellFormed = false ∧ (Instr.ledSetDigital 3 true).wellFormed = false ∧
    (Instr.gmctrp1 (List.replicate 15 0)).wellFormed = false ∧ (Instr.gmctrn1 (List.replicate 17 0)).wellFormed = false ∧
    (Instr.ledSetChannel 2 0).wellFormed = true ∧ (Instr.ledSetDigital 2 true).wellFormed = true ∧
    (Instr.gmctrp1 (List.replicate 16 0)).wellFormed = true ∧ (Instr.gmctrn1 (List.replicate 16 0)).wellFormed = true := by
  decide

/-- A table row of 8 bits is the wire command, also where a host operation has the same code (R270, R83). -/
theorem test_table_words :
    decodeTableWord 8 0x10 = some .slpin ∧ decodeTableWord 64 0x0000300000000310 = some (.startTransfer 0x3000 3) ∧
    decodeTableWord 8 0xB1 = some (.frmctr1 0 0 0) ∧ decodeTableWord 64 0x340 = none := by decide +kernel

/-! ### TransportBus (95_test_vectors.md 3.2) -/

theorem test_acquire :
    (next? (exec .acquire (fresh t1))).map (fun t => (t.lock, t.holder, t.wt, t.opi)) = some (true, .cons 0, [], 1) := by
  decide +kernel

/-- Table A: blocked by consumer 1, then as row 1 after `ORelease(1)`. -/
theorem test_acquire_waits :
    (next? (runWords 3 [0x01]
      { fresh t1 with lock := true, holder := .cons 1, turns := [.host, .oRelease 1, .host] })).map
      (fun t => (t.lock, t.holder, t.opi)) = some (true, .cons 0, 1) ∧
    (next? (runWords 1 [0x01] { fresh t1 with lock := true, holder := .cons 1, turns := [.host] })).map
      (fun t => (t.holder, t.opi)) = some (.cons 1, 0) := by decide +kernel

theorem test_release :
    (next? (exec .release (held t1))).map (fun t => (t.lock, t.holder, t.cs, t.wt)) =
      some (false, .none, .selected, []) := by decide +kernel

theorem test_release_faults :
    fault? (exec .release (fresh t1)) = some 2 ∧ fault? (exec .release (flying t1)) = some 2 := by decide +kernel

theorem test_lines :
    (next? (exec .cmdMode { held t1 with dc := .command })).map (fun t => (t.dc, t.wt)) =
      some (.command, [.dc .command]) ∧
    (next? (exec .dataMode { held t1 with dc := .command })).map (fun t => (t.dc, t.wt)) = some (.data, [.dc .data]) ∧
    (next? (exec .csSelect { held t1 with cs := .deselected })).map (fun t => (t.cs, t.wt)) =
      some (.selected, [.cs .selected]) ∧
    (next? (exec .csDeselect (held t1))).map (fun t => (t.cs, t.wt)) = some (.deselected, [.cs .deselected]) := by
  decide +kernel

theorem test_reset_line :
    (next? (exec .rstAssert (flying t1))).map (fun t => (t.rst, t.wt)) = some (.asserted, [.rst .asserted]) ∧
    (next? (exec .rstRelease (fresh t1))).map (fun t => (t.rst, t.wt)) = some (.released, [.rst .released]) := by
  decide +kernel

theorem test_write_byte :
    (next? (exec (.writeByte 5) { held t1 with cs := .deselected })).map (·.wt) =
      some [.byte .deselected .data 5] ∧
    (next? (exec (.writeByte 5) { held t1 with dc := .command })).map (·.wt) = some [cb 5] := by decide +kernel

theorem test_send_command :
    (next? (exec (.sendCommand 0xFF) { held t1 with dc := .command })).map (fun t => (t.dc, t.wt)) =
      some (.data, [.dc .command, cb 0xFF, .dc .data]) := by decide +kernel

/-- Table W, its first row with the `DC` events. -/
theorem test_set_write_region :
    (next? (exec (.setWriteRegion 2 2 8 8) (held t1))).map (·.wt) =
      some [.dc .command, cb 0x2A, .dc .data, db 0, db 2, db 0, db 9, .dc .command, cb 0x2B, .dc .data, db 0, db 2,
        db 0, db 9, .dc .command, cb 0x2C, .dc .data] := by decide +kernel

/-- Table W, the whole of a 256 by 256 panel, the last pixel, and the faults. -/
theorem test_set_write_region_edges :
    trace? (exec (.setWriteRegion 0 0 256 256) (held { t1 with panelW := 256, panelH := 256 })) =
      some [cb 0x2A, db 0, db 0, db 0, db 0xFF, cb 0x2B, db 0, db 0, db 0, db 0xFF, cb 0x2C] ∧
    trace? (exec (.setWriteRegion 11 11 1 1) (held t1)) =
      some [cb 0x2A, db 0, db 0x0B, db 0, db 0x0B, cb 0x2B, db 0, db 0x0B, db 0, db 0x0B, cb 0x2C] ∧
    fault? (exec (.setWriteRegion 0 0 13 1) (held t1)) = some 3 ∧
    fault? (exec (.setWriteRegion 0 11 12 2) (held t1)) = some 3 ∧
    fault? (exec (.setWriteRegion 0 0 0 1) (held t1)) = some 3 ∧
    fault? (exec (.setWriteRegion 0 0 13 1) (fresh t1)) = some 1 := by decide +kernel

/-- P6: consumer 1's byte stands before the host's critical section, never inside it. -/
theorem test_two_consumers :
    (next? (runMachine 9 { fresh t1 with
      prog := [.word 0x01, .word 0x08, .word 0x2906, .word 0x09, .word 0x02],
      turns := [.oAcquire 1, .host, .oByte 1 0x9F, .oRelease 1] })).map (fun t => (listed t.wt, t.lock, t.opi)) =
      some ([.other 1 .deselected .data 0x9F, .cs .selected, cb 0x29, .cs .deselected], false, 5) := by
  decide +kernel

/-! ### DmaChannel (3.3) -/

theorem test_start_transfer :
    (next? (exec (.startTransfer 0x3000 3) (held t1))).map (fun t => (t.td, t.irqEn, t.chEn)) =
      some (⟨0x3000, 3, 0, true⟩, true, true) ∧
    (next? (exec (.startTransfer 0x3000 3) (held t1))).map (fun t => (t.dstate, t.holder, t.lock, t.wt)) =
      some (.inFlight, .dma, true, []) := by decide +kernel

theorem test_start_transfer_faults :
    fault? (exec (.startTransfer 0x3000 0) (held t1)) = some 5 ∧
    fault? (exec (.startTransfer 0x3000 3) (flying t1)) = some 1 ∧
    fault? (exec (.startTransfer 0x3000 3) { held t1 with chEn := true }) = some 4 := by decide +kernel

/-- Table D: one beat, then the last one, then the handler. -/
theorem test_beats_and_handler :
    (next? (step (flying t1))).map (fun t => (t.wt, t.td, t.irqPend)) =
      some ([db 0x11], ⟨0x21, 1, 0, true⟩, false) ∧
    (next? (runMachine 2 (flying t1))).map (fun t => (t.wt, t.td, t.irqPend)) =
      some ([db 0x11, db 0x22], ⟨0x22, 0, 0, true⟩, true) ∧
    (next? (step (landed t1))).map (fun t => (t.wt, t.chEn, t.cs, t.lock)) =
      some ([.cs .deselected], false, .deselected, false) ∧
    (next? (step (landed t1))).map (fun t => (t.holder, t.irqPend, t.dstate, t.irqEn)) =
      some (.none, false, .idle, true) := by decide +kernel

/-- Table D: the byte at `2^32 - 1` goes out, and the second beat faults. -/
theorem test_beat_past_the_end :
    (next? (runMachine 2 { held t1 with
      mem := [(0xFFFFFFFF, 0x77)], prog := [.word 0xFFFFFFFF00000210] })).map (·.wt) = some [db 0x77] ∧
    fault? (runMachine 3 { held t1 with
      mem := [(0xFFFFFFFF, 0x77)], prog := [.word 0xFFFFFFFF00000210] }) = some 6 := by decide +kernel

/-! ### ColorModel (3.1) -/

/-- Tables K and P. -/
theorem test_packing :
    pack12 0x1F 0x2E 0x3D = 0xFED ∧ pack12 255 255 255 = 0xFFF ∧ unpack12 0xF0A = (15, 0, 10) ∧
    packPair 0xFFF 0x000 = [0xFF, 0xF0, 0x00] ∧ packPair 0x001 0x800 = [0x00, 0x18, 0x00] ∧
    packPair 0xABC 0x123 = [0xAB, 0xC1, 0x23] ∧ unpackPair 0x12 0x34 0x56 = (0x123, 0x456) := by decide +kernel

/-- Table C: what the setters store. -/
theorem test_setters_store :
    (next? (exec (.setPixelColor 0x1F80) (dressed t2 true))).map (fun t => (t.theme.pixel, t.wt)) = some (0xF80, []) ∧
    (next? (exec (.setBgColor 0x222) (dressed t1 true))).map (fun t => (t.theme.bg, t.wt)) = some (0x222, []) ∧
    (next? (exec (.setBorderLineColor 0x0FF) (dressed t2 false))).map (fun t => (t.theme.bline, t.wt)) =
      some (0x0FF, []) ∧
    (next? (exec (.setBorderFillColor 0x0F0) (dressed t2 false))).map (fun t => (t.theme.bfill, t.wt)) =
      some (0x0F0, []) := by decide +kernel

/-- Table C and P5: how many events the redraws list. -/
theorem test_setters_redraw :
    (trace? (exec (.setBgColor 0x222) (dressed t2 true))).map (·.length) = some 136 ∧
    (trace? (exec (.setBorderLineColor 0xF00) (dressed t1 true))).map (·.length) = some 112 ∧
    (trace? (exec (.setBorderFillColor 0x0F0) (dressed t2 true))).map (·.length) = some 329 := by decide +kernel

theorem test_invert :
    (next? (exec (.invert true) (dressed t2 false))).map (fun t => (t.theme, t.inverted, t.wt)) =
      some (⟨0, 0xFFF, 0xF00, 0x00F⟩, true, []) ∧
    (next? (exec (.invert false) (dressed t2 true))).map (fun t => (t.theme, t.inverted, t.wt)) =
      some (⟨0xFFF, 0, 0xF00, 0x00F⟩, false, []) := by decide +kernel

/-- P5: the first `INVERT 1` redraws the gap in `FFF`; here the 40 listed events of `G_LEFT`, the third call. -/
theorem test_invert_redraws :
    (trace? (exec (.invert true) (dressed t2 true))).map (fun es => (es.length, (es.drop 56).take 40)) =
      some (136, [.cs .selected, cb 0x2A, db 0, db 3, db 0, db 3, cb 0x2B, db 0, db 3, db 0, db 0x14, cb 0x2C] ++
        List.replicate 27 (db 0xFF) ++ [.cs .deselected]) := by decide +kernel

/-! ### FrameCompositor (3.4) and its programs -/

/-- Tables S and R. -/
theorem test_scaling_and_stream :
    (List.range 12).map (fun d => scaleIndex d 64 96) = [0, 0, 1, 2, 2, 3, 4, 4, 5, 6, 6, 7] ∧
    (List.range 8).map (fun d => scaleIndex d 3 8) = [0, 0, 0, 1, 1, 1, 2, 2] ∧
    scaleIndex 255 1 256 = 0 ∧ scaleIndex 255 256 256 = 255 ∧ scaleIndex 159 128 160 = 127 ∧
    streamBytes [0xFFF, 0, 0, 0xFFF] = [0xFF, 0xF0, 0, 0, 0x0F, 0xFF] ∧
    streamBytes [0x00F, 0x00F, 0x00F] = [0x00, 0xF0, 0x0F, 0x00, 0xF0, 0x0F] := by decide +kernel

/-- P2: the first two rows of the diagonal, the count of listed events, and the cleared buffer. -/
theorem test_paint_sync :
    (next? (exec (.paint 0x100 true) { fresh t1 with
      theme := ⟨0xFFF, 0, 0, 0⟩,
      mem := [(0x100, 1), (0x101, 2), (0x102, 4), (0x103, 8), (0x104, 16), (0x105, 32), (0x106, 64),
        (0x107, 128)] })).map
      (fun t => ((listed t.wt).length, ((listed t.wt).drop 12).take 24, t.mem, t.lock)) =
      some (109,
        [db 0xFF, db 0xF0, db 0, db 0, db 0, db 0, db 0, db 0, db 0, db 0, db 0, db 0,
         db 0, db 0x0F, db 0xFF, db 0, db 0, db 0, db 0, db 0, db 0, db 0, db 0, db 0],
        zeros 0x100 8, false) := by decide +kernel

/-- R7 c4, R199: a PixelBuffer over the stream buffer is refused, in both transports. -/
theorem test_paint_overlap :
    refusal? (exec (.paint 0x100 true) (fresh small)) = some .bufferOverlap ∧
    refusal? (exec (.paint 0x200010BF false) (fresh t2)) = some .bufferOverlap ∧
    refusal? (exec (.paint 0x20001000 false) (fresh t1)) = some .bufferOverlap := by decide +kernel

/-- P4, step 1: the state when the operation returns, and the first row of the stream buffer. -/
theorem test_paint_dma :
    (next? (exec (.paint 0x20000000 true) { fresh t2 with
      theme := ⟨0xABC, 0x123, 0, 0⟩,
      mem := [(0x20000000, 0xFF), (0x20000001, 0), (0x20000002, 0x0F), (0x20000003, 0x81)] ++
        zeros 0x20001000 192 })).map
      (fun t => (t.td, t.holder, t.dstate, t.mem.take 16)) =
      some (⟨0x20001000, 192, 0, true⟩, .dma, .inFlight,
        zeros 0x20000000 4 ++
        [(0x20001000, 0xAB), (0x20001001, 0xCA), (0x20001002, 0xBC), (0x20001003, 0x12), (0x20001004, 0x31),
         (0x20001005, 0x23), (0x20001006, 0xAB), (0x20001007, 0xCA), (0x20001008, 0xBC), (0x20001009, 0xAB),
         (0x2000100A, 0xCA), (0x2000100B, 0xBC)]) := by decide +kernel

/-! ### BorderRenderer and LedBar (3.5, 3.6) -/

/-- 3.5: eight draw calls on T1, 230 listed events; thirteen on T2, 613. -/
theorem test_draw_border :
    (next? (exec .drawBorder (dressed t1 false))).map (fun t => ((listed t.wt).length, t.borderDrawn, t.lock)) =
      some (230, true, false) ∧
    (next? (exec .drawBorder (dressed t2 false))).map (fun t => ((listed t.wt).length, t.borderDrawn)) =
      some (613, true) := by decide +kernel

/-- P3: the first draw call of `DRAW_BORDER` on T1 in full. -/
theorem test_draw_border_first_call :
    (trace? (exec .drawBorder (dressed t1 false))).map (·.take 31) =
      some ([.cs .selected, cb 0x2A, db 0, db 0, db 0, db 0x0B, cb 0x2B, db 0, db 0, db 0, db 0, cb 0x2C] ++
        (List.replicate 6 [db 0x00, db 0xF0, db 0x0F]).flatten ++ [.cs .deselected]) := by decide +kernel

theorem test_led_setters :
    (next? (exec (.ledSetChannel 1 128) (fresh t1))).map (·.led) = some ⟨0, 128, 0⟩ ∧
    (next? (exec (.ledSetAll 255 128 17) (fresh t1))).map (·.led) = some ⟨255, 128, 17⟩ ∧
    (next? (exec (.ledSetDigital 2 true) { fresh t1 with led := ⟨9, 9, 9⟩ })).map (·.led) = some ⟨9, 9, 255⟩ ∧
    (next? (exec (.ledSetDigital 0 false) { fresh t1 with led := ⟨9, 9, 9⟩ })).map (·.led) = some ⟨0, 9, 9⟩ := by
  decide +kernel

/-- Table L. -/
theorem test_led_colour :
    ledColor ⟨255, 128, 17⟩ = 0xF71 ∧ ledColor ⟨254, 254, 254⟩ = 0xEEE ∧ ledColor ⟨16, 16, 16⟩ = 0 ∧
    ledColor ⟨237, 238, 33⟩ = 0xDE1 := by decide +kernel

/-- 3.6: the strip at the top edge. -/
theorem test_led_render :
    trace? (exec .ledRender { fresh t2 with led := ⟨255, 0, 0⟩ }) =
      some ([.cs .selected, cb 0x2A, db 0, db 0, db 0, db 0x0F, cb 0x2B, db 0, db 0, db 0, db 1, cb 0x2C] ++
        (List.replicate 16 [db 0xF0, db 0x0F, db 0x00]).flatten ++ [.cs .deselected]) ∧
    (next? (exec .ledRender (fresh t1))).map (fun t => (t.wt, t.opi)) = some ([], 1) := by decide +kernel

/-- 3.6: `ORIENT = 1` puts the strip at the bottom edge. -/
theorem test_orient :
    (next? (exec (.setOrient true) (fresh t2))).map (fun t => (t.orient, t.wt)) = some (true, []) ∧
    (trace? (exec .ledRender { fresh t2 with orient := true })).map (fun es => (es.drop 6).take 5) =
      some [cb 0x2B, db 0, db 0x16, db 0, db 0x17] := by decide +kernel

/-! ### Panel commands (3.7) -/

theorem test_panel_plain :
    ([Instr.swreset, .slpin, .slpout, .invoff, .invon, .dispoff, .dispon, .ramwr].map fun i =>
      trace? (exec i (held t1))) =
      [some [cb 0x01], some [cb 0x10], some [cb 0x11], some [cb 0x20], some [cb 0x21], some [cb 0x28], some [cb 0x29],
       some [cb 0x2C]] := by decide +kernel

theorem test_panel_params :
    trace? (exec (.caset 4 11) (held t1)) = some [cb 0x2A, db 0, db 4, db 0, db 11] ∧
    trace? (exec (.raset 2 9) (held t1)) = some [cb 0x2B, db 0, db 2, db 0, db 9] ∧
    trace? (exec (.madctl 0xA0) (held t1)) = some [cb 0x36, db 0xA0] ∧
    trace? (exec (.colmod 3) (held t1)) = some [cb 0x3A, db 3] ∧
    trace? (exec (.frmctr1 1 2 3) (held t1)) = some [cb 0xB1, db 1, db 2, db 3] ∧
    trace? (exec (.gmctrp1 (List.replicate 16 7)) (held t1)) = some (cb 0xE0 :: List.replicate 16 (db 7)) ∧
    trace? (exec (.gmctrn1 (List.replicate 16 8)) (held t1)) = some (cb 0xE1 :: List.replicate 16 (db 8)) := by
  decide +kernel

/-- P1's values, the rest of R333's open values 0. -/
def p1Values : BootValues :=
  { frmctr1 := (0xA1, 0xA2, 0xA3), madctl := 0, colmod := 3,
    gammaP := (List.range 16).map fun i => BitVec.ofNat 8 (0x10 + i),
    gammaN := (List.range 16).map fun i => BitVec.ofNat 8 (0x20 + i),
    pixel := 0, bg := 0, line := 0, fill := 0, red := 0, green := 0, blue := 0, frame := 0, clr := false }

/-- P1 with its pseudo-operations: 49 listed events and 16 of the `DC` line, and the ends of the trace. -/
theorem test_panel_bring_up :
    (next? (runListing ([.rstAssert, .rstRelease] ++ bootPanel p1Values) (fresh t1))).map
      (fun t => (t.wt.length, (listed t.wt).take 12, (listed t.wt).drop 46, t.lock)) =
      some (65, [.rst .asserted, .rst .released, .cs .selected, cb 0x01, cb 0x11, cb 0xB1, db 0xA1, db 0xA2, db 0xA3,
        cb 0x36, db 0, cb 0x3A], [db 0x2F, cb 0x29, .cs .deselected], false) ∧
    (next? (runListing (pixPair 0x123 0x456) (held t1))).map (·.wt) = some [db 0x12, db 0x34, db 0x56] := by
  decide +kernel

/-! ### P7 -/

/-- P7: faults inside a composite keep what went before; a composite under the host's own lock hangs. -/
theorem test_faults_and_hang :
    (next? (runWords 1 [0x0000010000000030] (fresh t1))).map (fun t => ((listed t.wt).length, t.lock, t.cs)) =
      some (12, true, .selected) ∧
    fault? (runWords 2 [0x0000010000000030] (fresh t1)) = some 6 ∧
    (next? (runWords 5 [0x01, 0x31] (fresh t1))).map (fun t => (t.wt, t.opi)) = some ([], 1) ∧
    (next? (runWords 2 [0x01, 0xF23] (fresh t1))).map (fun t => (t.theme.bfill, t.lock)) = some (0x00F, true) ∧
    refusal? (runWords 1 [0] (fresh t1)) = some (.encoding .undefinedOpcode) := by decide +kernel

/-- `withFetchWord` runs its one line next, and reset is the reset of configuration T1. -/
theorem test_withFetchWord :
    (next? (step (State.reset.withFetchWord 64 0x20 ))).map (fun t => (t.opi, t.theme.pixel)) = some (1, 0) ∧
    fault? (step (State.reset.withFetchWord 8 0xE1)) = some 1 ∧
    (next? (step ({ held t1 with turns := [.dmaBeat] }.withFetchWord 8 0x29))).map (fun t => listed t.wt) =
      some [cb 0x29] := by decide +kernel

/-! ### Witnesses: for each statement with hypotheses, a state and operands that meet them, clause by clause and at the
ends of the ranges -/

/-- DecodeReadsBackEveryEncoding, AcceptedLinesAreEncodings, RefusedLineEndsTheRun, PseudoOperationsAreTheirListings:
instructions and lines of each kind. -/
theorem test_witness_lines :
    (Instr.setWriteRegion 255 255 0xFFFF 0xFFFF).wellFormed = true ∧ (Instr.ledSetChannel 2 255).wellFormed = true ∧
    (Instr.gmctrp1 (List.replicate 16 255)).wellFormed = true ∧
    reads (.word 0xFF0000000000FF10) (.ok (.startTransfer 0xFF000000 0xFF)) ∧
    reads (.word 0x45) (.error .undefinedOpcode) ∧
    encode (.caset 1 2) = .frame [0x2A, 0, 1, 0, 2] ∧ encode .ramwr = .frame [0x2C] ∧
    (held tiny).holder = .cons 0 ∧ (held tiny).turns = [] := by decide +kernel

/-- StepRunsThePresentedOperation, both clauses, and RefusedLineEndsTheRun. -/
theorem test_witness_present :
    configOk tiny = true ∧ configOk small = true ∧ configOk t1 = true ∧ configOk t2 = true ∧
    { fresh tiny with prog := [.word 0x01] }.busy = [] ∧
    { fresh tiny with prog := [.word 0x01] }.prog[(fresh tiny).opi]? = some (.word 0x01) ∧
    { fresh tiny with prog := [.frame [0x02]] }.prog[(fresh tiny).opi]? = some (.frame [0x02]) ∧
    reads (.frame [0x02]) (.error .undefinedCommand) ∧ (fresh tiny).turns = [] ∧
    { fresh tiny with turns := [.host, .dmaBeat] }.turns = .host :: [.dmaBeat] := by decide +kernel

/-- WordsAcceptedMatchTheTable and ScaleIndexStaysInTheSource: a refused word presented, and the ends of the ranges. -/
theorem test_witness_word_and_scaling :
    reads (.word 0x45) (.error .undefinedOpcode) ∧
    { fresh tiny with prog := [.word 0x45] }.prog[(fresh tiny).opi]? = some (.word 0x45) ∧
    rangesOk tiny = true ∧ rangesOk { t1 with panelW := 256, panelH := 256, dstW := 256, dstH := 256 } = true ∧
    7 < tiny.dstH ∧ (1 ≤ 1 ∧ 1 ≤ 256 ∧ 255 < 256) ∧ 32767 < 32768 := by decide +kernel

/-- BadConfigurationIsRefused: the refused configurations of 95_test_vectors.md Part 2, one for each constraint, c4 in
both transports, and `LED_H` 0 with and without a strip (R6); and the last admitted stream buffer. -/
theorem test_witness_bad_configuration :
    configOk { t1 with panelW := 10, panelH := 10, gap := true } = false ∧ configOk { t1 with panelW := 9 } = false ∧
    configOk { t1 with dstW := 9, dstH := 9, panelW := 20, panelH := 20 } = false ∧
    configOk { t2 with ledH := 3 } = false ∧ configOk { t2 with ledH := 2 } = true ∧
    configOk { t2 with ledH := 0 } = false ∧ configOk { t1 with ledH := 0 } = false ∧ configOk { t1 with panelW := 300 } = false ∧
    configOk { t2 with streamBase := 0xFFFFFFFF } = false ∧ configOk { tiny with streamBase := 0xFFFFFFF5 } = false ∧
    configOk { tiny with streamBase := 0xFFFFFFF4 } = true ∧
    refusal? (step (fresh { t2 with ledH := 3 })) = some .configuration := by decide +kernel

/-- AcquireClaimsOrSpins, ReleaseFreesTheHostsLock, LineOperationsSetTheLine, WriteByteEmitsOneByte,
SendCommandFramesTheCode, BusOperationsNeedTheLock, PanelCommandsSendTheirFrames: the host holds the lock, or another
does, or nobody. -/
theorem test_witness_lock :
    (fresh tiny).lock = false ∧ (fresh tiny).holder ≠ .cons 0 ∧ (held tiny).lock = true ∧
    (held tiny).holder = .cons 0 ∧ (held tiny).turns = [] ∧ (flying tiny).holder ≠ .cons 0 := by decide +kernel

/-- SetWriteRegionSendsTheWindow: the smallest and the largest region, and each way a region falls outside. -/
theorem test_witness_region :
    (held tiny).holder = .cons 0 ∧ (held tiny).turns = [] ∧
    (1 ≤ (1#16).toNat ∧ (2#8).toNat + (1#16).toNat ≤ (held tiny).cfg.panelW ∧
      (9#8).toNat + (1#16).toNat ≤ (held tiny).cfg.panelH) ∧
    ((0#8).toNat + (3#16).toNat ≤ (held tiny).cfg.panelW ∧ (0#8).toNat + (10#16).toNat ≤ (held tiny).cfg.panelH) ∧
    (0#16).toNat = 0 ∧ (held tiny).cfg.panelW < (0#8).toNat + (4#16).toNat ∧
    (held tiny).cfg.panelH < (9#8).toNat + (2#16).toNat ∧ (fresh tiny).holder ≠ .cons 0 := by decide +kernel

/-- HeldLockKeepsTheHostOffTheWire: an operation that answers a next state while a transfer holds the lock. -/
theorem test_witness_held_by_transfer :
    (flying tiny).lock = true ∧ (flying tiny).holder ≠ .cons 0 ∧
    (next? (exec .rstAssert (flying tiny))).isSome = true ∧ (next? (exec .drawBorder (flying tiny))).isSome = true := by
  decide +kernel

/-- OtherConsumersShareTheLock: each of the three turns, the first and the last consumer. -/
theorem test_witness_other_consumers :
    configOk small = true ∧ 1 ≤ 1 ∧ 2 ≤ (fresh small).cfg.nOther ∧
    { fresh small with turns := [.oAcquire 1] }.turns = .oAcquire 1 :: [] ∧
    { fresh small with turns := [.oByte 2 7] }.turns = .oByte 2 7 :: [] ∧
    { fresh small with turns := [.oRelease 2] }.turns = .oRelease 2 :: [] := by decide +kernel

/-- ReentrantAcquireHangs. -/
theorem test_witness_reentrant :
    configOk tiny = true ∧ (held tiny).lock = true ∧ (held tiny).holder = .cons 0 ∧ (held tiny).dstate = .idle ∧
    { held tiny with busy := [⟨.acquire, .acquire⟩] }.busy = ⟨.acquire, .acquire⟩ :: [] := by decide +kernel

/-- StartTransferArmsTheChannel: the shortest and the longest transfer, and each fault. -/
theorem test_witness_start_transfer :
    (held tiny).holder = .cons 0 ∧ (held tiny).dstate = .idle ∧ (held tiny).chEn = false ∧ (1 : Count) ≠ 0 ∧
    (0xFFFFFF : Count) ≠ 0 ∧ (fresh tiny).holder ≠ .cons 0 ∧
    ({ held tiny with dstate := .inFlight }.holder = .cons 0 ∧ { held tiny with dstate := .inFlight }.dstate ≠ .idle) ∧
    ({ held tiny with chEn := true }.holder = .cons 0 ∧ { held tiny with chEn := true }.chEn = true) := by
  decide +kernel

/-- DmaBeatMovesOneByte: a beat, the last beat, the last address that stays in range, no increment, a byte that is not
allocated, and a channel without a beat. -/
theorem test_witness_beat :
    configOk tiny = true ∧ (flying tiny).dstate = .inFlight ∧ (flying tiny).chEn = true ∧
    0 < (flying tiny).td.cnt.toNat ∧ (flying tiny).srcPast = false ∧ (flying tiny).td.inc = true ∧
    (flying tiny).td.src.toNat + 1 < 4294967296 ∧ memRead (flying tiny).mem (flying tiny).td.src.toNat = some 0x11 ∧
    ((0xFFFFFFFE#32).toNat + 1 < 4294967296 ∧ memRead [(0xFFFFFFFE, 9)] (0xFFFFFFFE#32).toNat = some 9) ∧
    { flying tiny with td := ⟨0x20, 1, 0, false⟩ }.td.cnt.toNat = 1 ∧
    memRead (flying tiny).mem (0x22#32).toNat = none ∧ ¬ 0 < (landed tiny).td.cnt.toNat := by decide +kernel

/-- BeatPastTheAddressSpaceFaults. -/
theorem test_witness_last_address :
    ({ flying tiny with td := ⟨0xFFFFFFFF, 2, 0, true⟩, mem := [(0xFFFFFFFF, 5)] }.td.src.toNat = 4294967295 ∧
      2 ≤ { flying tiny with td := ⟨0xFFFFFFFF, 2, 0, true⟩ }.td.cnt.toNat) ∧
    memRead { flying tiny with mem := [(0xFFFFFFFF, 5)] }.mem 4294967295 = some 5 ∧ (flying tiny).srcPast = false ∧
    (flying tiny).dstate = .inFlight ∧ (flying tiny).chEn = true ∧ configOk tiny = true := by decide +kernel

/-- CompletionHandlerFreesTheLock and HandlerLiftsTheSpin: the interrupt pending and enabled, and not. -/
theorem test_witness_handler :
    configOk tiny = true ∧ (landed tiny).irqPend = true ∧ (landed tiny).irqEn = true ∧
    (landed tiny).dstate = .inFlight ∧ (landed tiny).lock = true ∧ (flying tiny).irqPend = false ∧
    { landed tiny with
      busy := [⟨.acquire, .acquire⟩], turns := [.host, .dmaIrq, .host] }.busy = [⟨.acquire, .acquire⟩] := by
  decide +kernel

/-- TransferLifeCycle: a transfer of two bytes, and one of the last byte of the address space. -/
theorem test_witness_transfer :
    configOk tiny = true ∧ (held tiny).holder = .cons 0 ∧ (held tiny).lock = true ∧ (held tiny).dstate = .idle ∧
    (held tiny).chEn = false ∧ (held tiny).irqPend = false ∧
    (1 ≤ (2#24).toNat ∧ (0x20#32).toNat + (2#24).toNat ≤ 4294967296 ∧
      ∀ k < (2#24).toNat, memRead (flying tiny).mem ((0x20#32).toNat + k) = [0x11#8, 0x22#8][k]?) ∧
    (1 ≤ (1#24).toNat ∧ (0xFFFFFFFF#32).toNat + (1#24).toNat ≤ 4294967296 ∧
      ∀ k < (1#24).toNat, memRead [(0xFFFFFFFF, 5)] ((0xFFFFFFFF#32).toNat + k) = [5#8][k]?) := by decide +kernel

/-- SettersBeforeTheFirstDrawOnlyStore, BackgroundSetterRedrawsTheGap, LineSetterRedrawsTheOutline,
FillSetterRedrawsFillsAndStrip, InvertSwapsOnce, InvertLeavesTheLedColour: before and after the first full draw, with
and without a gap band, with and without a fill strip, the lock free and held. -/
theorem test_witness_setters :
    (dressed small false).borderDrawn = false ∧ (dressed small true).borderDrawn = true ∧ configOk small = true ∧
    undisturbed (dressed small true) ∧ small.gap = true ∧ tiny.gap = false ∧ configOk tiny = true ∧
    { dressed small true with lock := true, holder := .dma }.lock = true ∧
    { dressed small true with lock := true, holder := .dma }.turns = [] ∧
    (∃ r ∈ fillRegions small, 1 ≤ r.w ∧ 1 ≤ r.h) ∧ (∀ r ∈ fillRegions tiny, r.w = 0 ∨ r.h = 0) ∧
    true ≠ (dressed small true).inverted ∧ false = (dressed small true).inverted ∧
    (next? (exec (.invert true) (dressed small true))).isSome = true :=
  ⟨by decide +kernel, by decide +kernel, by decide +kernel, by decide +kernel, by decide +kernel, by decide +kernel,
    by decide +kernel, by decide +kernel, by decide +kernel, ⟨⟨0, 0, 6, 1⟩, by decide +kernel, by decide +kernel⟩,
    by decide +kernel, by decide +kernel, by decide +kernel, by decide +kernel⟩

/-- PaintSendsTheFrame and PaintFaultsAfterTheWindow: a buffer that is allocated, one that is not, and the buffer that
ends at `2^32`, none over the stream buffer; the lock free and held. -/
theorem test_witness_paint_sync :
    configOk tiny = true ∧ tiny.transport = .sync ∧ undisturbed (fresh tiny) ∧ (flying tiny).lock = true ∧
    overlapsStream tiny 0x20 = false ∧ overlapsStream tiny 0xFFFFFFFF = false ∧
    rangeAdmitted [(0x20, 3)] (0x20#32).toNat (srcBytes tiny) = true ∧
    rangeAdmitted [(0xFFFFFFFF, 3)] (0xFFFFFFFF#32).toNat (srcBytes tiny) = true ∧
    (match framePixels (fresh tiny) 0x20 with
      | .error f => decide (f = .mem 0x20)
      | .ok _ => false) = true := by decide +kernel

/-- PaintStartsTheTransfer, BothTransportsSendTheSameTrace and PaintRefusesAnOverlappingBuffer: a buffer just below the
stream buffer and one just above it; one byte nearer they overlap. The lock free and held. -/
theorem test_witness_paint_dma :
    configOk small = true ∧ small.transport = .dma ∧ undisturbed (fresh small) ∧ (fresh small).dstate = .idle ∧
    (fresh small).chEn = false ∧ (fresh small).irqPend = false ∧ overlapsStream small 0xFF = false ∧
    overlapsStream small 0x118 = false ∧ rangeAdmitted (zeros 0xFF 26) (0xFF#32).toNat (srcBytes small) = true ∧
    rangeAdmitted (zeros 0xFF 26) (0x118#32).toNat (srcBytes small) = true ∧
    rangeAdmitted (zeros 0xFF 26) small.streamBase.toNat (streamLen small) = true ∧
    (fresh small).prog.length ≤ (fresh small).opi + 1 ∧
    (match framePixels { fresh small with mem := zeros 0xFF 26 } 0xFF with
      | .ok ps => decide (ps.length = 16)
      | .error _ => false) = true ∧
    ((0x100#32).toNat < small.streamBase.toNat + streamLen small ∧
      small.streamBase.toNat < (0x100#32).toNat + srcBytes small) ∧
    ((0x117#32).toNat < small.streamBase.toNat + streamLen small ∧
      small.streamBase.toNat < (0x117#32).toNat + srcBytes small) ∧ (flying small).lock = true := by decide +kernel

/-- DmaPaintFaultsBeforeSelecting: a PixelBuffer that is not allocated, and a stream buffer without its first byte and
without its last. -/
theorem test_witness_paint_dma_faults :
    configOk small = true ∧ small.transport = .dma ∧ undisturbed (fresh small) ∧ overlapsStream small 0x20 = false ∧
    (match framePixels (fresh small) 0x20 with
      | .error f => decide (f = .mem 0x20)
      | .ok _ => false) = true ∧
    (match framePixels { fresh small with mem := (0x20, 3) :: zeros 0x100 23 } 0x20 with
      | .ok ps => decide (ps.length = 16)
      | .error _ => false) = true ∧
    (0 < streamLen small ∧ admitted [(0x20, 3)] (small.streamBase.toNat + 0) = false) ∧
    (23 < streamLen small ∧ (∀ j < 23, admitted ((0x20, 3) :: zeros 0x100 23) (small.streamBase.toNat + j) = true) ∧
      admitted ((0x20, 3) :: zeros 0x100 23) (small.streamBase.toNat + 23) = false) := by decide +kernel

/-- RegionsLieInThePanel, RegionsCoverThePanel, DrawBorderDrawsEveryRegion, LedRenderPaintsTheStrip and
DrawCallPaintsItsRectangle: configurations with and without margins, gap and strip, and regions of one pixel, of an odd
number and of the whole panel. -/
theorem test_witness_regions :
    configOk tiny = true ∧ configOk small = true ∧ configOk t2 = true ∧
    (fillRegions small).length = 4 ∧ nonEmpty ⟨0, 0, 6, 1⟩ = true ∧ tiny.ledPresent = false ∧
    small.ledPresent = true ∧ undisturbed (fresh small) ∧ (flying small).lock = true ∧
    (small.panelW ≤ 256 ∧ small.panelH ≤ 256 ∧ inPanel small ⟨5, 13, 1, 1⟩ = true ∧
      inPanel small ⟨0, 0, 3, 1⟩ = true ∧ inPanel small ⟨0, 0, 6, 14⟩ = true) ∧
    configOk { t1 with panelW := 256, panelH := 256, dstW := 254, dstH := 254 } = true := by decide +kernel

/-- StepKeepsTheLockInvariant: the invariant holds with the lock free, held by the host, in a transfer and at its end. -/
theorem test_witness_lock_invariant :
    lockInvariant (fresh small) ∧ lockInvariant (held small) ∧ lockInvariant (flying small) ∧
    lockInvariant (landed small) := by
  refine ⟨?_, ?_, ?_, ?_⟩ <;> refine ⟨?_, ?_, ?_, ?_, ?_, ?_, ?_⟩ <;> decide +kernel

/-- The other whole-machine statements: the machine answers a next state from states that meet their hypotheses. -/
theorem test_witness_invariants :
    memoryWf (flying small).mem = true ∧
    (next? (step (flying small))).isSome = true ∧ (next? (step (landed small))).isSome = true ∧
    (dressed small true).borderDrawn = true ∧ (flying small).irqEn = true ∧
    (next? (exec (.paint 0x20 true) { fresh tiny with mem := [(0x20, 3)] })).isSome = true := by decide +kernel

/-- OtherAgentsLeaveAnOperationItsInputs: a turn of the handler while the host is inside an operation, and one of another
consumer while it is inside one with the lock. -/
theorem test_witness_other_turn :
    { landed small with busy := [⟨.drawBorder, .acquire⟩], turns := [.dmaIrq] }.busy ≠ [] ∧
    { landed small with turns := [.dmaIrq] }.turns = .dmaIrq :: [] ∧ Turn.dmaIrq ≠ .host ∧
    (next? (step { landed small with busy := [⟨.drawBorder, .acquire⟩], turns := [.dmaIrq] })).isSome = true ∧
    lockInvariant { held small with busy := [⟨.drawBorder, .csDeselect⟩], turns := [.oAcquire 1] } ∧
    { held small with busy := [⟨.drawBorder, .csDeselect⟩], turns := [.oAcquire 1] }.holder = .cons 0 ∧
    (next? (step { held small with busy := [⟨.drawBorder, .csDeselect⟩], turns := [.oAcquire 1] })).isSome = true := by
  decide +kernel

/-- OperationsStoreOnlyWherePaintStores: a store of the host to an allocated byte and one to a byte that is not, between
operations and inside one; a `PAINT` in progress and one presented, and addresses on both sides of what they store to. -/
theorem test_witness_stores :
    configOk small = true ∧
    { flying small with turns := [.hostStore 0x20 7] }.turns = .hostStore 0x20 7 :: [] ∧
    (next? (step { flying small with turns := [.hostStore 0x20 7] })).map (·.mem) =
      some [(0x20, 7), (0x21, 0x22)] ∧
    (next? (step { flying small with turns := [.hostStore 0x22 7] })).map (·.mem) =
      some [(0x20, 0x11), (0x21, 0x22)] ∧
    (next? (step { flying small with
      busy := [⟨.drawBorder, .acquire⟩], turns := [.hostStore 0x20 7] })).map (·.mem) =
      some [(0x20, 0x11), (0x21, 0x22)] ∧
    (next? (step { flying tiny with busy := [⟨.paint 0x20 true, .clearByte 0x20 0⟩], opi := 1 })).map (·.mem) =
      some [(0x20, 0), (0x21, 0x22)] ∧
    (storesTo tiny (.clearByte 0x20 0) 0x20 = true ∧ storesTo tiny (.clearByte 0x20 0) 0x21 = false) ∧
    (storesTo small (.storeStream 23) 0x117 = true ∧ storesTo small (.storeStream 23) 0x118 = false) ∧
    reads (.word 0x0000002000000130) (.ok (.paint 0x20 true)) ∧
    (next? (step { flying tiny with
      lock := false, holder := .none, dstate := .idle, prog := [.word 0x0000002000000130] })).map (·.mem) =
      some [(0x20, 0), (0x21, 0x22)] := by decide +kernel

/-- PreemptedOperationsEndTheSame and PreemptedDmaPaintSendsTheSame: operations that run to their end undisturbed, and
are still in progress with another agent's turns in the script; another consumer between two draw calls. -/
theorem test_witness_preempted :
    configOk small = true ∧ ((dressed small true).lock = false ∧ (dressed small true).holder = .none) ∧
    (dressed small true).dstate = .idle ∧
    (next? (exec .drawBorder { dressed small true with turns := [] })).map (·.busy) = some [] ∧
    (next? (exec .drawBorder { dressed small true with turns := [.oByte 1 3, .host] })).map (·.busy.isEmpty) =
      some false ∧
    (next? (runMachine 2 { dressed small true with
      prog := [.word 0x31], turns := List.replicate 31 .host ++ [.oAcquire 1] })).map
      (fun t => (t.holder, t.busy.isEmpty)) = some (.cons 1, false) ∧
    lockInvariant (fresh small) ∧
    (next? (exec (.paint 0x20 true) { fresh small with mem := (0x20, 3) :: zeros 0x100 24, turns := [] })).map (·.busy) =
      some [] ∧
    (next? (exec (.paint 0x20 true) { fresh small with
      mem := (0x20, 3) :: zeros 0x100 24, turns := [.dmaBeat] })).map (·.busy.isEmpty) = some false := by
  decide +kernel

end Sys2Proof.Tests
end

