-- ==== Sys2Proof/Proofs/ExecSteps.lean ====
section
/-! Every host operation is either refused when it is presented or runs a list of primitive steps: `exec` said once
for all 39 operations, so that what holds of `runSteps` holds of `exec`. -/

namespace Sys2Proof.Proofs

open Sys2Proof.Machine Sys2Proof.Laws

/-- Why `exec` refuses the operation, if it does: a `PAINT` over the stream buffer (R199), the reserved LED channel
(R84). -/
def execRefusal (i : Instr) (c : Config) : Option Refusal :=
  match i with
  | .paint src _ => if overlapsStream c src then some .bufferOverlap else none
  | .ledSetChannel ch _ => if ch = 3 then some (.encoding .reservedChannel) else none
  | .ledSetDigital ch _ => if ch = 3 then some (.encoding .reservedChannel) else none
  | _ => none

/-- The primitive steps of the operation when it is presented at `s`. -/
def execSteps (i : Instr) (s : State) : List PrimStep :=
  match i with
  | .sendCommand code => stepsOf i (sendCommandActs code)
  | .setWriteRegion x y w h => stepsOf i (setWriteRegionActs ⟨x.toNat, y.toNat, w.toNat, h.toNat⟩)
  | .setBgColor v => stepsOf i (.setTheme .bg (colorOf v) :: whenDrawn s (drawGapActs s.cfg (colorOf v)))
  | .setBorderLineColor v =>
    stepsOf i (.setTheme .bline (colorOf v) :: whenDrawn s (drawOutlineActs s.cfg (colorOf v)))
  | .setBorderFillColor v =>
    stepsOf i (.setTheme .bfill (colorOf v) :: whenDrawn s (drawFillsActs s.cfg (colorOf v) ++ ledRenderActs s))
  | .invert flag =>
    stepsOf i (if flag = s.inverted then [] else .swapTheme flag :: whenDrawn s (drawGapActs s.cfg s.theme.pixel))
  | .paint src clr =>
    match s.cfg.transport with
    | .sync => stepsOf i (paintSyncActs s.cfg src clr)
    | .dma => stepsOf i (paintDmaActs s.cfg src clr)
  | .drawBorder =>
    stepsOf i (drawFillsActs s.cfg s.theme.bfill ++ drawOutlineActs s.cfg s.theme.bline ++
      drawGapActs s.cfg s.theme.bg ++ ledRenderActs s ++ [.setBorderDrawn])
  | .ledRender => stepsOf i (ledRenderActs s)
  | .acquire => stepsOf i [.acquire]
  | .release => stepsOf i [.release]
  | .cmdMode => stepsOf i [.cmdMode]
  | .dataMode => stepsOf i [.dataMode]
  | .writeByte b => stepsOf i [.writeByte b]
  | .csSelect => stepsOf i [.csSelect]
  | .csDeselect => stepsOf i [.csDeselect]
  | .rstAssert => stepsOf i [.rstAssert]
  | .rstRelease => stepsOf i [.rstRelease]
  | .startTransfer src len => stepsOf i [.startTransfer src len]
  | .setPixelColor v => stepsOf i [.setTheme .pixel (colorOf v)]
  | .ledSetChannel ch level => stepsOf i [.setLed ch level]
  | .ledSetAll r g b => stepsOf i [.setLeds ⟨r, g, b⟩]
  | .ledSetDigital ch on => stepsOf i [.setLed ch (digitalLevel on)]
  | .setOrient flag => stepsOf i [.setOrient flag]
  | .swreset => commandSteps 0x01 []
  | .slpin => commandSteps 0x10 []
  | .slpout => commandSteps 0x11 []
  | .invoff => commandSteps 0x20 []
  | .invon => commandSteps 0x21 []
  | .dispoff => commandSteps 0x28 []
  | .dispon => commandSteps 0x29 []
  | .caset xs xe => commandSteps 0x2A [0, xs, 0, xe]
  | .raset ys ye => commandSteps 0x2B [0, ys, 0, ye]
  | .ramwr => commandSteps 0x2C []
  | .madctl p => commandSteps 0x36 [p]
  | .colmod p => commandSteps 0x3A [p]
  | .frmctr1 p0 p1 p2 => commandSteps 0xB1 [p0, p1, p2]
  | .gmctrp1 ps => commandSteps 0xE0 ps
  | .gmctrn1 ps => commandSteps 0xE1 ps

/-- An operation that is not refused runs its primitive steps. -/
theorem exec_eq_runSteps (i : Instr) (s : State) (h : execRefusal i s.cfg = none) :
    exec i s = runSteps (execSteps i s) s := by
  cases i with
  | paint src clr =>
    have ho : overlapsStream s.cfg src = false := by simpa [execRefusal] using h
    cases ht : s.cfg.transport <;> simp [exec, execPaint, execSteps, runOp, ho, ht]
  | ledSetChannel ch level =>
    have hc : ¬ch = 3 := by simpa [execRefusal] using h
    exact if_neg hc
  | ledSetDigital ch on =>
    have hc : ¬ch = 3 := by simpa [execRefusal] using h
    exact if_neg hc
  | _ => rfl

/-- An operation that is refused answers that refusal. -/
theorem exec_eq_refused (i : Instr) (s : State) (r : Refusal) (h : execRefusal i s.cfg = some r) :
    exec i s = .refused r := by
  cases i with
  | paint src clr =>
    by_cases ho : overlapsStream s.cfg src = true <;> simp_all [execRefusal, exec, execPaint]
  | ledSetChannel ch level =>
    by_cases hc : ch = 3 <;> simp_all [execRefusal, exec, execLedSetChannel]
  | ledSetDigital ch on =>
    by_cases hc : ch = 3 <;> simp_all [execRefusal, exec, execLedSetDigital]
  | _ => cases h

/-- No operation is refused for the parameters: `step` does that before. -/
theorem execRefusal_ne_configuration (i : Instr) (c : Config) : execRefusal i c ≠ some .configuration := by
  unfold execRefusal
  split <;> simp

/-- An operation that answers a next state was not refused, and its primitive steps led there. -/
theorem exec_next (i : Instr) (s t : State) (h : exec i s = .next t) :
    execRefusal i s.cfg = none ∧ runSteps (execSteps i s) s = .next t := by
  cases hr : execRefusal i s.cfg with
  | none => exact ⟨rfl, by rw [← exec_eq_runSteps i s hr, h]⟩
  | some r => rw [exec_eq_refused i s r hr] at h; cases h

theorem runAct_cfg (op : Instr) (act : Act) (s t : State) (h : runAct op act s = .ok t) : t.cfg = s.cfg := by
  obtain ⟨hcfg, _⟩ := runAct_frame op act s t h
  exact hcfg

theorem runAct_opi (op : Instr) (act : Act) (s t : State) (h : runAct op act s = .ok t) : t.opi = s.opi := by
  obtain ⟨_, _, hopi, _⟩ := runAct_frame op act s t h
  exact hopi

theorem runAct_turns (op : Instr) (act : Act) (s t : State) (h : runAct op act s = .ok t) : t.turns = s.turns := by
  obtain ⟨_, _, _, _, hturns, _⟩ := runAct_frame op act s t h
  exact hturns

/-- Which steps an operation has does not depend on the script. -/
@[simp] theorem execSteps_turns (i : Instr) (s : State) (ts : List Turn) :
    execSteps i { s with turns := ts } = execSteps i s := by
  cases i <;> rfl

/-- The host's turn that answers a next state does nothing or runs primitive steps. -/
theorem hostStep_next_runSteps (s t : State) (h : hostStep s = .next t) :
    t = s ∨ ∃ ps, runSteps ps s = .next t := by
  rcases hostStep_next_cases s t h with ⟨_, _, rfl⟩ | ⟨_, hrun⟩ | ⟨_, i, _, _, _, hexec⟩
  · exact .inl rfl
  · exact .inr ⟨_, hrun⟩
  · exact .inr ⟨_, (exec_next i s t hexec).2⟩

end Sys2Proof.Proofs
end

