-- ==== Sys2Proof/Proofs/Configuration.lean ====
section
/-! O7: the configuration refusal. `configOk` is the list of R6 and R7, and nothing but the check of `configOk` at the
head of a step refuses with `.configuration`. -/

namespace Sys2Proof.Proofs

open Sys2Proof.Machine Sys2Proof.Laws

/-- Running the host's primitive steps or presenting an operation never gives the configuration refusal. -/
theorem exec_ne_configuration (i : Instr) (s : State) : exec i s ≠ .refused .configuration := by
  cases hr : execRefusal i s.cfg with
  | none =>
    rw [exec_eq_runSteps i s hr]
    exact runSteps_not_refused _ s _
  | some r =>
    rw [exec_eq_refused i s r hr]
    intro h
    cases h
    exact execRefusal_ne_configuration i s.cfg hr

theorem hostStep_ne_configuration (s : State) : hostStep s ≠ .refused .configuration := by
  unfold hostStep
  split
  · split
    · unfold present
      split
      · exact exec_ne_configuration _ s
      · simp
    · simp
  · exact runSteps_not_refused _ s _

theorem dmaBeat_ne_refused (s : State) (r : Refusal) : dmaBeat s ≠ .refused r := by
  unfold dmaBeat
  split
  · split
    · simp
    · split <;> simp
  · simp

theorem dmaIrq_ne_refused (s : State) (r : Refusal) : dmaIrq s ≠ .refused r := by
  unfold dmaIrq
  split <;> simp

theorem turnStep_ne_configuration (a : Turn) (s : State) : turnStep a s ≠ .refused .configuration := by
  cases a with
  | host => exact hostStep_ne_configuration s
  | dmaBeat => exact dmaBeat_ne_refused s _
  | dmaIrq => exact dmaIrq_ne_refused s _
  | oAcquire | oByte | oRelease | hostStore => simp [turnStep]

theorem freeStep_ne_configuration (s : State) : freeStep s ≠ .refused .configuration := by
  unfold freeStep
  split
  · exact hostStep_ne_configuration s
  · split
    · exact dmaIrq_ne_refused s _
    · exact dmaBeat_ne_refused s _

/-- A step is refused for its parameters exactly when they are not admitted. -/
theorem step_refused_configuration_iff (s : State) : step s = .refused .configuration ↔ configOk s.cfg = false := by
  cases hc : configOk s.cfg with
  | false => simp [step, machineStep, hc]
  | true =>
    simp only [Bool.true_eq_false, iff_false]
    cases ht : s.turns with
    | nil =>
      rw [step_free s hc ht]
      exact freeStep_ne_configuration s
    | cons a ts =>
      rw [step_turn s a ts hc ht]
      exact turnStep_ne_configuration a _

/-- Constraint c3 (R7) without the subtraction: a strip has at least one row, so it fits below the gap. -/
theorem ledFits_iff (c : Config) (h : 1 ≤ c.ledH) :
    ledFits c = true ↔ (c.ledPresent = true → c.ledH + gapN c ≤ marginY c) := by
  cases hp : c.ledPresent with
  | false => simp [ledFits, hp]
  | true =>
    have hfits : ledFits c = true ↔ c.ledH ≤ my c := by simp [ledFits, hp]
    rw [hfits, my, eq_self, true_imp_iff]
    omega

/-- The admitted parameters: the five checks, as propositions. -/
theorem configOk_iff (c : Config) :
    configOk c = true ↔
      (1 ≤ c.panelW ∧ c.panelW ≤ 256 ∧ 1 ≤ c.panelH ∧ c.panelH ≤ 256 ∧
        1 ≤ c.srcW ∧ c.srcW ≤ c.dstW ∧ c.dstW ≤ 256 ∧
        1 ≤ c.srcH ∧ c.srcH % 8 = 0 ∧ c.srcH ≤ c.dstH ∧ c.dstH ≤ 256 ∧ 1 ≤ c.ledH) ∧
      (c.dstW + 2 ≤ c.panelW ∧ c.dstH + 2 ≤ c.panelH ∧ gapN c ≤ marginX c ∧ gapN c ≤ marginY c) ∧
      nPix c % 2 = 0 ∧ ledFits c = true ∧ c.streamBase.toNat + streamLen c ≤ addrSpace := by
  simp only [configOk, rangesOk, borderFits, streamFits, Bool.and_eq_true, decide_eq_true_eq]
  tauto

/-- Settles O7: the check at the head of the step is R6's ranges and R7's c1 to c5, and no other part of a step
answers that refusal. -/
theorem badConfigurationIsRefused : Obligations.BadConfigurationIsRefused := by
  unfold Obligations.BadConfigurationIsRefused
  rintro s _ _ _ _ rfl rfl rfl rfl
  rw [step_refused_configuration_iff, ← Bool.not_eq_true, configOk_iff]
  refine not_congr ⟨?_, ?_⟩
  · rintro ⟨hranges, hborder, hpairs, hled, hstream⟩
    rw [ledFits_iff s.cfg (by omega)] at hled
    exact ⟨by omega, by omega, by omega, hborder, hpairs, by omega, hled, hstream⟩
  · rintro ⟨hpanel, hsrc, hdst, hborder, hpairs, hledH, hled, hstream⟩
    exact ⟨by omega, hborder, hpairs, (ledFits_iff s.cfg hledH).2 hled, hstream⟩

end Sys2Proof.Proofs
end

