-- ==== Sys2Proof/Proofs/TraceGrows.lean ====
section
/-! O52: what every step keeps of the parameters, the program, the trace and the program's index. The first three are
an invariant of every primitive step; the index moves only where an operation finishes, which a step does at most
once. -/

namespace Sys2Proof.Proofs

open Sys2Proof.Machine Sys2Proof.Laws

/-- `t` has the parameters and the program of `s`, and its trace goes on from the trace of `s`. -/
def Extends (s t : State) : Prop := t.cfg = s.cfg ∧ t.prog = s.prog ∧ ∃ es, t.wt = s.wt ++ es

theorem Extends.refl (s : State) : Extends s s := ⟨rfl, rfl, [], by simp⟩

theorem Extends.trans {s t u : State} (h : Extends s t) (h' : Extends t u) : Extends s u := by
  obtain ⟨hcfg, hprog, es, hwt⟩ := h
  obtain ⟨hcfg', hprog', es', hwt'⟩ := h'
  exact ⟨hcfg'.trans hcfg, hprog'.trans hprog, es ++ es', by rw [hwt', hwt, List.append_assoc]⟩

/-- A change that leaves parameters, program and trace alone extends. -/
theorem Extends.of_eq {s t : State} (hcfg : t.cfg = s.cfg) (hprog : t.prog = s.prog) (hwt : t.wt = s.wt) :
    Extends s t := ⟨hcfg, hprog, [], by simp [hwt]⟩

/-- A primitive step takes nothing back from the wire (R12). -/
theorem runAct_wt (op : Instr) (act : Act) (s t : State) (h : runAct op act s = .ok t) :
    ∃ es, t.wt = s.wt ++ es := by
  rcases runAct_ok_cases op act s t h with ⟨_, _, rfl⟩ | ⟨_, _, rfl⟩ | ⟨_, _, rfl⟩ | ⟨_, _, rfl⟩ | ⟨_, _, rfl⟩ |
    ⟨_, _, rfl⟩ | ⟨_, rfl⟩ | ⟨_, rfl⟩ | ⟨_, _, _, rfl⟩ | ⟨_, _, _, _, _, _, _, rfl⟩ | ⟨_, _, _, hstart⟩ |
    ⟨_, _, _, rfl⟩ | ⟨_, _, rfl⟩ | ⟨_, _, _, rfl⟩ | ⟨_, _, rfl⟩ | ⟨_, _, rfl⟩ | ⟨_, rfl⟩ | ⟨_, _, _, _, rfl⟩ |
    ⟨_, _, rfl⟩ | ⟨_, _, hstore⟩ | ⟨_, _, _, hstore⟩
  any_goals simp
  · obtain ⟨_, _, _, _, rfl⟩ := (startDma_ok_iff op _ _ s t).1 hstart
    exact ⟨[], by simp⟩
  · obtain ⟨_, rfl⟩ := (storeByte_ok_iff _ _ _ t).1 hstore
    exact ⟨[], by simp⟩
  · obtain ⟨_, rfl⟩ := (storeByte_ok_iff _ _ _ t).1 hstore
    exact ⟨[], by simp⟩

theorem runAct_extends (op : Instr) (act : Act) (s t : State) (h : runAct op act s = .ok t) : Extends s t := by
  obtain ⟨hcfg, hprog, _⟩ := runAct_frame op act s t h
  exact ⟨hcfg, hprog, runAct_wt op act s t h⟩

theorem runSteps_extends (ps : List PrimStep) (s t : State) (h : runSteps ps s = .next t) : Extends s t :=
  runSteps_keeps (Extends s) ps s t h
    (fun p _ u v hu huv => hu.trans (runAct_extends p.op p.act u v huv))
    (fun _ _ hu => hu) (fun _ _ hu => hu) (fun _ hu => hu) (Extends.refl s)

/-- The rest of an operation moves the program's index by one if it finishes, else not at all (R22). -/
theorem runRest_opi (ps : List PrimStep) (s : State) :
    (runRest ps s).opi = s.opi ∨ (runRest ps s).opi = s.opi + 1 := by
  induction ps generalizing s with
  | nil => exact .inr rfl
  | cons p ps ih =>
    unfold runRest
    split
    · exact .inl rfl
    · rename_i s1 hturn
      obtain ⟨ts, rfl⟩ := hostTurn_some s s1 hturn
      split
      · rename_i s2 hact
        have hopi : s2.opi = s.opi := runAct_opi p.op p.act { s with turns := ts } s2 hact
        rw [← hopi]
        exact ih s2
      · exact .inl rfl

theorem runSteps_opi (ps : List PrimStep) (s t : State) (h : runSteps ps s = .next t) :
    t.opi = s.opi ∨ t.opi = s.opi + 1 := by
  rcases runSteps_next_cases ps s t h with ⟨_, rfl⟩ | ⟨p, rest, s', _, hact, rfl⟩ | ⟨_, _, _, _, rfl⟩
  · exact .inr rfl
  · have hopi : s'.opi = s.opi := runAct_opi p.op p.act s s' hact
    rw [← hopi]
    exact runRest_opi rest s'
  · exact .inl rfl

/-- What O52 asks of one step of one agent. -/
def Advances (s t : State) : Prop := Extends s t ∧ (t.opi = s.opi ∨ t.opi = s.opi + 1)

/-- A step of an agent other than the host leaves the program's index. -/
theorem Advances.of_extends {s t : State} (h : Extends s t) (hopi : t.opi = s.opi) : Advances s t := ⟨h, .inl hopi⟩

theorem hostStep_advances (s t : State) (h : hostStep s = .next t) : Advances s t := by
  rcases hostStep_next_runSteps s t h with rfl | ⟨ps, hrun⟩
  · exact ⟨Extends.refl t, .inl rfl⟩
  · exact ⟨runSteps_extends ps s t hrun, runSteps_opi ps s t hrun⟩

theorem dmaBeat_advances (s t : State) (h : dmaBeat s = .next t) : Advances s t := by
  rcases dmaBeat_next_cases s t h with ⟨_, rfl⟩ | ⟨b, _, _, _, _, rfl⟩
  · exact ⟨Extends.refl t, .inl rfl⟩
  · rcases advanceSource_cases (emitByte b s) with ha | ha | ha <;>
      exact .of_extends ⟨by simp [ha], by simp [ha], by simp [ha]⟩ (by simp [ha])

theorem dmaIrq_advances (s t : State) (h : dmaIrq s = .next t) : Advances s t := by
  rcases dmaIrq_next_cases s t h with ⟨_, rfl⟩ | ⟨_, rfl⟩
  · exact ⟨Extends.refl t, .inl rfl⟩
  · exact .of_extends ⟨rfl, rfl, by simp⟩ rfl

theorem turnStep_advances (a : Turn) (s t : State) (h : turnStep a s = .next t) : Advances s t := by
  have stays : Advances s s := ⟨Extends.refl s, .inl rfl⟩
  rcases turnStep_next_cases a s t h with ⟨_, h⟩ | ⟨_, h⟩ | ⟨_, h⟩ | ⟨k, _, rfl⟩ | ⟨k, b, _, rfl⟩ | ⟨k, _, rfl⟩ |
    ⟨p, b, _, rfl⟩
  · exact hostStep_advances s t h
  · exact dmaBeat_advances s t h
  · exact dmaIrq_advances s t h
  · rcases otherAcquire_cases k s with he | ⟨_, _, he⟩ <;> rw [he]
    exacts [stays, .of_extends (.of_eq rfl rfl rfl) rfl]
  · rcases otherByte_cases k b s with he | ⟨_, _, he⟩ <;> rw [he]
    exacts [stays, .of_extends ⟨rfl, rfl, by simp⟩ rfl]
  · rcases otherRelease_cases k s with he | ⟨_, _, he⟩ <;> rw [he]
    exacts [stays, .of_extends (.of_eq rfl rfl rfl) rfl]
  · rcases hostStore_cases p b s with he | ⟨_, _, he⟩ <;> rw [he]
    exacts [stays, .of_extends (.of_eq rfl rfl rfl) rfl]

/-- Every step of the machine advances, whoever's turn it is. -/
theorem step_advances (s t : State) (h : step s = .next t) : Advances s t := by
  obtain ⟨_, ⟨a, ts, _, hturn⟩ | ⟨_, _, hhost⟩ | ⟨_, _, _, hirq⟩ | ⟨_, _, _, hbeat⟩⟩ := step_next_cases s t h
  · exact turnStep_advances a { s with turns := ts } t hturn
  · exact hostStep_advances s t hhost
  · exact dmaIrq_advances s t hirq
  · exact dmaBeat_advances s t hbeat

/-- Settles O52, agent by agent. -/
theorem stepOnlyAppendsToTheTrace : Obligations.StepOnlyAppendsToTheTrace := by
  unfold Obligations.StepOnlyAppendsToTheTrace
  intro s t h
  obtain ⟨⟨hcfg, hprog, es, hwt⟩, hopi⟩ := step_advances s t h
  exact ⟨hcfg, hprog, by omega, by omega, es, hwt⟩

end Sys2Proof.Proofs
end

