-- ==== Sys2Proof/Proofs/LockUse.lean ====
section
/-! How the primitive steps of an operation use the lock: what a step does to its owner, which steps are taken only by
the owner, and that every operation of more than one step is inside a claim from its second step on (R13, R152). -/

namespace Sys2Proof.Proofs

open Sys2Proof.Machine Sys2Proof.Laws

/-- `LOCK` and `HOLDER` (R24, R25). -/
def owner (s : State) : Bool × Holder := (s.lock, s.holder)

/-- The owner after a primitive step that is taken. -/
def ownerAfter (act : Act) (o : Bool × Holder) : Bool × Holder :=
  match act with
  | .acquire => (true, .cons 0)
  | .release => (false, .none)
  | .startTransfer _ _ => (o.1, .dma)
  | _ => o

/-- The step starts a transfer (R170). -/
def isTransfer : Act → Bool
  | .startTransfer _ _ => true
  | _ => false

/-- The step claims the lock (R140) or is taken only by its holder (R141, R152). -/
def needsLock : Act → Bool
  | .rstAssert | .rstRelease => false
  | .setTheme _ _ | .swapTheme _ | .setLed _ _ | .setLeds _ | .setOrient _ | .setBorderDrawn => false
  | .compose _ | .storeStream _ | .clearByte _ _ => false
  | _ => true

/-- Nobody but the host is in possession of the lock. -/
def HostOrFree (o : Bool × Holder) : Prop := o = (false, .none) ∨ o = (true, .cons 0)

theorem runAct_owner (op : Instr) (act : Act) (s t : State) (h : runAct op act s = .ok t) :
    owner t = ownerAfter act (owner s) := by
  rcases runAct_ok_cases op act s t h with ⟨rfl, _, rfl⟩ | ⟨rfl, _, rfl⟩ | ⟨rfl, _, rfl⟩ | ⟨rfl, _, rfl⟩ |
    ⟨rfl, _, rfl⟩ | ⟨rfl, _, rfl⟩ | ⟨rfl, rfl⟩ | ⟨rfl, rfl⟩ | ⟨_, rfl, _, rfl⟩ | ⟨_, _, _, _, rfl, _, _, rfl⟩ |
    ⟨_, _, rfl, hstart⟩ | ⟨_, _, rfl, rfl⟩ | ⟨_, rfl, rfl⟩ | ⟨_, _, rfl, rfl⟩ | ⟨_, rfl, rfl⟩ | ⟨_, rfl, rfl⟩ |
    ⟨rfl, rfl⟩ | ⟨_, _, rfl, _, rfl⟩ | ⟨rfl, _, rfl⟩ | ⟨_, rfl, hstore⟩ | ⟨_, _, rfl, hstore⟩
  any_goals rfl
  · obtain ⟨_, _, _, _, rfl⟩ := (startDma_ok_iff op _ _ s t).1 hstart
    rfl
  · obtain ⟨_, rfl⟩ := (storeByte_ok_iff _ _ _ t).1 hstore
    rfl
  · obtain ⟨_, rfl⟩ := (storeByte_ok_iff _ _ _ t).1 hstore
    rfl

/-- Only a transfer moves the channel (R34). -/
theorem runAct_dstate (op : Instr) (act : Act) (s t : State) (h : runAct op act s = .ok t)
    (hact : isTransfer act = false) : t.dstate = s.dstate := by
  rcases runAct_ok_cases op act s t h with ⟨_, _, rfl⟩ | ⟨_, _, rfl⟩ | ⟨_, _, rfl⟩ | ⟨_, _, rfl⟩ | ⟨_, _, rfl⟩ |
    ⟨_, _, rfl⟩ | ⟨_, rfl⟩ | ⟨_, rfl⟩ | ⟨_, _, _, rfl⟩ | ⟨_, _, _, _, _, _, _, rfl⟩ | ⟨_, _, rfl, _⟩ |
    ⟨_, _, _, rfl⟩ | ⟨_, _, rfl⟩ | ⟨_, _, _, rfl⟩ | ⟨_, _, rfl⟩ | ⟨_, _, rfl⟩ | ⟨_, rfl⟩ | ⟨_, _, _, _, rfl⟩ |
    ⟨_, _, rfl⟩ | ⟨_, _, hstore⟩ | ⟨_, _, _, hstore⟩
  any_goals rfl
  · cases hact
  · obtain ⟨_, rfl⟩ := (storeByte_ok_iff _ _ _ t).1 hstore
    rfl
  · obtain ⟨_, rfl⟩ := (storeByte_ok_iff _ _ _ t).1 hstore
    rfl

/-- A step that needs the lock is an `Acquire` of the free lock, or a step of the host that holds it. -/
theorem runAct_needsLock (op : Instr) (act : Act) (s t : State) (h : runAct op act s = .ok t)
    (hact : needsLock act = true) : act = .acquire ∧ s.lock = false ∨ s.holder = .cons 0 := by
  rcases runAct_ok_cases op act s t h with ⟨ha, hl, _⟩ | ⟨_, hh, _⟩ | ⟨_, hh, _⟩ | ⟨_, hh, _⟩ | ⟨_, hh, _⟩ |
    ⟨_, hh, _⟩ | ⟨rfl, _⟩ | ⟨rfl, _⟩ | ⟨_, _, hh, _⟩ | ⟨_, _, _, _, _, hh, _, _⟩ | ⟨_, _, _, hstart⟩ |
    ⟨_, _, rfl, _⟩ | ⟨_, rfl, _⟩ | ⟨_, _, rfl, _⟩ | ⟨_, rfl, _⟩ | ⟨_, rfl, _⟩ | ⟨rfl, _⟩ | ⟨_, _, rfl, _, _⟩ |
    ⟨_, hh, _⟩ | ⟨_, rfl, _⟩ | ⟨_, _, rfl, _⟩
  any_goals cases hact
  · exact .inl ⟨ha, hl⟩
  any_goals (right; assumption)
  · exact .inr ((startDma_ok_iff op _ _ s t).1 hstart).1

/-- A step that needs no lock leaves its owner. -/
theorem ownerAfter_of_not_needsLock (act : Act) (o : Bool × Holder) (h : needsLock act = false) :
    ownerAfter act o = o := by
  unfold ownerAfter
  split
  · cases h
  · cases h
  · cases h
  · rfl

/-- A step that does not hand the lock to the channel keeps everyone else away from it. -/
theorem HostOrFree.ownerAfter {o : Bool × Holder} (ho : HostOrFree o) (act : Act) (hact : isTransfer act = false) :
    HostOrFree (ownerAfter act o) := by
  cases act with
  | acquire => exact .inr rfl
  | release => exact .inl rfl
  | startTransfer src len => cases hact
  | _ => exact ho

/-- R39 (i1) is kept by every step but a transfer. -/
theorem ownerAfter_free_iff (act : Act) (o : Bool × Holder) (hact : isTransfer act = false)
    (ho : o.1 = false ↔ o.2 = .none) : (ownerAfter act o).1 = false ↔ (ownerAfter act o).2 = .none := by
  cases act with
  | acquire => simp [ownerAfter]
  | release => simp [ownerAfter]
  | startTransfer src len => cases hact
  | _ => exact ho

/-- Where a step that needs the lock is taken, the lock is the host's or free. -/
theorem hostOrFree_of_needsLock (op : Instr) (act : Act) (s t : State) (h : runAct op act s = .ok t)
    (hact : needsLock act = true) (hs : s.lock = false ↔ s.holder = .none) : HostOrFree (owner s) := by
  rcases runAct_needsLock op act s t h hact with ⟨_, hl⟩ | hh
  · exact .inl (Prod.ext hl (hs.1 hl))
  · have hl : s.lock = true := by
      rw [← Bool.not_eq_false, hs, hh]
      simp
    exact .inr (Prod.ext hl hh)

/-! ### The lists of primitive steps -/

/-- The steps are one claim after the other: the first needs the lock, and none hands it to the channel. -/
def Claiming (acts : List Act) : Prop :=
  (∀ a ∈ acts.head?, needsLock a = true) ∧ ∀ a ∈ acts, isTransfer a = false

theorem claiming_nil : Claiming [] := ⟨by simp, by simp⟩

theorem Claiming.head {a : Act} {as : List Act} (h : Claiming (a :: as)) : needsLock a = true := h.1 a (by simp)

theorem Claiming.append {as bs : List Act} (ha : Claiming as) (hb : Claiming bs) : Claiming (as ++ bs) := by
  refine ⟨?_, by simpa [or_imp, forall_and] using ⟨ha.2, hb.2⟩⟩
  cases as with
  | nil => simpa using hb.1
  | cons a as => simpa using ha.1

/-- Steps that need no claim of their own, after a list that makes one. -/
theorem Claiming.extend {as bs : List Act} (ha : Claiming as) (hne : as ≠ []) (hb : ∀ b ∈ bs, isTransfer b = false) :
    Claiming (as ++ bs) := by
  obtain ⟨a, as, rfl⟩ := List.exists_cons_of_ne_nil hne
  exact ⟨by simpa using ha.head, fun x hx => (List.mem_append.1 hx).elim (ha.2 x) (hb x)⟩

theorem claiming_sendCommand (code : Byte) : Claiming (sendCommandActs code) := by
  simp [Claiming, sendCommandActs, needsLock, isTransfer]

theorem claiming_writeBytes (bs : List Byte) : Claiming (bs.map .writeByte) := by
  cases bs <;> simp [Claiming, needsLock, isTransfer]

theorem claiming_window (code : Byte) (start size : Nat) : Claiming (windowActs code start size) :=
  (claiming_sendCommand code).append (claiming_writeBytes [0, lowByte start, 0, lowByte (start + size - 1)])

theorem claiming_setWriteRegion (r : Region) : Claiming (setWriteRegionActs r) := by
  have hrequire : Claiming [.requireRegion r.x r.y r.w r.h] := by simp [Claiming, needsLock, isTransfer]
  exact hrequire.append (((claiming_window _ _ _).append (claiming_window _ _ _)).append (claiming_sendCommand _))

/-- The claim of a display operation, with the panel selected and the window set (R190, R198). -/
theorem claiming_openWindow (r : Region) : Claiming ([.acquire, .csSelect] ++ setWriteRegionActs r) := by
  have hclaim : Claiming [.acquire, .csSelect] := by simp [Claiming, needsLock, isTransfer]
  exact hclaim.append (claiming_setWriteRegion r)

theorem claiming_close : Claiming [.csDeselect, .release] := by
  simp [Claiming, needsLock, isTransfer]

theorem claiming_fillRect (r : Region) (c : Color12) : Claiming (fillRectActs r c) := by
  unfold fillRectActs
  split
  · exact claiming_nil
  · exact ((claiming_openWindow r).append (claiming_writeBytes _)).append claiming_close

theorem claiming_fillAll (rs : List Region) (c : Color12) : Claiming (fillAllActs rs c) := by
  induction rs with
  | nil => exact claiming_nil
  | cons r rs ih => exact (claiming_fillRect r c).append ih

theorem Claiming.whenDrawn {acts : List Act} (h : Claiming acts) (s : State) : Claiming (whenDrawn s acts) := by
  unfold Machine.whenDrawn
  split
  · exact h
  · exact claiming_nil

/-- An operation that can be preempted only where nobody but the host can be in possession of the lock: it has one
step, or its first or second step needs the lock and none hands it to the channel. -/
def Preemptible (acts : List Act) : Prop :=
  acts.length ≤ 1 ∨ (∃ a ∈ acts.take 2, needsLock a = true) ∧ ∀ a ∈ acts, isTransfer a = false

theorem Claiming.preemptible {acts : List Act} (h : Claiming acts) : Preemptible acts := by
  cases acts with
  | nil => exact .inl (by simp)
  | cons a as => exact .inr ⟨⟨a, by simp, h.head⟩, h.2⟩

/-- A setter: a store, then draw calls. -/
theorem Claiming.preemptible_cons {acts : List Act} (h : Claiming acts) (x : Act) (hx : isTransfer x = false) :
    Preemptible (x :: acts) := by
  cases acts with
  | nil => exact .inl (by simp)
  | cons a as => exact .inr ⟨⟨a, by simp, h.head⟩, by simpa [hx] using h.2⟩

/-- `DRAW_BORDER`: draw calls, then a store. -/
theorem Claiming.preemptible_concat {acts : List Act} (h : Claiming acts) (x : Act) (hx : isTransfer x = false) :
    Preemptible (acts ++ [x]) := by
  cases acts with
  | nil => exact .inl (by simp)
  | cons a as => exact .inr ⟨⟨a, by simp, h.head⟩, by simpa [hx, or_imp, forall_and] using h.2⟩

theorem claiming_paintSync (c : Config) (src : Addr) (clr : Bool) : Claiming (paintSyncActs c src clr) := by
  have hcompose : ∀ a ∈ [Act.compose src], isTransfer a = false := by simp [isTransfer]
  have hsend : Claiming (List.replicate (streamLen c) .sendStream) :=
    ⟨by simp [List.head?_replicate, needsLock], by simp [isTransfer]⟩
  have hclear : ∀ a ∈ clearActs c src clr, isTransfer a = false := by cases clr <;> simp [clearActs, isTransfer]
  exact ((((claiming_openWindow _).extend (by simp) hcompose).append hsend).append claiming_close).extend
    (by simp) hclear

/-- The primitive steps of `op`, without the operation they belong to. -/
@[simp] theorem stepsOf_map_act (op : Instr) (acts : List Act) : (stepsOf op acts).map (·.act) = acts := by
  simp [stepsOf, Function.comp_def]

theorem claiming_commandSteps (code : Byte) (ps : List Byte) :
    Claiming ((commandSteps code ps).map (·.act)) := by
  have hsteps : (commandSteps code ps).map (·.act) = sendCommandActs code ++ ps.map .writeByte := by
    simp [commandSteps, Function.comp_def]
  rw [hsteps]
  exact (claiming_sendCommand code).append (claiming_writeBytes ps)

/-- Every operation but a DMA `PAINT` can be preempted only inside its claims of the lock. -/
theorem execSteps_preemptible (i : Instr) (s : State)
    (hpaint : ∀ src clr, i = .paint src clr → s.cfg.transport = .sync) :
    Preemptible ((execSteps i s).map (·.act)) := by
  cases i with
  | sendCommand code =>
    rw [execSteps, stepsOf_map_act]
    exact (claiming_sendCommand _).preemptible
  | setWriteRegion x y w h =>
    rw [execSteps, stepsOf_map_act]
    exact (claiming_setWriteRegion _).preemptible
  | setBgColor v =>
    rw [execSteps, stepsOf_map_act]
    exact ((claiming_fillAll _ _).whenDrawn s).preemptible_cons _ rfl
  | setBorderLineColor v =>
    rw [execSteps, stepsOf_map_act]
    exact ((claiming_fillAll _ _).whenDrawn s).preemptible_cons _ rfl
  | setBorderFillColor v =>
    rw [execSteps, stepsOf_map_act]
    exact (((claiming_fillAll _ _).append (claiming_fillAll _ _)).whenDrawn s).preemptible_cons _ rfl
  | invert flag =>
    rw [execSteps, stepsOf_map_act]
    split
    · exact claiming_nil.preemptible
    · exact ((claiming_fillAll _ _).whenDrawn s).preemptible_cons _ rfl
  | paint src clr =>
    simp only [execSteps, hpaint src clr rfl, stepsOf_map_act]
    exact (claiming_paintSync _ _ _).preemptible
  | drawBorder =>
    rw [execSteps, stepsOf_map_act]
    exact ((((claiming_fillAll _ _).append (claiming_fillAll _ _)).append (claiming_fillAll _ _)).append
      (claiming_fillAll _ _)).preemptible_concat _ rfl
  | ledRender =>
    rw [execSteps, stepsOf_map_act]
    exact (claiming_fillAll _ _).preemptible
  | swreset | slpin | slpout | invoff | invon | dispoff | dispon | caset | raset | ramwr | madctl | colmod | frmctr1
    | gmctrp1 | gmctrn1 => exact (claiming_commandSteps _ _).preemptible
  | _ => exact .inl (by simp [execSteps])

/-- Once the first of several steps of such an operation is taken, the lock is the host's or free. -/
theorem hostOrFree_after_first (p q : PrimStep) (rest : List PrimStep) (s a t : State)
    (hpre : Preemptible ((p :: q :: rest).map (·.act))) (hs : s.lock = false ↔ s.holder = .none)
    (hp : runAct p.op p.act s = .ok a) (hrest : runAll (q :: rest) a = some t) :
    HostOrFree (owner a) ∧ ∀ r ∈ p :: q :: rest, isTransfer r.act = false := by
  rcases hpre with hlen | ⟨⟨x, hx, hneed⟩, hnone⟩
  · simp at hlen
  have htr : ∀ r ∈ p :: q :: rest, isTransfer r.act = false := fun r hr => hnone r.act (List.mem_map_of_mem hr)
  have hact := htr p List.mem_cons_self
  have howner := runAct_owner p.op p.act s a hp
  refine ⟨?_, htr⟩
  have hx : x = p.act ∨ x = q.act := by simpa using hx
  rcases hx with rfl | rfl
  · rw [howner]
    exact (hostOrFree_of_needsLock p.op p.act s a hp hneed hs).ownerAfter p.act hact
  · have ha : a.lock = false ↔ a.holder = .none := by
      have h := ownerAfter_free_iff p.act (owner s) hact hs
      rwa [← howner] at h
    simp only [runAll] at hrest
    split at hrest
    · exact hostOrFree_of_needsLock q.op q.act a _ ‹_› hneed ha
    · cases hrest

end Sys2Proof.Proofs
end

