-- ==== Sys2Proof/Proofs/Preemption.lean ====
section
/-! O59: a preempted operation ends as it does undisturbed. The undisturbed run is `runAll` of the operation's primitive
steps; while the preempted machine is inside the operation, its state is that of the undisturbed run but for what the
other consumers may write (`Follows`), every step of every agent keeps that (`Ongoing.step`), and the last primitive step
carries it over to the ends of both (`Ended`). -/

namespace Sys2Proof.Proofs

open Sys2Proof.Machine Sys2Proof.Laws

/-- `b` is `a` but for the lock, the script, the steps left and bytes of other consumers in the trace. -/
def Tracks (a b : State) : Prop :=
  ∃ l h w q ts, b = { a with lock := l, holder := h, wt := w, busy := q, turns := ts } ∧
    hostEvents w = hostEvents a.wt

/-- The update neither reads nor writes what `Tracks` leaves open. -/
def Neutral (f : State → State) : Prop :=
  ∀ s l h w q ts, f { s with lock := l, holder := h, wt := w, busy := q, turns := ts } =
    { f s with lock := l, holder := h, wt := w, busy := q, turns := ts }

namespace Tracks

variable {a b : State}

theorem of_turns (s : State) (ts us : List Turn) : Tracks { s with turns := ts } { s with turns := us } :=
  ⟨s.lock, s.holder, s.wt, s.busy, us, rfl, rfl⟩

theorem cfg (h : Tracks a b) : b.cfg = a.cfg := by
  obtain ⟨_, _, _, _, _, rfl, _⟩ := h
  rfl

theorem dstate (h : Tracks a b) : b.dstate = a.dstate := by
  obtain ⟨_, _, _, _, _, rfl, _⟩ := h
  rfl

theorem stream (h : Tracks a b) : b.stream = a.stream := by
  obtain ⟨_, _, _, _, _, rfl, _⟩ := h
  rfl

theorem mem (h : Tracks a b) : b.mem = a.mem := by
  obtain ⟨_, _, _, _, _, rfl, _⟩ := h
  rfl

theorem theme (h : Tracks a b) : b.theme = a.theme := by
  obtain ⟨_, _, _, _, _, rfl, _⟩ := h
  rfl

theorem cs (h : Tracks a b) : b.cs = a.cs := by
  obtain ⟨_, _, _, _, _, rfl, _⟩ := h
  rfl

theorem dc (h : Tracks a b) : b.dc = a.dc := by
  obtain ⟨_, _, _, _, _, rfl, _⟩ := h
  rfl

/-- The host sees the same in both where the same steps are left. -/
theorem hostView_eq (h : Tracks a b) (hbusy : b.busy = a.busy) : hostView b = hostView a := by
  obtain ⟨l, h, w, q, ts, rfl, hw⟩ := h
  obtain rfl : q = a.busy := hbusy
  simp [hostView, hw]

/-- What another consumer, or the sequencer's bookkeeping, does to `b`. -/
theorem disturb (h : Tracks a b) (l : Bool) (k : Holder) (q : List PrimStep) (ts : List Turn) :
    Tracks a { b with lock := l, holder := k, busy := q, turns := ts } := by
  obtain ⟨_, _, w, _, _, rfl, hw⟩ := h
  exact ⟨l, k, w, q, ts, rfl, hw⟩

/-- A byte of another consumer. -/
theorem emit_other (h : Tracks a b) (k : Nat) (c : CsLine) (d : DcLine) (x : Byte) :
    Tracks a (emit (.other k c d x) b) := by
  obtain ⟨l, h, w, q, ts, rfl, hw⟩ := h
  exact ⟨l, h, w ++ [.other k c d x], q, ts, rfl, by simp [hw]⟩

theorem neutral (h : Tracks a b) {f : State → State} (hf : Neutral f) : Tracks (f a) (f b) := by
  have hwt : (f a).wt = a.wt := (congrArg State.wt (hf a a.lock a.holder a.wt a.busy a.turns) :)
  obtain ⟨l, h, w, q, ts, rfl, hw⟩ := h
  exact ⟨l, h, w, q, ts, hf a l h w q ts, by rw [hwt, hw]⟩

theorem emit (h : Tracks a b) (e : Event) : Tracks (emit e a) (emit e b) := by
  obtain ⟨l, h, w, q, ts, rfl, hw⟩ := h
  exact ⟨l, h, w ++ [e], q, ts, rfl, by simp [hw]⟩

theorem emitByte (h : Tracks a b) (x : Byte) : Tracks (emitByte x a) (emitByte x b) := by
  rw [Machine.emitByte, Machine.emitByte, h.cs, h.dc]
  exact h.emit _

theorem setDc (h : Tracks a b) (m : DcLine) : Tracks (setDc m a) (setDc m b) :=
  (h.neutral (f := fun s => { s with dc := m }) fun _ _ _ _ _ _ => rfl).emit _

theorem setCs (h : Tracks a b) (c : CsLine) : Tracks (setCs c a) (setCs c b) :=
  (h.neutral (f := fun s => { s with cs := c }) fun _ _ _ _ _ _ => rfl).emit _

theorem setRst (h : Tracks a b) (r : RstLine) : Tracks (setRst r a) (setRst r b) :=
  (h.neutral (f := fun s => { s with rst := r }) fun _ _ _ _ _ _ => rfl).emit _

theorem takeLock (h : Tracks a b) (k : Holder) : Tracks (takeLock k a) (takeLock k b) := by
  obtain ⟨_, _, w, q, ts, rfl, hw⟩ := h
  exact ⟨true, k, w, q, ts, rfl, hw⟩

theorem freeLock (h : Tracks a b) : Tracks (freeLock a) (freeLock b) := by
  obtain ⟨_, _, w, q, ts, rfl, hw⟩ := h
  exact ⟨false, .none, w, q, ts, rfl, hw⟩

theorem finish (h : Tracks a b) : Tracks (finish a) (finish b) := by
  obtain ⟨l, h, w, _, ts, rfl, hw⟩ := h
  exact ⟨l, h, w, [], ts, rfl, hw⟩

/-- The pixels of a frame are those of the same memory, parameters and Theme (R192). -/
theorem framePixels_eq (h : Tracks a b) (buf : Addr) : framePixels b buf = framePixels a buf := by
  have hpixel : ∀ dx dy, pixelColor b buf dx dy = pixelColor a buf dx dy := fun dx dy => by
    simp [pixelColor, h.cfg, h.mem, h.theme]
  have hpixels : ∀ ns, composePixels b buf ns = composePixels a buf ns := fun ns => by
    induction ns with
    | nil => rfl
    | cons n ns ih => simp [composePixels, hpixel, ih, h.cfg]
  rw [framePixels, framePixels, hpixels, h.cfg]

theorem startDma (h : Tracks a b) (op : Instr) (src : Addr) (len : Count) (a' : State)
    (hown : owner b = owner a) (hok : startDma op src len a = .ok a') :
    ∃ b', startDma op src len b = .ok b' ∧ Tracks a' b' := by
  obtain ⟨hh, hidle, hch, hlen, rfl⟩ := (startDma_ok_iff op src len a a').1 hok
  obtain ⟨l, k, w, q, ts, rfl, hw⟩ := h
  obtain ⟨-, rfl⟩ : l = a.lock ∧ k = a.holder := by simpa [owner] using hown
  exact ⟨_, (startDma_ok_iff op src len _ _).2 ⟨hh, hidle, hch, hlen, rfl⟩, l, .dma, w, q, ts, rfl, hw⟩

theorem storeByte (h : Tracks a b) (p : Nat) (x : Byte) (a' : State) (hok : storeByte p x a = .ok a') :
    ∃ b', storeByte p x b = .ok b' ∧ Tracks a' b' := by
  obtain ⟨hadm, rfl⟩ := (storeByte_ok_iff p x a a').1 hok
  refine ⟨_, (storeByte_ok_iff p x b _).2 ⟨by rw [h.mem, hadm], rfl⟩, ?_⟩
  exact h.neutral (f := fun s => { s with mem := memWrite s.mem p x }) fun _ _ _ _ _ _ => rfl

/-- The bytes composed, less the first. -/
theorem streamTail (h : Tracks a b) :
    Tracks { a with stream := a.stream.tail } { b with stream := b.stream.tail } :=
  h.neutral (f := fun s => { s with stream := s.stream.tail }) fun _ _ _ _ _ _ => rfl

/-- A primitive step that is taken in `a` is taken in `b` with the same effect, if the lock has the same owner in both
or the step needs no lock. -/
theorem runAct (h : Tracks a b) (op : Instr) (act : Act) (a' : State)
    (hown : needsLock act = true → owner b = owner a) (hok : runAct op act a = .ok a') :
    ∃ b', runAct op act b = .ok b' ∧ Tracks a' b' := by
  have hlock : needsLock act = true → b.lock = a.lock := fun hn => congrArg Prod.fst (hown hn)
  have hheld : needsLock act = true → a.holder = .cons 0 → b.holder = .cons 0 := fun hn hh =>
    (congrArg Prod.snd (hown hn)).trans hh
  rcases runAct_ok_cases op act a a' hok with ⟨rfl, hl, rfl⟩ | ⟨rfl, hh, rfl⟩ | ⟨rfl, hh, rfl⟩ | ⟨rfl, hh, rfl⟩ |
    ⟨rfl, hh, rfl⟩ | ⟨rfl, hh, rfl⟩ | ⟨rfl, rfl⟩ | ⟨rfl, rfl⟩ | ⟨x, rfl, hh, rfl⟩ | ⟨x, y, w, z, rfl, hh, hin, rfl⟩ |
    ⟨src, len, rfl, hstart⟩ | ⟨r, c, rfl, rfl⟩ | ⟨f, rfl, rfl⟩ | ⟨ch, l, rfl, rfl⟩ | ⟨l, rfl, rfl⟩ | ⟨f, rfl, rfl⟩ |
    ⟨rfl, rfl⟩ | ⟨buf, ps, rfl, hps, rfl⟩ | ⟨rfl, hh, rfl⟩ | ⟨i, rfl, hstore⟩ | ⟨buf, i, rfl, hstore⟩
  · exact ⟨_, by simp [Machine.runAct, hlock rfl, hl], h.takeLock _⟩
  · exact ⟨_, by simp [Machine.runAct, hheld rfl hh], h.freeLock⟩
  · exact ⟨_, (underLock_ok_iff ..).2 ⟨hheld rfl hh, rfl⟩, h.setDc _⟩
  · exact ⟨_, (underLock_ok_iff ..).2 ⟨hheld rfl hh, rfl⟩, h.setDc _⟩
  · exact ⟨_, (underLock_ok_iff ..).2 ⟨hheld rfl hh, rfl⟩, h.setCs _⟩
  · exact ⟨_, (underLock_ok_iff ..).2 ⟨hheld rfl hh, rfl⟩, h.setCs _⟩
  · exact ⟨_, rfl, h.setRst _⟩
  · exact ⟨_, rfl, h.setRst _⟩
  · exact ⟨_, (underLock_ok_iff ..).2 ⟨hheld rfl hh, rfl⟩, h.emitByte _⟩
  · exact ⟨b, by simp [Machine.runAct, hheld rfl hh, h.cfg, hin], h⟩
  · exact h.startDma op src len a' (hown rfl) hstart
  · exact ⟨_, rfl, h.neutral (f := fun s => { s with theme := themeWrite s.theme r c }) fun _ _ _ _ _ _ => rfl⟩
  · exact ⟨_, rfl, h.neutral (f := fun s => { s with inverted := f, theme := themeSwap s.theme })
      fun _ _ _ _ _ _ => rfl⟩
  · exact ⟨_, rfl, h.neutral (f := fun s => { s with led := ledWrite s.led ch l }) fun _ _ _ _ _ _ => rfl⟩
  · exact ⟨_, rfl, h.neutral (f := fun s => { s with led := l }) fun _ _ _ _ _ _ => rfl⟩
  · exact ⟨_, rfl, h.neutral (f := fun s => { s with orient := f }) fun _ _ _ _ _ _ => rfl⟩
  · exact ⟨_, rfl, h.neutral (f := fun s => { s with borderDrawn := true }) fun _ _ _ _ _ _ => rfl⟩
  · refine ⟨{ b with stream := streamBytes ps }, by simp [Machine.runAct, h.framePixels_eq, hps], ?_⟩
    exact h.neutral (f := fun s => { s with stream := streamBytes ps }) fun _ _ _ _ _ _ => rfl
  · refine ⟨_, (underLock_ok_iff ..).2 ⟨hheld rfl hh, rfl⟩, ?_⟩
    rw [h.stream]
    have ht := h.streamTail
    rw [h.stream] at ht
    exact ht.emitByte _
  · have hs := h.streamTail.storeByte _ _ a' hstore
    rwa [← h.cfg, ← h.stream] at hs
  · exact h.storeByte _ _ a' hstore

/-- Steps that are all taken in `a` are all taken in `b`, if the lock has the same owner in both. -/
theorem runAll (h : Tracks a b) (ps : List PrimStep) (a' : State) (hown : owner b = owner a)
    (hok : runAll ps a = some a') : ∃ b', runAll ps b = some b' := by
  induction ps generalizing a b with
  | nil => exact ⟨b, rfl⟩
  | cons p ps ih =>
    simp only [Laws.runAll] at hok
    split at hok
    · rename_i a1 hact
      obtain ⟨b1, hb1, h1⟩ := h.runAct p.op p.act a1 (fun _ => hown) hact
      have hown1 : owner b1 = owner a1 := by
        rw [runAct_owner _ _ _ _ hb1, runAct_owner _ _ _ _ hact, hown]
      obtain ⟨b', hb'⟩ := ih h1 hown1 hok
      exact ⟨b', by rw [runAll_cons_ok p ps b b1 hb1, hb']⟩
    · cases hok

end Tracks

/-! ### The owner of the lock in both runs -/

/-- The lock as the undisturbed run leaves it, or claimed by another consumer where that run leaves it free (R158). -/
def SharedOwner (o u : Bool × Holder) : Prop :=
  u = o ∨ o = (false, .none) ∧ ∃ k, 1 ≤ k ∧ u = (true, .cons k)

/-- The state `b` of the preempted machine inside an operation, where the undisturbed run has come to `a`. -/
structure Follows (a b : State) : Prop where
  tracks : Tracks a b
  admitted : configOk a.cfg = true
  idle : a.dstate = .idle
  hostOrFree : HostOrFree (owner a)
  shared : SharedOwner (owner a) (owner b)

/-- The preempted operation has ended, where the undisturbed run's last primitive step led to `t`. -/
def Ended (t u : State) : Prop :=
  u.busy = [] ∧ Tracks (finish t) u ∧ SharedOwner (owner t) (owner u)

/-- The preempted operation is in progress: what is left of it leads the undisturbed run to `t`. -/
def Ongoing (t u : State) : Prop :=
  ∃ a, Follows a u ∧ u.busy ≠ [] ∧ (∀ p ∈ u.busy, isTransfer p.act = false) ∧ runAll u.busy a = some t

/-- The sequencer's bookkeeping. -/
theorem Follows.bookkeeping {a b : State} (h : Follows a b) (q : List PrimStep) (ts : List Turn) :
    Follows a { b with busy := q, turns := ts } :=
  ⟨h.tracks.disturb b.lock b.holder q ts, h.admitted, h.idle, h.hostOrFree, h.shared⟩

/-- A primitive step of the undisturbed run is taken in the preempted one, unless it waits for the lock. -/
theorem Follows.runAct {a b : State} (h : Follows a b) (op : Instr) (act : Act) (a' : State)
    (hact : isTransfer act = false) (hok : runAct op act a = .ok a') :
    runAct op act b = .wait ∨ ∃ b', runAct op act b = .ok b' ∧ Follows a' b' := by
  have taken : (needsLock act = true → owner b = owner a) →
      SharedOwner (ownerAfter act (owner a)) (ownerAfter act (owner b)) →
      ∃ b', Machine.runAct op act b = .ok b' ∧ Follows a' b' := fun hown hshared => by
    obtain ⟨b', hb', htracks⟩ := h.tracks.runAct op act a' hown hok
    rw [← runAct_owner op act a a' hok, ← runAct_owner op act b b' hb'] at hshared
    refine ⟨b', hb', htracks, ?_, ?_, ?_, hshared⟩
    · rw [runAct_cfg op act a a' hok, h.admitted]
    · rw [runAct_dstate op act a a' hok hact, h.idle]
    · rw [runAct_owner op act a a' hok]
      exact h.hostOrFree.ownerAfter act hact
  rcases h.shared with hown | ⟨hfree, k, hk, hother⟩
  · exact .inr (taken (fun _ => hown) (.inl (by rw [hown])))
  · cases hneed : needsLock act with
    | true =>
      have hlock : b.lock = true := congrArg Prod.fst hother
      have hholder : a.holder = .none := congrArg Prod.snd hfree
      rcases runAct_needsLock op act a a' hok hneed with ⟨rfl, _⟩ | hh
      · exact .inl (by simp [Machine.runAct, hlock])
      · rw [hholder] at hh
        cases hh
    | false =>
      refine .inr (taken (fun hn => by rw [hneed] at hn; cases hn) ?_)
      rw [ownerAfter_of_not_needsLock act _ hneed, ownerAfter_of_not_needsLock act _ hneed]
      exact h.shared

/-! ### The host's turns -/

theorem Follows.runRest {t : State} (ps : List PrimStep) {a b : State} (h : Follows a b)
    (hps : ∀ p ∈ ps, isTransfer p.act = false) (hall : runAll ps a = some t) :
    Ongoing t (runRest ps b) ∨ Ended t (runRest ps b) := by
  induction ps generalizing a b with
  | nil =>
    obtain rfl : a = t := by simpa using hall
    exact .inr ⟨rfl, h.tracks.finish, h.shared⟩
  | cons p ps ih =>
    have paused : Ongoing t { b with busy := p :: ps } :=
      ⟨a, h.bookkeeping (p :: ps) b.turns, List.cons_ne_nil p ps, hps, hall⟩
    unfold Machine.runRest
    split
    · exact .inl paused
    · rename_i b1 hturn
      obtain ⟨ts, rfl⟩ := hostTurn_some b b1 hturn
      have hhead := hps p List.mem_cons_self
      simp only [runAll] at hall
      split at hall
      · rename_i a1 hact
        rcases (h.bookkeeping b.busy ts).runAct p.op p.act a1 hhead hact with hwait | ⟨b2, hb2, h2⟩
        · simp only [hwait]
          exact .inl paused
        · simp only [hb2]
          exact ih h2 (fun r hr => hps r (List.mem_cons_of_mem p hr)) hall
      · cases hall

/-- The host goes on with the operation in progress, or finds the lock claimed and spins. -/
theorem Ongoing.runSteps {t u : State} (h : Ongoing t u) :
    ∃ v, runSteps u.busy u = .next v ∧ (Ongoing t v ∨ Ended t v) := by
  obtain ⟨a, hf, hbusy, hps, hall⟩ := id h
  obtain ⟨p, ps, hu⟩ := List.exists_cons_of_ne_nil hbusy
  rw [hu] at hps hall ⊢
  simp only [runAll] at hall
  split at hall
  · rename_i a1 hact
    rcases hf.runAct p.op p.act a1 (hps p List.mem_cons_self) hact with hwait | ⟨b1, hb1, h1⟩
    · refine ⟨u, ?_, .inl h⟩
      simp [Machine.runSteps, hwait, ← hu]
    · refine ⟨Machine.runRest ps b1, by simp [Machine.runSteps, hb1], ?_⟩
      exact h1.runRest ps (fun r hr => hps r (List.mem_cons_of_mem p hr)) hall
  · cases hall

theorem hostStep_of_busy (s : State) (h : s.busy ≠ []) : hostStep s = runSteps s.busy s := by
  obtain ⟨p, ps, hs⟩ := List.exists_cons_of_ne_nil h
  simp [hostStep, hs]

theorem Ongoing.hostStep {t u : State} (h : Ongoing t u) :
    ∃ v, hostStep u = .next v ∧ (Ongoing t v ∨ Ended t v) := by
  obtain ⟨_, _, hbusy, _⟩ := id h
  rw [hostStep_of_busy u hbusy]
  exact h.runSteps

/-! ### The turns of the other agents -/

/-- What keeps `Follows` and the steps left keeps the operation in progress. -/
theorem Ongoing.of_follows {t u v : State} (h : Ongoing t u) (hbusy : v.busy = u.busy)
    (hv : ∀ a, Follows a u → Follows a v) : Ongoing t v := by
  obtain ⟨a, hf, hne, hps, hall⟩ := h
  exact ⟨a, hv a hf, by rwa [hbusy], by rwa [hbusy], by rwa [hbusy]⟩

theorem Ongoing.withTurns {t u : State} (h : Ongoing t u) (ts : List Turn) : Ongoing t { u with turns := ts } :=
  h.of_follows rfl fun _ hf => hf.bookkeeping u.busy ts

/-- An idle channel makes no beat and asks for no interrupt (R174, R176). -/
theorem dmaBeat_of_idle (s : State) (h : s.dstate = .idle) : dmaBeat s = .next s := by
  simp [dmaBeat, beatEnabled, h]

theorem dmaIrq_of_idle (s : State) (h : s.dstate = .idle) : dmaIrq s = .next s := by
  simp [dmaIrq, irqEnabled, h]

theorem Ongoing.idle {t u : State} (h : Ongoing t u) : u.dstate = .idle := by
  obtain ⟨a, hf, _⟩ := h
  rw [hf.tracks.dstate, hf.idle]

theorem otherAcquire_busy (k : Nat) (s : State) : (otherAcquire k s).busy = s.busy := by
  unfold otherAcquire
  split <;> rfl

theorem otherByte_busy (k : Nat) (x : Byte) (s : State) : (otherByte k x s).busy = s.busy := by
  unfold otherByte
  split <;> rfl

theorem otherRelease_busy (k : Nat) (s : State) : (otherRelease k s).busy = s.busy := by
  unfold otherRelease
  split <;> rfl

/-- Another consumer claims a lock the host does not hold. -/
theorem Follows.otherAcquire {a b : State} (h : Follows a b) (k : Nat) : Follows a (otherAcquire k b) := by
  rcases otherAcquire_cases k b with he | ⟨hl, hk, he⟩
  · rwa [he]
  · have hk : 1 ≤ k := by
      simp [isConsumer] at hk
      omega
    have hlock : (owner b).1 = false := hl
    have hfree : owner a = (false, .none) := by
      rcases h.shared with hown | ⟨hfree, _⟩
      · rcases h.hostOrFree with hfree | hheld
        · exact hfree
        · rw [hown, hheld] at hlock
          cases hlock
      · exact hfree
    rw [he]
    exact ⟨h.tracks.disturb true (.cons k) b.busy b.turns, h.admitted, h.idle, h.hostOrFree,
      .inr ⟨hfree, k, hk, rfl⟩⟩

theorem Follows.otherByte {a b : State} (h : Follows a b) (k : Nat) (x : Byte) : Follows a (otherByte k x b) := by
  rcases otherByte_cases k x b with he | ⟨_, _, he⟩ <;> rw [he]
  · exact h
  · exact ⟨h.tracks.emit_other k b.cs b.dc x, h.admitted, h.idle, h.hostOrFree, h.shared⟩

/-- Another consumer gives the lock back. -/
theorem Follows.otherRelease {a b : State} (h : Follows a b) (k : Nat) : Follows a (otherRelease k b) := by
  rcases otherRelease_cases k b with he | ⟨hh, hk, he⟩
  · rwa [he]
  · have hk : k ≠ 0 := by
      simp [isConsumer] at hk
      omega
    have hholder : (owner b).2 = .cons k := hh
    have hfree : owner a = (false, .none) := by
      rcases h.shared with hown | ⟨hfree, _⟩
      · rcases h.hostOrFree with hfree | hheld
        · exact hfree
        · rw [hown, hheld] at hholder
          exact absurd (Holder.cons.inj hholder).symm hk
      · exact hfree
    rw [he]
    exact ⟨h.tracks.disturb false .none b.busy b.turns, h.admitted, h.idle, h.hostOrFree, .inl hfree.symm⟩

/-- The host processor stores nothing while it is inside an operation. -/
theorem Ongoing.hostStore {t u : State} (h : Ongoing t u) (p : Nat) (x : Byte) : hostStore p x u = u := by
  obtain ⟨_, _, hbusy, _⟩ := h
  rcases hostStore_cases p x u with he | ⟨hnil, _⟩
  · exact he
  · exact absurd hnil hbusy

theorem Ongoing.turnStep {t u : State} (h : Ongoing t u) (a : Turn) :
    ∃ v, turnStep a u = .next v ∧ (Ongoing t v ∨ Ended t v) := by
  cases a with
  | host => exact h.hostStep
  | dmaBeat => exact ⟨u, dmaBeat_of_idle u h.idle, .inl h⟩
  | dmaIrq => exact ⟨u, dmaIrq_of_idle u h.idle, .inl h⟩
  | oAcquire k =>
    exact ⟨_, rfl, .inl (h.of_follows (otherAcquire_busy k u) fun _ hf => hf.otherAcquire k)⟩
  | oByte k x =>
    exact ⟨_, rfl, .inl (h.of_follows (otherByte_busy k x u) fun _ hf => hf.otherByte k x)⟩
  | oRelease k =>
    exact ⟨_, rfl, .inl (h.of_follows (otherRelease_busy k u) fun _ hf => hf.otherRelease k)⟩
  | hostStore p x => exact ⟨u, by rw [Machine.turnStep, h.hostStore p x], .inl h⟩

/-- With no turn left: the host, or an idle channel. -/
theorem Ongoing.freeStep {t u : State} (h : Ongoing t u) :
    ∃ v, freeStep u = .next v ∧ (Ongoing t v ∨ Ended t v) := by
  unfold Machine.freeStep
  split
  · exact h.hostStep
  · split
    · exact ⟨u, dmaIrq_of_idle u h.idle, .inl h⟩
    · exact ⟨u, dmaBeat_of_idle u h.idle, .inl h⟩

theorem Ongoing.configOk {t u : State} (h : Ongoing t u) : configOk u.cfg = true := by
  obtain ⟨a, hf, _⟩ := h
  rw [hf.tracks.cfg, hf.admitted]

/-- No step of any agent fails inside the operation, which is then still in progress or has ended. -/
theorem Ongoing.step {t u : State} (h : Ongoing t u) :
    ∃ v, step u = .next v ∧ (Ongoing t v ∨ Ended t v) := by
  cases hts : u.turns with
  | nil =>
    rw [step_free u h.configOk hts]
    exact h.freeStep
  | cons a ts =>
    rw [step_turn u a ts h.configOk hts]
    exact (h.withTurns ts).turnStep a

/-- Steps of any number, as long as the operation is in progress. -/
theorem runMachine_ongoing {t : State} (n : Nat) (u : State) (h : Ongoing t u ∨ Ended t u) (hbusy : stillBusy n u) :
    ∃ v, runMachine n u = .next v ∧ (Ongoing t v ∨ Ended t v) := by
  induction n generalizing u with
  | zero => exact ⟨u, rfl, h⟩
  | succ n ih =>
    have hfirst : u.busy ≠ [] := by
      obtain ⟨v, hv, hne⟩ := hbusy 0 (by omega)
      obtain rfl : u = v := by simpa using hv
      exact hne
    rcases h with h | ⟨hnil, _⟩
    · obtain ⟨v, hv, hcases⟩ := h.step
      have hrest : stillBusy n v := fun m hm => by
        rw [← runMachine_succ m u v hv]
        exact hbusy (m + 1) (by omega)
      rw [runMachine_succ n u v hv]
      exact ih v hcases hrest
    · exact absurd hnil hfirst

/-- With the script used up and no other consumer in possession of the lock, the next step ends the operation. -/
theorem Ongoing.ends {t u : State} (h : Ongoing t u) (hts : u.turns = []) (hfree : u.lock = false ∨ u.holder = .cons 0) :
    ∃ v, Machine.step u = .next v ∧ v.busy = [] := by
  have hok := h.configOk
  obtain ⟨a, hf, hbusy, _, hall⟩ := h
  have hown : owner u = owner a := by
    rcases hf.shared with hown | ⟨_, k, hk, hother⟩
    · exact hown
    · have hl : u.lock = true := congrArg Prod.fst hother
      have hh : u.holder = .cons k := congrArg Prod.snd hother
      simp [hl, hh] at hfree
      omega
  obtain ⟨b, hb⟩ := hf.tracks.runAll u.busy t hown hall
  have hcan : hostCanStep u = true := by
    obtain ⟨p, ps, hu⟩ := List.exists_cons_of_ne_nil hbusy
    rw [hu] at hb
    have hwait : ¬(p.act = .acquire ∧ u.lock = true) := fun ⟨hp, hl⟩ => by
      simp [runAll, Machine.runAct, hp, hl] at hb
    simpa [hostCanStep, blocked, hu, or_iff_not_imp_left] using hwait
  refine ⟨Machine.finish b, ?_, rfl⟩
  rw [step_free u hok hts, Machine.freeStep, if_pos hcan, hostStep_of_busy u hbusy,
    runSteps_complete u.busy u b hts hb]

/-! ### The operation as a whole -/

/-- With an empty script, an operation that has ended has taken all its primitive steps. -/
theorem runAll_of_runRest (ps : List PrimStep) (s : State) (hts : s.turns = []) (h : (runRest ps s).busy = []) :
    ∃ t, runAll ps s = some t ∧ runRest ps s = finish t := by
  induction ps generalizing s with
  | nil => exact ⟨s, rfl, rfl⟩
  | cons p ps ih =>
    simp only [runRest, hostTurn_nil s hts] at h ⊢
    split at h
    · rename_i s' hact
      rw [runAll_cons_ok p ps s s' hact]
      exact ih s' (by rw [runAct_turns p.op p.act s s' hact, hts]) h
    · cases h

theorem runAll_of_runSteps (ps : List PrimStep) (s t : State) (hts : s.turns = [])
    (h : runSteps ps s = .next t) (hbusy : t.busy = []) : ∃ t', runAll ps s = some t' ∧ t = finish t' := by
  rcases runSteps_next_cases ps s t h with ⟨rfl, rfl⟩ | ⟨p, rest, s', rfl, hact, rfl⟩ | ⟨p, rest, rfl, _, rfl⟩
  · exact ⟨s, rfl, rfl⟩
  · rw [runAll_cons_ok p rest s s' hact]
    exact runAll_of_runRest rest s' (by rw [runAct_turns p.op p.act s s' hact, hts]) hbusy
  · cases hbusy

/-- An operation that undisturbed takes all its steps starts under any script, its first step as in the undisturbed
run. -/
theorem runSteps_preempted (ps : List PrimStep) (s t : State) (ts : List Turn)
    (hpre : Preemptible (ps.map (·.act))) (hok : configOk s.cfg = true) (hlock : s.lock = false ↔ s.holder = .none)
    (hidle : s.dstate = .idle) (hall : runAll ps { s with turns := [] } = some t) :
    ∃ v, runSteps ps { s with turns := ts } = .next v ∧ (Ongoing t v ∨ Ended t v) := by
  have htracks := Tracks.of_turns s [] ts
  cases ps with
  | nil =>
    obtain rfl : { s with turns := [] } = t := by simpa using hall
    exact ⟨_, rfl, .inr ⟨rfl, htracks.finish, .inl rfl⟩⟩
  | cons p rest =>
    simp only [runAll] at hall
    split at hall
    · rename_i a hact
      obtain ⟨b, hb, htracks⟩ := htracks.runAct p.op p.act a (fun _ => rfl) hact
      have hown : owner b = owner a := by rw [runAct_owner _ _ _ _ hb, runAct_owner _ _ _ _ hact]; rfl
      refine ⟨runRest rest b, by simp [runSteps, hb], ?_⟩
      cases rest with
      | nil =>
        obtain rfl : a = t := by simpa using hall
        exact .inr ⟨rfl, htracks.finish, .inl hown⟩
      | cons q rest =>
        obtain ⟨hhost, hnone⟩ := hostOrFree_after_first p q rest { s with turns := [] } a t hpre hlock hact hall
        have hf : Follows a b := by
          refine ⟨htracks, ?_, ?_, hhost, .inl hown⟩
          · rw [runAct_cfg _ _ _ _ hact]
            exact hok
          · rw [runAct_dstate _ _ _ _ hact (hnone p List.mem_cons_self)]
            exact hidle
        exact hf.runRest (q :: rest) (fun r hr => hnone r (List.mem_cons_of_mem p hr)) hall
    · cases hall

/-- At the end the host sees what it sees after the undisturbed run, and the lock is as that run leaves it or claimed
by another consumer. -/
theorem Ended.hostView_eq {t u : State} (h : Ended t u) :
    hostView u = hostView (finish t) ∧
      (u.lock = (finish t).lock ∧ u.holder = (finish t).holder ∨
        (finish t).lock = false ∧ u.lock = true ∧ ∃ k, 1 ≤ k ∧ u.holder = .cons k) := by
  obtain ⟨hbusy, htracks, hown | ⟨hfree, k, hk, hother⟩⟩ := h
  · exact ⟨htracks.hostView_eq hbusy, .inl ⟨congrArg Prod.fst hown, congrArg Prod.snd hown⟩⟩
  · exact ⟨htracks.hostView_eq hbusy,
      .inr ⟨congrArg Prod.fst hfree, congrArg Prod.fst hother, k, hk, congrArg Prod.snd hother⟩⟩

/-- Settles O59, by a simulation: the preempted run follows the undisturbed one, step by step of any agent. -/
theorem preemptedOperationsEndTheSame : Obligations.PreemptedOperationsEndTheSame := by
  unfold Obligations.PreemptedOperationsEndTheSame
  intro i s t ts hok hlock hidle hpaint hexec hbusy
  obtain ⟨hadmitted, hrun⟩ := exec_next i _ t hexec
  rw [execSteps_turns] at hrun
  obtain ⟨t, hall, rfl⟩ := runAll_of_runSteps _ _ t rfl hrun hbusy
  obtain ⟨s1, hs1, hstart⟩ :=
    runSteps_preempted _ s t ts (execSteps_preemptible i s hpaint) hok hlock hidle hall
  refine ⟨s1, ?_, fun n hn => ?_⟩
  · rw [exec_eq_runSteps i { s with turns := ts } hadmitted, execSteps_turns, hs1]
  · obtain ⟨u, hu, hcases⟩ := runMachine_ongoing n s1 hstart hn
    refine ⟨u, hu, ?_⟩
    rcases hcases with hongoing | hended
    · obtain ⟨_, _, hne, _⟩ := id hongoing
      exact ⟨fun hnil => absurd hnil hne, fun _ => hongoing.ends⟩
    · exact ⟨fun _ => hended.hostView_eq, fun hne => absurd hended.1 hne⟩

end Sys2Proof.Proofs
end

