-- ==== Sys2Proof/Proofs/Writers.lean ====
section
/-! O54: who writes which part of the record of R20. Each primitive step names the parts it writes (`writes`), each
operation those its steps write (`mayWrite`); a part outside the list is the same after the operation as before it. -/

namespace Sys2Proof.Proofs

open Sys2Proof.Machine Sys2Proof.Laws

/-- A part of the state with its own list of writers (R20). The lock and the lines of the bus are not among them. -/
inductive Part where
  | rst
  | theme
  | inverted
  | led
  | orient
  | borderDrawn
  /-- `TD`, `DSTATE`, `CH_EN`, `IRQ_EN` and the mark that `TD.SRC` has passed the end. -/
  | channel
  /-- `MEM` and the bytes a `PAINT` has composed. -/
  | memory
deriving DecidableEq

/-- The part has the same value in both states. -/
def Part.Same (part : Part) (s t : State) : Prop :=
  match part with
  | .rst => t.rst = s.rst
  | .theme => t.theme = s.theme
  | .inverted => t.inverted = s.inverted
  | .led => t.led = s.led
  | .orient => t.orient = s.orient
  | .borderDrawn => t.borderDrawn = s.borderDrawn
  | .channel =>
    t.td = s.td ∧ t.dstate = s.dstate ∧ t.chEn = s.chEn ∧ t.irqEn = s.irqEn ∧ t.srcPast = s.srcPast
  | .memory => t.mem = s.mem ∧ t.stream = s.stream

theorem Part.Same.refl (part : Part) (s : State) : part.Same s s := by
  cases part <;> simp [Part.Same]

theorem Part.Same.trans {part : Part} {s t u : State} (h : part.Same s t) (h' : part.Same t u) : part.Same s u := by
  cases part <;> simp_all [Part.Same]

/-- The sequencer's bookkeeping belongs to no part. -/
theorem Part.Same.bookkeeping {part : Part} {s t : State} (h : part.Same s t) (qs : List PrimStep) (ts : List Turn)
    (n : Nat) : part.Same s { t with busy := qs, turns := ts, opi := n } := by
  cases part <;> exact h

/-- The parts a primitive step writes. -/
def writes : Act → List Part
  | .rstAssert | .rstRelease => [.rst]
  | .startTransfer _ _ => [.channel]
  | .setTheme _ _ => [.theme]
  | .swapTheme _ => [.theme, .inverted]
  | .setLed _ _ | .setLeds _ => [.led]
  | .setOrient _ => [.orient]
  | .setBorderDrawn => [.borderDrawn]
  | .compose _ | .sendStream | .storeStream _ | .clearByte _ _ => [.memory]
  | .acquire | .release | .cmdMode | .dataMode | .csSelect | .csDeselect | .writeByte _ | .requireRegion _ _ _ _ => []

/-- A primitive step leaves every part it does not write. -/
theorem runAct_same (part : Part) (op : Instr) (act : Act) (s t : State) (h : runAct op act s = .ok t)
    (hpart : part ∉ writes act) : part.Same s t := by
  rcases runAct_ok_cases op act s t h with ⟨rfl, _, rfl⟩ | ⟨rfl, _, rfl⟩ | ⟨rfl, _, rfl⟩ | ⟨rfl, _, rfl⟩ |
    ⟨rfl, _, rfl⟩ | ⟨rfl, _, rfl⟩ | ⟨rfl, rfl⟩ | ⟨rfl, rfl⟩ | ⟨_, rfl, _, rfl⟩ | ⟨_, _, _, _, rfl, _, _, rfl⟩ |
    ⟨_, _, rfl, hstart⟩ | ⟨_, _, rfl, rfl⟩ | ⟨_, rfl, rfl⟩ | ⟨_, _, rfl, rfl⟩ | ⟨_, rfl, rfl⟩ | ⟨_, rfl, rfl⟩ |
    ⟨rfl, rfl⟩ | ⟨_, _, rfl, _, rfl⟩ | ⟨rfl, _, rfl⟩ | ⟨_, rfl, hstore⟩ | ⟨_, _, rfl, hstore⟩
  on_goal 11 => obtain ⟨_, _, _, _, rfl⟩ := (startDma_ok_iff op _ _ s t).1 hstart
  on_goal 20 => obtain ⟨_, rfl⟩ := (storeByte_ok_iff _ _ _ t).1 hstore
  on_goal 21 => obtain ⟨_, rfl⟩ := (storeByte_ok_iff _ _ _ t).1 hstore
  all_goals cases part <;> simp_all [Part.Same, writes]

/-- Primitive steps leave every part that none of them writes. -/
theorem runSteps_same (part : Part) (ps : List PrimStep) (s t : State) (h : runSteps ps s = .next t)
    (hpart : ∀ p ∈ ps, part ∉ writes p.act) : part.Same s t :=
  runSteps_keeps (part.Same s) ps s t h
    (fun p hp u v hu huv => hu.trans (runAct_same part p.op p.act u v huv (hpart p hp)))
    (fun u ts hu => hu.bookkeeping u.busy ts u.opi) (fun u qs hu => hu.bookkeeping qs u.turns u.opi)
    (fun u hu => hu.bookkeeping [] u.turns (u.opi + 1)) (.refl part s)

/-! ### The lists of primitive steps -/

/-- Every step of the list writes only parts listed. -/
def WritesOnly (parts : List Part) (acts : List Act) : Prop := ∀ a ∈ acts, writes a ⊆ parts

theorem WritesOnly.append {parts : List Part} {as bs : List Act} (ha : WritesOnly parts as)
    (hb : WritesOnly parts bs) : WritesOnly parts (as ++ bs) :=
  fun a h => (List.mem_append.1 h).elim (ha a) (hb a)

theorem WritesOnly.cons {parts : List Part} {a : Act} {as : List Act} (ha : writes a ⊆ parts)
    (has : WritesOnly parts as) : WritesOnly parts (a :: as) :=
  List.forall_mem_cons.2 ⟨ha, has⟩

theorem writesOnly_nil (parts : List Part) : WritesOnly parts [] := by simp [WritesOnly]

section Bus

variable (parts : List Part)

theorem writesOnly_claim : WritesOnly parts [.acquire, .csSelect] := by simp [WritesOnly, writes]

theorem writesOnly_close : WritesOnly parts [.csDeselect, .release] := by simp [WritesOnly, writes]

theorem writesOnly_writeBytes (bs : List Byte) : WritesOnly parts (bs.map .writeByte) := by
  simp [WritesOnly, writes]

theorem writesOnly_sendCommand (code : Byte) : WritesOnly parts (sendCommandActs code) := by
  simp [WritesOnly, sendCommandActs, writes]

theorem writesOnly_window (code : Byte) (start size : Nat) : WritesOnly parts (windowActs code start size) :=
  (writesOnly_sendCommand parts code).append
    (writesOnly_writeBytes parts [0, lowByte start, 0, lowByte (start + size - 1)])

theorem writesOnly_setWriteRegion (r : Region) : WritesOnly parts (setWriteRegionActs r) :=
  .cons (by simp [writes]) (((writesOnly_window parts _ _ _).append (writesOnly_window parts _ _ _)).append
    (writesOnly_sendCommand parts _))

theorem writesOnly_fillRect (r : Region) (c : Color12) : WritesOnly parts (fillRectActs r c) := by
  unfold fillRectActs
  split
  · exact writesOnly_nil parts
  · exact (((writesOnly_claim parts).append (writesOnly_setWriteRegion parts r)).append
      (writesOnly_writeBytes parts _)).append (writesOnly_close parts)

theorem writesOnly_fillAll (rs : List Region) (c : Color12) : WritesOnly parts (fillAllActs rs c) := by
  induction rs with
  | nil => exact writesOnly_nil parts
  | cons r rs ih => exact (writesOnly_fillRect parts r c).append ih

theorem writesOnly_commandSteps (code : Byte) (ps : List Byte) :
    WritesOnly parts ((commandSteps code ps).map (·.act)) := by
  have hsteps : (commandSteps code ps).map (·.act) = sendCommandActs code ++ ps.map .writeByte := by
    simp [commandSteps, Function.comp_def]
  rw [hsteps]
  exact (writesOnly_sendCommand parts code).append (writesOnly_writeBytes parts ps)

end Bus

theorem WritesOnly.whenDrawn {parts : List Part} {acts : List Act} (h : WritesOnly parts acts) (s : State) :
    WritesOnly parts (whenDrawn s acts) := by
  unfold Machine.whenDrawn
  split
  · exact h
  · exact writesOnly_nil parts

theorem writesOnly_clear (c : Config) (src : Addr) (clr : Bool) :
    WritesOnly [.channel, .memory] (clearActs c src clr) := by
  cases clr <;> simp [WritesOnly, clearActs, writes]

theorem writesOnly_paintSync (c : Config) (src : Addr) (clr : Bool) :
    WritesOnly [.channel, .memory] (paintSyncActs c src clr) := by
  have hcompose : WritesOnly [.channel, .memory] [.compose src] := by simp [WritesOnly, writes]
  have hsend : WritesOnly [.channel, .memory] (List.replicate (streamLen c) .sendStream) := by
    simp [WritesOnly, writes]
  exact (((((writesOnly_claim _).append (writesOnly_setWriteRegion _ _)).append hcompose).append hsend).append
    (writesOnly_close _)).append (writesOnly_clear c src clr)

theorem writesOnly_paintDma (c : Config) (src : Addr) (clr : Bool) :
    WritesOnly [.channel, .memory] (paintDmaActs c src clr) := by
  have hcompose : WritesOnly [.channel, .memory] [.acquire, .compose src] := by simp [WritesOnly, writes]
  have hstore : WritesOnly [.channel, .memory] ((List.range (streamLen c)).map .storeStream) := by
    simp [WritesOnly, writes]
  have hselect : WritesOnly [.channel, .memory] [.csSelect] := by simp [WritesOnly, writes]
  have hstart : WritesOnly [.channel, .memory] [.startTransfer c.streamBase (BitVec.ofNat 24 (streamLen c))] := by
    simp [WritesOnly, writes]
  exact ((((hcompose.append hstore).append hselect).append (writesOnly_setWriteRegion _ _)).append hstart).append
    (writesOnly_clear c src clr)

/-- The parts an operation may write: the column "written by" of R20, read by operation. -/
def mayWrite : Instr → List Part
  | .rstAssert | .rstRelease => [.rst]
  | .setPixelColor _ | .setBgColor _ | .setBorderLineColor _ | .setBorderFillColor _ => [.theme]
  | .invert _ => [.theme, .inverted]
  | .ledSetChannel _ _ | .ledSetAll _ _ _ | .ledSetDigital _ _ => [.led]
  | .setOrient _ => [.orient]
  | .drawBorder => [.borderDrawn]
  | .startTransfer _ _ => [.channel]
  | .paint _ _ => [.channel, .memory]
  | .acquire | .release | .cmdMode | .dataMode | .writeByte _ | .sendCommand _ | .setWriteRegion _ _ _ _ | .csSelect
    | .csDeselect | .ledRender => []
  | .swreset | .slpin | .slpout | .invoff | .invon | .dispoff | .dispon | .caset _ _ | .raset _ _ | .ramwr | .madctl _
    | .colmod _ | .frmctr1 _ _ _ | .gmctrp1 _ | .gmctrn1 _ => []

/-- The primitive steps of an operation write only what the operation may write. -/
theorem execSteps_writesOnly (i : Instr) (s : State) : WritesOnly (mayWrite i) ((execSteps i s).map (·.act)) := by
  cases i with
  | sendCommand code =>
    rw [execSteps, stepsOf_map_act]
    exact writesOnly_sendCommand _ _
  | setWriteRegion x y w h =>
    rw [execSteps, stepsOf_map_act]
    exact writesOnly_setWriteRegion _ _
  | setBgColor v =>
    rw [execSteps, stepsOf_map_act]
    exact ((writesOnly_fillAll _ _ _).whenDrawn s).cons (List.Subset.refl _)
  | setBorderLineColor v =>
    rw [execSteps, stepsOf_map_act]
    exact ((writesOnly_fillAll _ _ _).whenDrawn s).cons (List.Subset.refl _)
  | setBorderFillColor v =>
    rw [execSteps, stepsOf_map_act]
    exact (((writesOnly_fillAll _ _ _).append (writesOnly_fillAll _ _ _)).whenDrawn s).cons (List.Subset.refl _)
  | invert flag =>
    rw [execSteps, stepsOf_map_act]
    split
    · exact writesOnly_nil _
    · exact ((writesOnly_fillAll _ _ _).whenDrawn s).cons (List.Subset.refl _)
  | paint src clr =>
    cases ht : s.cfg.transport with
    | sync =>
      simp only [execSteps, ht, stepsOf_map_act]
      exact writesOnly_paintSync _ _ _
    | dma =>
      simp only [execSteps, ht, stepsOf_map_act]
      exact writesOnly_paintDma _ _ _
  | drawBorder =>
    have hmark : WritesOnly (mayWrite .drawBorder) [.setBorderDrawn] := by simp [WritesOnly, writes, mayWrite]
    rw [execSteps, stepsOf_map_act]
    exact ((((writesOnly_fillAll _ _ _).append (writesOnly_fillAll _ _ _)).append (writesOnly_fillAll _ _ _)).append
      (writesOnly_fillAll _ _ _)).append hmark
  | ledRender =>
    rw [execSteps, stepsOf_map_act]
    exact writesOnly_fillAll _ _ _
  | swreset | slpin | slpout | invoff | invon | dispoff | dispon | caset | raset | ramwr | madctl | colmod | frmctr1
    | gmctrp1 | gmctrn1 => exact writesOnly_commandSteps _ _ _
  | _ => simp [execSteps, WritesOnly, writes, mayWrite]

/-- An operation, completed, waiting or preempted, leaves every part it may not write. -/
theorem exec_same (part : Part) (i : Instr) (s t : State) (h : exec i s = .next t) (hpart : part ∉ mayWrite i) :
    part.Same s t := by
  obtain ⟨_, hrun⟩ := exec_next i s t h
  exact runSteps_same part _ s t hrun fun p hp hw =>
    hpart (execSteps_writesOnly i s p.act (List.mem_map_of_mem hp) hw)

/-- What no operation writes at all: the parameters, the program, `IRQ_PEND`, the counter of free values. -/
theorem exec_frame (i : Instr) (s t : State) (h : exec i s = .next t) :
    t.cfg = s.cfg ∧ t.prog = s.prog ∧ t.irqPend = s.irqPend ∧ t.freeIdx = s.freeIdx := by
  obtain ⟨_, hrun⟩ := exec_next i s t h
  refine runSteps_keeps (fun u => u.cfg = s.cfg ∧ u.prog = s.prog ∧ u.irqPend = s.irqPend ∧ u.freeIdx = s.freeIdx)
    _ s t hrun (fun p _ u v hu huv => ?_) (fun _ _ hu => hu) (fun _ _ hu => hu) (fun _ hu => hu) ⟨rfl, rfl, rfl, rfl⟩
  obtain ⟨hcfg, hprog, _, _, _, hpend, hidx⟩ := runAct_frame p.op p.act u v huv
  rwa [hcfg, hprog, hpend, hidx]

/-- Settles O54: the list of writers of each part (`mayWrite`) against the one the statement excludes. -/
theorem onlyTheirWritersWriteTheFields : Obligations.OnlyTheirWritersWriteTheFields := by
  unfold Obligations.OnlyTheirWritersWriteTheFields
  intro i s t h
  obtain ⟨hcfg, hprog, hpend, hidx⟩ := exec_frame i s t h
  have same : ∀ part : Part, part ∉ mayWrite i → part.Same s t := fun part => exec_same part i s t h
  refine ⟨hcfg, hprog, hpend, hidx, fun hi => same .rst ?_, fun hi => same .theme ?_, fun hi => same .inverted ?_,
    fun hi => same .led ?_, fun hi => same .orient ?_, fun hi => same .borderDrawn ?_, fun hi => same .channel ?_,
    fun hi => same .memory ?_⟩
  all_goals cases i <;> simp_all [mayWrite]

end Sys2Proof.Proofs
end

