-- ==== Sys2Proof/Proofs/EveryStep.lean ====
section
/-! What has to be shown of a predicate so that every step of every agent keeps it, packaged once; and O53, for which
that is enough with what a primitive step writes. -/

namespace Sys2Proof.Proofs

open Sys2Proof.Machine Sys2Proof.Laws

/-- The predicate is kept by each thing an agent can do (R5): a primitive step of the host, the sequencer's
bookkeeping, a beat, the completion handler, another consumer's three steps, a store of the host processor. -/
structure KeptByAgents (P : State → Prop) : Prop where
  act : ∀ op act s t, P s → runAct op act s = .ok t → P t
  bookkeeping : ∀ s qs ts n, P s → P { s with busy := qs, turns := ts, opi := n }
  beat : ∀ s b, P s → beatEnabled s = true → P (countBeat (advanceSource (emitByte b s)))
  handler : ∀ s, P s → irqEnabled s = true → P (takeCompletion s)
  otherAcquire : ∀ s k, P s → s.lock = false → P (takeLock (.cons k) s)
  otherByte : ∀ s k b, P s → P (emit (.other k s.cs s.dc b) s)
  otherRelease : ∀ s k, P s → s.holder = .cons k → P (freeLock s)
  store : ∀ s m, P s → P { s with mem := m }

namespace KeptByAgents

variable {P : State → Prop}

theorem runSteps (hP : KeptByAgents P) (ps : List PrimStep) (s t : State) (h : runSteps ps s = .next t) (hs : P s) :
    P t :=
  runSteps_keeps P ps s t h (fun p _ u v hu huv => hP.act p.op p.act u v hu huv)
    (fun u ts hu => hP.bookkeeping u u.busy ts u.opi hu) (fun u qs hu => hP.bookkeeping u qs u.turns u.opi hu)
    (fun u hu => hP.bookkeeping u [] u.turns (u.opi + 1) hu) hs

theorem hostStep (hP : KeptByAgents P) (s t : State) (h : hostStep s = .next t) (hs : P s) : P t := by
  rcases hostStep_next_runSteps s t h with rfl | ⟨ps, hrun⟩
  · exact hs
  · exact hP.runSteps ps s t hrun hs

theorem dmaBeat (hP : KeptByAgents P) (s t : State) (h : dmaBeat s = .next t) (hs : P s) : P t := by
  rcases dmaBeat_next_cases s t h with ⟨_, rfl⟩ | ⟨b, hbeat, _, _, _, rfl⟩
  · exact hs
  · exact hP.beat s b hs hbeat

theorem dmaIrq (hP : KeptByAgents P) (s t : State) (h : dmaIrq s = .next t) (hs : P s) : P t := by
  rcases dmaIrq_next_cases s t h with ⟨_, rfl⟩ | ⟨hirq, rfl⟩
  · exact hs
  · exact hP.handler s hs hirq

theorem turnStep (hP : KeptByAgents P) (a : Turn) (s t : State) (h : turnStep a s = .next t) (hs : P s) : P t := by
  rcases turnStep_next_cases a s t h with ⟨_, h⟩ | ⟨_, h⟩ | ⟨_, h⟩ | ⟨k, _, rfl⟩ | ⟨k, b, _, rfl⟩ | ⟨k, _, rfl⟩ |
    ⟨p, b, _, rfl⟩
  · exact hP.hostStep s t h hs
  · exact hP.dmaBeat s t h hs
  · exact hP.dmaIrq s t h hs
  · rcases otherAcquire_cases k s with he | ⟨hlock, _, he⟩ <;> rw [he]
    exacts [hs, hP.otherAcquire s k hs hlock]
  · rcases otherByte_cases k b s with he | ⟨_, _, he⟩ <;> rw [he]
    exacts [hs, hP.otherByte s k b hs]
  · rcases otherRelease_cases k s with he | ⟨hheld, _, he⟩ <;> rw [he]
    exacts [hs, hP.otherRelease s k hs hheld]
  · rcases hostStore_cases p b s with he | ⟨_, _, he⟩ <;> rw [he]
    exacts [hs, hP.store s _ hs]

/-- Whoever's turn it is, the step keeps the predicate. -/
theorem step (hP : KeptByAgents P) (s t : State) (h : step s = .next t) (hs : P s) : P t := by
  obtain ⟨_, ⟨a, ts, _, hturn⟩ | ⟨_, _, hhost⟩ | ⟨_, _, _, hirq⟩ | ⟨_, _, _, hbeat⟩⟩ := step_next_cases s t h
  · exact hP.turnStep a _ t hturn (hP.bookkeeping s s.busy ts s.opi hs)
  · exact hP.hostStep s t hhost hs
  · exact hP.dmaIrq s t hirq hs
  · exact hP.dmaBeat s t hbeat hs

end KeptByAgents

/-- A beat's increment moves `TD.SRC`, the model's mark and its counter of free values, and nothing else (R174). -/
theorem advanceSource_eq (s : State) :
    ∃ src past n, advanceSource s = { s with td := { s.td with src := src }, srcPast := past, freeIdx := n } := by
  rcases advanceSource_cases s with he | he | he
  · exact ⟨s.td.src, s.srcPast, s.freeIdx, he⟩
  · exact ⟨_, s.srcPast, s.freeIdx, he⟩
  · exact ⟨_, _, _, he⟩

/-- `BORDER_DRAWN` is written only by the step that sets it (R32, R230). -/
theorem runAct_borderDrawn (op : Instr) (act : Act) (s t : State) (hs : s.borderDrawn = true)
    (h : runAct op act s = .ok t) : t.borderDrawn = true := by
  by_cases hact : act = .setBorderDrawn
  · subst hact
    obtain rfl : { s with borderDrawn := true } = t := by simpa [runAct] using h
    rfl
  · have hsame : t.borderDrawn = s.borderDrawn :=
      runAct_same .borderDrawn op act s t h (by cases act <;> simp_all [writes])
    rw [hsame, hs]

/-- `IRQ_EN` is written only by the step that starts a transfer, which sets it (R36, R170). -/
theorem runAct_irqEn (op : Instr) (act : Act) (s t : State) (hs : s.irqEn = true) (h : runAct op act s = .ok t) :
    t.irqEn = true := by
  cases hact : isTransfer act with
  | true =>
    obtain ⟨src, len, rfl⟩ : ∃ src len, act = .startTransfer src len := by cases act <;> simp_all [isTransfer]
    obtain ⟨_, _, _, _, rfl⟩ := (startDma_ok_iff op src len s t).1 h
    rfl
  | false =>
    obtain ⟨_, _, _, hirq, _⟩ : Part.channel.Same s t :=
      runAct_same .channel op act s t h (by cases act <;> simp_all [writes, isTransfer])
    rw [hirq, hs]

theorem borderDrawn_keptByAgents : KeptByAgents (·.borderDrawn = true) where
  act op act s t hs h := runAct_borderDrawn op act s t hs h
  bookkeeping _ _ _ _ hs := hs
  beat s b hs _ := by
    obtain ⟨src, past, n, he⟩ := advanceSource_eq (emitByte b s)
    rw [he]
    exact hs
  handler _ hs _ := hs
  otherAcquire _ _ hs _ := hs
  otherByte _ _ _ hs := hs
  otherRelease _ _ hs _ := hs
  store _ _ hs := hs

theorem irqEn_keptByAgents : KeptByAgents (·.irqEn = true) where
  act op act s t hs h := runAct_irqEn op act s t hs h
  bookkeeping _ _ _ _ hs := hs
  beat s b hs _ := by
    obtain ⟨src, past, n, he⟩ := advanceSource_eq (emitByte b s)
    rw [he]
    exact hs
  handler _ hs _ := hs
  otherAcquire _ _ hs _ := hs
  otherByte _ _ _ hs := hs
  otherRelease _ _ hs _ := hs
  store _ _ hs := hs

/-- Settles O53: every writer of either flag sets it. -/
theorem borderDrawnAndIrqEnableStaySet : Obligations.BorderDrawnAndIrqEnableStaySet := by
  unfold Obligations.BorderDrawnAndIrqEnableStaySet
  exact fun s t h => ⟨borderDrawn_keptByAgents.step s t h, irqEn_keptByAgents.step s t h⟩

end Sys2Proof.Proofs
end

