-- ==== Sys2Proof/Proofs/LockInvariant.lean ====
section
/-! O49 and O50: the lock and DMA invariants of R39. While they hold, a lock that is free or not the channel's means an
idle channel; an idle channel leaves the lock to be claimed and freed, a transfer starts only from there, and its beats
and its handler bring it back. -/

namespace Sys2Proof.Proofs

open Sys2Proof.Machine Sys2Proof.Laws

/-- Settles O49: at reset the lock is free, the channel idle, and no byte allocated. -/
theorem resetMeetsTheInvariant : Obligations.ResetMeetsTheInvariant := by
  unfold Obligations.ResetMeetsTheInvariant
  exact fun c => ⟨by simp [lockInvariant, State.resetWith], memoryWf_reset c⟩

/-- Between steps the channel is in a transfer or idle (R34, R39). -/
theorem idle_of_not_inFlight (s : State) (hs : lockInvariant s) (h : s.dstate ≠ .inFlight) : s.dstate = .idle := by
  obtain ⟨_, _, _, _, _, hconf, hcompl⟩ := hs
  cases hd : s.dstate with
  | idle => rfl
  | configuring => exact absurd hd hconf
  | inFlight => exact absurd hd h
  | completingIrq => exact absurd hd hcompl

/-- While the channel does not hold the lock, there is no transfer. -/
theorem idle_of_holder (s : State) (hs : lockInvariant s) (h : s.holder ≠ .dma) : s.dstate = .idle := by
  obtain ⟨_, hflying, _⟩ := id hs
  refine idle_of_not_inFlight s hs fun hd => ?_
  obtain ⟨_, _, _, hdma, _⟩ := hflying hd
  exact h hdma

theorem idle_of_cons (s : State) (hs : lockInvariant s) (k : Nat) (h : s.holder = .cons k) : s.dstate = .idle :=
  idle_of_holder s hs (by simp [h])

theorem idle_of_lock_free (s : State) (hs : lockInvariant s) (h : s.lock = false) : s.dstate = .idle := by
  obtain ⟨hfree, _⟩ := id hs
  exact idle_of_holder s hs (by simp [hfree.1 h])

/-- The invariant reads the owner of the lock, the channel, `IRQ_PEND` and the parameters, and nothing else. -/
theorem lockInvariant_of_same (s t : State) (hs : lockInvariant s) (hown : owner t = owner s)
    (hch : Part.channel.Same s t) (hpend : t.irqPend = s.irqPend) (hcfg : t.cfg = s.cfg) : lockInvariant t := by
  obtain ⟨hlock, hholder⟩ : t.lock = s.lock ∧ t.holder = s.holder := by simpa [owner] using hown
  obtain ⟨htd, hd, hen, hirq, _⟩ := hch
  unfold lockInvariant
  rwa [hlock, hholder, htd, hd, hen, hirq, hpend, hcfg]

/-- With an idle channel the lock can go to anyone but the channel, or be freed. -/
theorem lockInvariant_takeLock (s : State) (hs : lockInvariant s) (hidle : s.dstate = .idle) (k : Nat) :
    lockInvariant (takeLock (.cons k) s) := by
  obtain ⟨_, _, hquiet, _⟩ := hs
  obtain ⟨hen, hpend, _⟩ := hquiet hidle
  simp [lockInvariant, hidle, hen, hpend]

theorem lockInvariant_freeLock (s : State) (hs : lockInvariant s) (hidle : s.dstate = .idle) :
    lockInvariant (freeLock s) := by
  obtain ⟨_, _, hquiet, _⟩ := hs
  obtain ⟨hen, hpend, _⟩ := hquiet hidle
  simp [lockInvariant, hidle, hen, hpend]

/-- `START_TRANSFER` hands the host's lock to the channel, with bytes to send and the interrupt not pending (R170). -/
theorem lockInvariant_startDma (op : Instr) (src : Addr) (len : Count) (s t : State) (hs : lockInvariant s)
    (h : startDma op src len s = .ok t) : lockInvariant t := by
  obtain ⟨hheld, hidle, _, hlen, rfl⟩ := (startDma_ok_iff op src len s t).1 h
  obtain ⟨hfree, _, hquiet, _⟩ := hs
  obtain ⟨_, hpend, _⟩ := hquiet hidle
  have hlock : s.lock = true := by
    rw [← Bool.not_eq_false, hfree, hheld]
    simp
  simpa [lockInvariant, hlock, hpend] using hlen

/-- Every primitive step of the host keeps the invariant, whichever operation it belongs to. -/
theorem lockInvariant_runAct (op : Instr) (act : Act) (s t : State) (hs : lockInvariant s)
    (h : runAct op act s = .ok t) : lockInvariant t := by
  have other (hown : ownerAfter act (owner s) = owner s) (hch : Part.channel ∉ writes act) : lockInvariant t := by
    obtain ⟨hcfg, _, _, _, _, hpend, _⟩ := runAct_frame op act s t h
    exact lockInvariant_of_same s t hs ((runAct_owner op act s t h).trans hown) (runAct_same _ op act s t h hch)
      hpend hcfg
  cases act with
  | acquire =>
    obtain ⟨hlock, rfl⟩ : s.lock = false ∧ takeLock (.cons 0) s = t := by
      by_cases hl : s.lock = true <;> simp_all [runAct]
    exact lockInvariant_takeLock s hs (idle_of_lock_free s hs hlock) 0
  | release =>
    obtain ⟨hheld, rfl⟩ : s.holder = .cons 0 ∧ freeLock s = t := by
      by_cases hh : s.holder = .cons 0 <;> simp_all [runAct]
    exact lockInvariant_freeLock s hs (idle_of_cons s hs 0 hheld)
  | startTransfer src len => exact lockInvariant_startDma op src len s t hs h
  | _ => exact other rfl (by simp [writes])

/-- A beat leaves a byte to send or, with the last one, the interrupt pending (R174). -/
theorem lockInvariant_beat (s : State) (b : Byte) (hs : lockInvariant s) (h : beatEnabled s = true) :
    lockInvariant (countBeat (advanceSource (emitByte b s))) := by
  obtain ⟨hfree, hflying, _, hpend, _⟩ := hs
  obtain ⟨⟨hd, hen⟩, hcnt⟩ : (s.dstate = .inFlight ∧ s.chEn = true) ∧ 0 < s.td.cnt.toNat := by
    simpa [beatEnabled] using h
  obtain ⟨_, hirq, hlock, hdma, hdst, hinc⟩ := hflying hd
  have hquiet : s.irqPend = false := by
    by_contra hp
    obtain ⟨_, hzero⟩ := hpend (by simpa using hp)
    simp [hzero] at hcnt
  obtain ⟨src, past, n, he⟩ := advanceSource_eq (emitByte b s)
  rw [he]
  simp [lockInvariant, hd, hen, hirq, hlock, hdma, hdst, hinc, hquiet]

/-- The handler leaves an idle channel and a free lock (R176). -/
theorem lockInvariant_takeCompletion (s : State) : lockInvariant (takeCompletion s) := by
  simp [lockInvariant]

theorem lockInvariant_keptByAgents : KeptByAgents lockInvariant where
  act op act s t hs h := lockInvariant_runAct op act s t hs h
  bookkeeping _ _ _ _ hs := hs
  beat s b hs h := lockInvariant_beat s b hs h
  handler s _ _ := lockInvariant_takeCompletion s
  otherAcquire s k hs hlock := lockInvariant_takeLock s hs (idle_of_lock_free s hs hlock) k
  otherByte _ _ _ hs := hs
  otherRelease s k hs hheld := lockInvariant_freeLock s hs (idle_of_cons s hs k hheld)
  store _ _ hs := hs

/-- Settles O50: each thing an agent can do keeps the invariant. -/
theorem stepKeepsTheLockInvariant : Obligations.StepKeepsTheLockInvariant := by
  unfold Obligations.StepKeepsTheLockInvariant
  exact fun s t hs h => lockInvariant_keptByAgents.step s t h hs

end Sys2Proof.Proofs
end

