-- ==== Sys2Proof/Proofs/OtherAgents.lean ====
section
/-! O56: the turns of the other agents while a host operation is in progress. -/

namespace Sys2Proof.Proofs

open Sys2Proof.Machine Sys2Proof.Laws

/-- What an operation in progress goes on with is the same in both states: its steps and the bytes it has composed,
memory, the Theme, the LED levels, the host-written flags, `RST`, `DC`, and its place in the program. -/
def SameInputs (s t : State) : Prop :=
  t.busy = s.busy ∧ t.stream = s.stream ∧ t.mem = s.mem ∧ t.theme = s.theme ∧ t.led = s.led ∧ t.orient = s.orient ∧
    t.inverted = s.inverted ∧ t.borderDrawn = s.borderDrawn ∧ t.rst = s.rst ∧ t.dc = s.dc ∧ t.opi = s.opi

theorem SameInputs.refl (s : State) : SameInputs s s := ⟨rfl, rfl, rfl, rfl, rfl, rfl, rfl, rfl, rfl, rfl, rfl⟩

theorem dmaBeat_sameInputs (s t : State) (h : dmaBeat s = .next t) : SameInputs s t := by
  rcases dmaBeat_next_cases s t h with ⟨_, rfl⟩ | ⟨b, _, _, _, _, rfl⟩
  · exact .refl t
  · obtain ⟨src, past, n, he⟩ := advanceSource_eq (emitByte b s)
    rw [he]
    exact .refl s

theorem dmaIrq_sameInputs (s t : State) (h : dmaIrq s = .next t) : SameInputs s t := by
  rcases dmaIrq_next_cases s t h with ⟨_, rfl⟩ | ⟨_, rfl⟩
  · exact .refl t
  · exact .refl s

/-- Inside an operation the host processor stores nothing (assumption 17). -/
theorem hostStore_of_busy (p : Nat) (b : Byte) (s : State) (h : s.busy ≠ []) : hostStore p b s = s := by
  rcases hostStore_cases p b s with he | ⟨hnil, _⟩
  · exact he
  · exact absurd hnil h

/-- No turn of another agent takes an operation's inputs from it. -/
theorem turnStep_sameInputs (a : Turn) (s t : State) (hbusy : s.busy ≠ []) (ha : a ≠ .host)
    (h : turnStep a s = .next t) : SameInputs s t := by
  rcases turnStep_next_cases a s t h with ⟨rfl, _⟩ | ⟨_, hbeat⟩ | ⟨_, hirq⟩ | ⟨k, _, rfl⟩ | ⟨k, b, _, rfl⟩ |
    ⟨k, _, rfl⟩ | ⟨p, b, _, rfl⟩
  · exact absurd rfl ha
  · exact dmaBeat_sameInputs s t hbeat
  · exact dmaIrq_sameInputs s t hirq
  · rcases otherAcquire_cases k s with he | ⟨_, _, he⟩ <;> rw [he] <;> exact .refl s
  · rcases otherByte_cases k b s with he | ⟨_, _, he⟩ <;> rw [he] <;> exact .refl s
  · rcases otherRelease_cases k s with he | ⟨_, _, he⟩ <;> rw [he] <;> exact .refl s
  · rw [hostStore_of_busy p b s hbusy]
    exact .refl s

/-- The host is no other consumer (R5). -/
theorem not_isConsumer_of_host (s : State) (k : Nat) (hheld : s.holder = .cons 0) (hk : s.holder = .cons k) :
    isConsumer s.cfg k ≠ true := by
  obtain rfl : 0 = k := Holder.cons.inj (hheld.symm.trans hk)
  simp [isConsumer]

/-- While the host is inside an operation and holds the lock, nobody else has a step. -/
theorem turnStep_of_held (a : Turn) (s t : State) (hbusy : s.busy ≠ []) (hs : lockInvariant s)
    (hheld : s.holder = .cons 0) (ha : a ≠ .host) (h : turnStep a s = .next t) : t = s := by
  have hidle : s.dstate = .idle := idle_of_cons s hs 0 hheld
  rcases turnStep_next_cases a s t h with ⟨rfl, _⟩ | ⟨_, hbeat⟩ | ⟨_, hirq⟩ | ⟨k, _, rfl⟩ | ⟨k, b, _, rfl⟩ |
    ⟨k, _, rfl⟩ | ⟨p, b, _, rfl⟩
  · exact absurd rfl ha
  · rw [dmaBeat_of_idle s hidle] at hbeat
    exact (Host.Outcome.next.inj hbeat).symm
  · rw [dmaIrq_of_idle s hidle] at hirq
    exact (Host.Outcome.next.inj hirq).symm
  · rcases otherAcquire_cases k s with he | ⟨hlock, _, _⟩
    · exact he
    · obtain ⟨hfree, _⟩ := hs
      simp [hheld, hlock] at hfree
  · rcases otherByte_cases k b s with he | ⟨hk, hcons, _⟩
    · exact he
    · exact absurd hcons (not_isConsumer_of_host s k hheld hk)
  · rcases otherRelease_cases k s with he | ⟨hk, hcons, _⟩
    · exact he
    · exact absurd hcons (not_isConsumer_of_host s k hheld hk)
  · exact hostStore_of_busy p b s hbusy

/-- Settles O56, turn by turn. -/
theorem otherAgentsLeaveAnOperationItsInputs : Obligations.OtherAgentsLeaveAnOperationItsInputs := by
  unfold Obligations.OtherAgentsLeaveAnOperationItsInputs
  intro s t a ts hbusy hturns ha h
  obtain ⟨hok, _⟩ := step_next_cases s t h
  rw [step_turn s a ts hok hturns] at h
  exact ⟨turnStep_sameInputs a { s with turns := ts } t hbusy ha h,
    fun hs hheld => turnStep_of_held a { s with turns := ts } t hbusy hs hheld ha h⟩

end Sys2Proof.Proofs
end

