-- ==== Sys2Proof/Proofs/Registers.lean ====
section
/-! O57: the register view of R40, bit by bit. -/

namespace Sys2Proof.Proofs

open Sys2Proof.Machine

/-- A flag shows at its own bit and nowhere else. -/
theorem getLsbD_flagAt (f : Bool) (i j : Nat) (hi : i < 32) : (flagAt f i).getLsbD j = (decide (j = i) && f) := by
  unfold flagAt
  by_cases hj : j = i
  · subst hj
    simp [hi]
  · simp [hj]
    omega

/-- `DSTATE` in its two bits (R40). -/
def dstateField : DmaState → BitVec 2
  | .idle => 0
  | .configuring => 1
  | .inFlight => 2
  | .completingIrq => 3

theorem dstateCode_eq (d : DmaState) : dstateCode d = (dstateField d).setWidth 32 := by
  cases d <;> rfl

/-- `DSTATE` shows at bits 5:4 and nowhere else. -/
theorem getLsbD_dstateCode_shiftLeft (d : DmaState) (j : Nat) :
    (dstateCode d <<< 4).getLsbD j = (decide (4 ≤ j) && (dstateField d).getLsbD (j - 4)) := by
  rw [dstateCode_eq]
  by_cases hj : j < 32
  · simp [hj, ← decide_not]
  · have hhigh : (dstateField d).getLsbD (j - 4) = false := BitVec.getLsbD_of_ge _ _ (by omega)
    simp [hj, hhigh]

/-- Every bit of `STATUS`. -/
theorem getLsbD_statusWord (s : State) (j : Nat) :
    (statusWord s).getLsbD j =
      (decide (j = 0) && s.lock || decide (j = 1) && decide (s.dc = .data) ||
        decide (j = 2) && decide (s.cs = .selected) || decide (j = 3) && decide (s.rst = .asserted) ||
        decide (4 ≤ j) && (dstateField s.dstate).getLsbD (j - 4) ||
        decide (j = 6) && s.chEn || decide (j = 7) && s.irqEn || decide (j = 8) && s.irqPend ||
        decide (j = 9) && s.borderDrawn || decide (j = 10) && s.inverted || decide (j = 11) && s.orient) := by
  simp only [statusWord, BitVec.getLsbD_or, getLsbD_dstateCode_shiftLeft]
  simp [getLsbD_flagAt]

/-- The two bits of `DSTATE` in `STATUS`. -/
theorem extractLsb'_statusWord_dstate (s : State) : (statusWord s).extractLsb' 4 2 = dstateField s.dstate := by
  ext i hi
  have hbit : (statusWord s).getLsbD (4 + i) = (dstateField s.dstate).getLsbD i := by
    rw [getLsbD_statusWord]
    grind
  simpa [BitVec.getLsbD_eq_getElem hi] using hbit

/-- Bits 31:12 of `STATUS` read 0. -/
theorem extractLsb'_statusWord_high (s : State) : (statusWord s).extractLsb' 12 20 = 0#20 := by
  ext i hi
  have hbit : (statusWord s).getLsbD (12 + i) = false := by
    have hhigh : (dstateField s.dstate).getLsbD (12 + i - 4) = false := BitVec.getLsbD_of_ge _ _ (by omega)
    rw [getLsbD_statusWord, hhigh]
    grind
  simp [hbit]

/-- The three levels in `CR[9]`. -/
theorem levels_eq_append (r g b : Byte) :
    r.setWidth 32 ||| (g.setWidth 32 <<< 8) ||| (b.setWidth 32 <<< 16) = 0#8 ++ b ++ g ++ r := by
  ext i hi
  grind

/-- Settles O57, register by register. -/
theorem controlRegistersShowTheFields : Obligations.ControlRegistersShowTheFields := by
  unfold Obligations.ControlRegistersShowTheFields
  intro s
  refine ⟨⟨statusWord s, rfl, ?_⟩, rfl, ?_, rfl, ?_, ?_, ?_, ?_, ?_, ?_, fun n hn => ?_⟩
  · simp only [getLsbD_statusWord, extractLsb'_statusWord_dstate, extractLsb'_statusWord_high]
    cases s.dstate <;> simp [dstateField]
  · exact congrArg some (BitVec.setWidth_eq_append (by decide))
  · cases hinc : s.td.inc <;> simp [controlRegister, flagAt, hinc]
  · exact congrArg some (BitVec.setWidth_eq_append (by decide))
  · exact congrArg some (BitVec.setWidth_eq_append (by decide))
  · exact congrArg some (BitVec.setWidth_eq_append (by decide))
  · exact congrArg some (BitVec.setWidth_eq_append (by decide))
  · exact congrArg some (levels_eq_append s.led.red s.led.green s.led.blue)
  · obtain ⟨m, rfl⟩ := Nat.exists_eq_add_of_le' hn
    rfl

end Sys2Proof.Proofs
end

