-- ==== Sys2Proof/Proofs/MemoryWrites.lean ====
section
/-! O51 and O55: what happens to memory. Every step changes it by single-byte writes only, to the addresses that the
host's operation or the host processor's own store names (`step_writtenAt`). A write allocates and frees nothing, which
is O51, and leaves every other address alone, which is O55. -/

namespace Sys2Proof.Proofs

open Sys2Proof.Machine Sys2Proof.Laws

/-! ### Writes within a set of addresses -/

/-- The second memory is the first after some single-byte writes, each to an address of `A`. -/
inductive WrittenAt (A : Nat → Prop) (m : Memory) : Memory → Prop
  | refl : WrittenAt A m m
  | write {m' : Memory} {a : Nat} (b : Byte) (h : WrittenAt A m m') (ha : A a) : WrittenAt A m (memWrite m' a b)

namespace WrittenAt

variable {A B : Nat → Prop} {m m' : Memory}

theorem of_eq (h : m' = m) : WrittenAt A m m' := h ▸ .refl

theorem mono (h : WrittenAt A m m') (hAB : ∀ a, A a → B a) : WrittenAt B m m' := by
  induction h with
  | refl => exact .refl
  | write b _ ha ih => exact .write b ih (hAB _ ha)

/-- Writes keep the canonical form. -/
theorem memoryWf_eq (h : WrittenAt A m m') : memoryWf m' = memoryWf m := by
  induction h with
  | refl => rfl
  | write b _ _ ih => rw [memoryWf_memWrite, ih]

/-- Writes neither allocate nor free. -/
theorem isSome_eq (h : WrittenAt A m m') (a : Nat) : (memRead m' a).isSome = (memRead m a).isSome := by
  induction h with
  | refl => rfl
  | write b _ _ ih => rw [memWrite_isSome, ih]

/-- Outside the addresses written to, every byte reads as before. -/
theorem memRead_eq (h : WrittenAt A m m') {a : Nat} (ha : ¬A a) : memRead m' a = memRead m a := by
  induction h with
  | refl => rfl
  | @write m' p b _ hp ih =>
    have hne : a ≠ p := fun he => ha (he.symm ▸ hp)
    rw [memRead_memWrite_other m' p a b hne, ih]

end WrittenAt

/-! ### The primitive steps -/

/-- Only a step that writes memory stores to an address. -/
theorem memory_mem_writes_of_storesTo (c : Config) (act : Act) (a : Nat) (h : storesTo c act a = true) :
    .memory ∈ writes act := by
  cases act <;> simp_all [storesTo, writes]

/-- A byte is stored by one write. -/
theorem storeByte_mem (a : Nat) (b : Byte) (s t : State) (h : storeByte a b s = .ok t) :
    t.mem = memWrite s.mem a b := by
  obtain ⟨_, rfl⟩ := (storeByte_ok_iff a b s t).1 h
  rfl

/-- A primitive step leaves memory as it is, or writes the one byte it stores to. -/
theorem runAct_mem (op : Instr) (act : Act) (s t : State) (h : runAct op act s = .ok t) :
    t.mem = s.mem ∨ ∃ a b, storesTo s.cfg act a = true ∧ t.mem = memWrite s.mem a b := by
  cases act with
  | compose buf =>
    simp only [runAct] at h
    split at h
    · cases h
      exact .inl rfl
    · cases h
  | sendStream =>
    obtain ⟨_, rfl⟩ := (underLock_ok_iff op s _ t).1 h
    exact .inl rfl
  | storeStream i => exact .inr ⟨_, _, by simp [storesTo],
      storeByte_mem (s.cfg.streamBase.toNat + i) (s.stream.headD 0) { s with stream := s.stream.tail } t h⟩
  | clearByte buf i => exact .inr ⟨_, _, by simp [storesTo], storeByte_mem (buf.toNat + i) 0 s t h⟩
  | _ => exact .inl (runAct_same .memory op _ s t h (by simp [writes])).1

/-- Primitive steps write memory only where one of them stores to. -/
theorem runSteps_writtenAt (ps : List PrimStep) (s t : State) (h : runSteps ps s = .next t) :
    WrittenAt (fun a => ∃ p ∈ ps, storesTo s.cfg p.act a = true) s.mem t.mem := by
  refine (runSteps_keeps
    (fun u => u.cfg = s.cfg ∧ WrittenAt (fun a => ∃ p ∈ ps, storesTo s.cfg p.act a = true) s.mem u.mem)
    ps s t h (fun p hp u v ⟨hcfg, hu⟩ huv => ⟨(runAct_cfg p.op p.act u v huv).trans hcfg, ?_⟩)
    (fun _ _ hu => hu) (fun _ _ hu => hu) (fun _ hu => hu) ⟨rfl, .refl⟩).2
  rcases runAct_mem p.op p.act u v huv with hmem | ⟨a, b, ha, hmem⟩ <;> rw [hmem]
  · exact hu
  · exact .write b hu ⟨p, hp, hcfg ▸ ha⟩

/-! ### The operations -/

/-- `PAINT src, clr` stores to the address: to its PixelBuffer when it clears it (R197), to the stream buffer with
`TRANSPORT = DMA` (R191). -/
def PaintStores (c : Config) (src : Addr) (clr : Bool) (a : Nat) : Prop :=
  clr = true ∧ inRange a src.toNat (srcBytes c) ∨
    c.transport = .dma ∧ inRange a c.streamBase.toNat (streamLen c)

/-- The operation stores to the address, if it is a `PAINT` that does. -/
def OpStores (c : Config) (i : Instr) (a : Nat) : Prop := ∃ src clr, i = .paint src clr ∧ PaintStores c src clr a

/-- Every step of the list stores only to addresses of `A`. -/
def StoresOnly (c : Config) (A : Nat → Prop) (acts : List Act) : Prop :=
  ∀ act ∈ acts, ∀ a, storesTo c act a = true → A a

theorem StoresOnly.append {c : Config} {A : Nat → Prop} {as bs : List Act} (ha : StoresOnly c A as)
    (hb : StoresOnly c A bs) : StoresOnly c A (as ++ bs) :=
  fun act h => (List.mem_append.1 h).elim (ha act) (hb act)

/-- Steps that do not write memory store nowhere. -/
theorem WritesOnly.storesOnly {parts : List Part} {acts : List Act} (h : WritesOnly parts acts)
    (hmem : .memory ∉ parts) (c : Config) (A : Nat → Prop) : StoresOnly c A acts :=
  fun act hact a hs => absurd (h act hact (memory_mem_writes_of_storesTo c act a hs)) hmem

theorem storesOnly_setWriteRegion (c : Config) (A : Nat → Prop) (r : Region) :
    StoresOnly c A (setWriteRegionActs r) :=
  (writesOnly_setWriteRegion [] r).storesOnly (by simp) c A

/-- Clearing stores to the PixelBuffer (R197). -/
theorem storesOnly_clear (c : Config) (src : Addr) (clr : Bool) :
    StoresOnly c (PaintStores c src clr) (clearActs c src clr) := by
  intro act hact a hs
  cases clr with
  | false => simp [clearActs] at hact
  | true =>
    obtain ⟨i, hi, rfl⟩ : ∃ i < srcBytes c, .clearByte src i = act := by simpa [clearActs] using hact
    have ha : a = src.toNat + i := by simpa [storesTo] using hs
    exact .inl ⟨rfl, by omega, by omega⟩

/-- The composed bytes are stored to the stream buffer (R191). -/
theorem storesOnly_storeStream (c : Config) (src : Addr) (clr : Bool) (ht : c.transport = .dma) :
    StoresOnly c (PaintStores c src clr) ((List.range (streamLen c)).map .storeStream) := by
  intro act hact a hs
  obtain ⟨i, hi, rfl⟩ : ∃ i < streamLen c, .storeStream i = act := by simpa using hact
  have ha : a = c.streamBase.toNat + i := by simpa [storesTo] using hs
  exact .inr ⟨ht, by omega, by omega⟩

theorem storesOnly_paintSync (c : Config) (src : Addr) (clr : Bool) :
    StoresOnly c (PaintStores c src clr) (paintSyncActs c src clr) := by
  have hclaim : StoresOnly c (PaintStores c src clr) [.acquire, .csSelect] := by simp [StoresOnly, storesTo]
  have hcompose : StoresOnly c (PaintStores c src clr) [.compose src] := by simp [StoresOnly, storesTo]
  have hsend : StoresOnly c (PaintStores c src clr) (List.replicate (streamLen c) .sendStream) := by
    simp [StoresOnly, storesTo]
  have hclose : StoresOnly c (PaintStores c src clr) [.csDeselect, .release] := by simp [StoresOnly, storesTo]
  exact ((((hclaim.append (storesOnly_setWriteRegion c _ _)).append hcompose).append hsend).append hclose).append
    (storesOnly_clear c src clr)

theorem storesOnly_paintDma (c : Config) (src : Addr) (clr : Bool) (ht : c.transport = .dma) :
    StoresOnly c (PaintStores c src clr) (paintDmaActs c src clr) := by
  have hcompose : StoresOnly c (PaintStores c src clr) [.acquire, .compose src] := by simp [StoresOnly, storesTo]
  have hselect : StoresOnly c (PaintStores c src clr) [.csSelect] := by simp [StoresOnly, storesTo]
  have hstart : StoresOnly c (PaintStores c src clr)
      [.startTransfer c.streamBase (BitVec.ofNat 24 (streamLen c))] := by simp [StoresOnly, storesTo]
  exact ((((hcompose.append (storesOnly_storeStream c src clr ht)).append hselect).append
    (storesOnly_setWriteRegion c _ _)).append hstart).append (storesOnly_clear c src clr)

/-- Of the operations only `PAINT` has steps that store, in either transport. -/
theorem execSteps_storesOnly (i : Instr) (s : State) :
    StoresOnly s.cfg (OpStores s.cfg i) ((execSteps i s).map (·.act)) := by
  cases i with
  | paint src clr =>
    have hpaint : StoresOnly s.cfg (PaintStores s.cfg src clr) ((execSteps (.paint src clr) s).map (·.act)) := by
      cases ht : s.cfg.transport with
      | sync =>
        simp only [execSteps, ht, stepsOf_map_act]
        exact storesOnly_paintSync _ _ _
      | dma =>
        simp only [execSteps, ht, stepsOf_map_act]
        exact storesOnly_paintDma _ _ _ ht
    exact fun act hact a hs => ⟨src, clr, rfl, hpaint act hact a hs⟩
  | _ => exact (execSteps_writesOnly _ s).storesOnly (by simp [mayWrite]) _ _

/-- An operation, completed, waiting or preempted, writes memory only where it stores to. -/
theorem exec_writtenAt (i : Instr) (s t : State) (h : exec i s = .next t) :
    WrittenAt (OpStores s.cfg i) s.mem t.mem := by
  obtain ⟨_, hrun⟩ := exec_next i s t h
  refine (runSteps_writtenAt _ s t hrun).mono fun a ⟨p, hp, hs⟩ => ?_
  exact execSteps_storesOnly i s p.act (List.mem_map_of_mem hp) a hs

/-! ### Every step -/

/-- The host's turn may store to the address: a step of the operation in progress does, or the operation presented. -/
def HostStores (s : State) (a : Nat) : Prop :=
  (∃ p ∈ s.busy, storesTo s.cfg p.act a = true) ∨
    s.busy = [] ∧ ∃ item i, s.prog[s.opi]? = some item ∧ decode item = .ok i ∧ OpStores s.cfg i a

theorem hostStep_writtenAt (s t : State) (h : hostStep s = .next t) : WrittenAt (HostStores s) s.mem t.mem := by
  rcases hostStep_next_cases s t h with ⟨_, _, rfl⟩ | ⟨_, hrun⟩ | ⟨item, i, hbusy, hfetch, hdec, hexec⟩
  · exact .refl
  · exact (runSteps_writtenAt s.busy s t hrun).mono fun _ => .inl
  · exact (exec_writtenAt i s t hexec).mono fun a ha => .inr ⟨hbusy, item, i, hfetch, hdec, ha⟩

theorem dmaBeat_mem (s t : State) (h : dmaBeat s = .next t) : t.mem = s.mem := by
  obtain ⟨_, _, hmem, _⟩ := dmaBeat_sameInputs s t h
  exact hmem

theorem dmaIrq_mem (s t : State) (h : dmaIrq s = .next t) : t.mem = s.mem := by
  obtain ⟨_, _, hmem, _⟩ := dmaIrq_sameInputs s t h
  exact hmem

theorem turnStep_writtenAt (turn : Turn) (s t : State) (h : turnStep turn s = .next t) :
    WrittenAt (fun a => HostStores s a ∨ ∃ b, turn = .hostStore a b) s.mem t.mem := by
  rcases turnStep_next_cases turn s t h with ⟨_, hhost⟩ | ⟨_, hbeat⟩ | ⟨_, hirq⟩ | ⟨k, _, rfl⟩ | ⟨k, b, _, rfl⟩ |
    ⟨k, _, rfl⟩ | ⟨p, b, hturn, rfl⟩
  · exact (hostStep_writtenAt s t hhost).mono fun _ => .inl
  · exact .of_eq (dmaBeat_mem s t hbeat)
  · exact .of_eq (dmaIrq_mem s t hirq)
  · rcases otherAcquire_cases k s with he | ⟨_, _, he⟩ <;> rw [he] <;> exact .refl
  · rcases otherByte_cases k b s with he | ⟨_, _, he⟩ <;> rw [he] <;> exact .refl
  · rcases otherRelease_cases k s with he | ⟨_, _, he⟩ <;> rw [he] <;> exact .refl
  · rcases hostStore_cases p b s with he | ⟨_, _, he⟩ <;> rw [he]
    exacts [.refl, .write b .refl (.inr ⟨b, hturn⟩)]

/-- Every step writes memory only where the host's operation stores to, or its own store (R75, assumption 17). -/
theorem step_writtenAt (s t : State) (h : step s = .next t) :
    WrittenAt (fun a => HostStores s a ∨ ∃ b ts, s.turns = .hostStore a b :: ts) s.mem t.mem := by
  obtain ⟨_, ⟨turn, ts, hturns, hturn⟩ | ⟨_, _, hhost⟩ | ⟨_, _, _, hirq⟩ | ⟨_, _, _, hbeat⟩⟩ := step_next_cases s t h
  · refine (turnStep_writtenAt turn { s with turns := ts } t hturn).mono fun a ha => ?_
    exact ha.imp id fun ⟨b, hb⟩ => ⟨b, ts, hb ▸ hturns⟩
  · exact (hostStep_writtenAt s t hhost).mono fun _ => .inl
  · exact .of_eq (dmaIrq_mem s t hirq)
  · exact .of_eq (dmaBeat_mem s t hbeat)

/-- Settles O51: a step is a sequence of writes, and no write allocates, frees or moves a byte. -/
theorem stepKeepsTheAllocation : Obligations.StepKeepsTheAllocation := by
  unfold Obligations.StepKeepsTheAllocation
  intro s t hs h
  have hwritten := step_writtenAt s t h
  exact ⟨hwritten.memoryWf_eq.trans hs, hwritten.isSome_eq⟩

/-- The host processor's store changes memory alone: its one byte, between operations and if it is allocated
(R341, assumption 17). -/
theorem hostStore_eq (p : Nat) (b : Byte) (s : State) :
    ∃ m, hostStore p b s = { s with mem := m } ∧ ∀ a, memRead m a =
      if s.busy = [] ∧ a = p ∧ p < addrSpace ∧ (memRead s.mem p).isSome = true then some b else memRead s.mem a := by
  by_cases hstore : s.busy = [] ∧ admitted s.mem p = true
  · obtain ⟨hbusy, hadm⟩ := hstore
    have halloc : p < addrSpace ∧ (memRead s.mem p).isSome = true := by simpa [admitted] using hadm
    refine ⟨memWrite s.mem p b, by simp [hostStore, hbusy, hadm], fun a => ?_⟩
    rw [memRead_memWrite s.mem p a b halloc.2]
    simp [hbusy, halloc]
  · have hkept : hostStore p b s = s := by
      rcases hostStore_cases p b s with he | ⟨hbusy, hadm, _⟩
      · exact he
      · exact absurd ⟨hbusy, hadm⟩ hstore
    refine ⟨s.mem, hkept, fun a => (if_neg ?_).symm⟩
    rintro ⟨hbusy, -, halloc⟩
    exact hstore ⟨hbusy, by simpa [admitted] using halloc⟩

/-- Settles O55: an operation, the host processor's own store, and any other step. -/
theorem operationsStoreOnlyWherePaintStores : Obligations.OperationsStoreOnlyWherePaintStores := by
  unfold Obligations.OperationsStoreOnlyWherePaintStores
  refine ⟨fun i s t h a hno => ?_, fun s p b ts hok hturns => ?_, fun s t h hturns a hbusy hpresented => ?_⟩
  · refine (exec_writtenAt i s t h).memRead_eq ?_
    rintro ⟨src, clr, rfl, hs⟩
    obtain ⟨hclear, hstream⟩ := hno src clr rfl
    exact hs.elim hclear hstream
  · obtain ⟨m, he, hread⟩ := hostStore_eq p b { s with turns := ts }
    exact ⟨m, by rw [step_turn s _ ts hok hturns, turnStep, he], hread⟩
  · refine (step_writtenAt s t h).memRead_eq ?_
    rintro ((⟨p, hp, hs⟩ | ⟨hnil, item, i, hline, hdec, src, clr, rfl, hs⟩) | ⟨b, ts, hstore⟩)
    · exact absurd hs (by simp [hbusy p hp])
    · obtain ⟨hclear, hstream⟩ := hpresented hnil item src clr hline hdec
      exact hs.elim hclear hstream
    · exact hturns a b ts hstore

end Sys2Proof.Proofs
end

