-- ==== Sys2Proof/Proofs/LastAddress.lean ====
section
/-! O21: a transfer that runs past the last address of memory. What one beat does, by whether the pointer has passed
the end before it. -/

namespace Sys2Proof.Proofs

open Sys2Proof.Machine Sys2Proof.Laws

/-- The channel has a beat: a transfer in flight, enabled, with bytes left (R174). -/
theorem beatEnabled_iff (s : State) :
    beatEnabled s = true ↔ s.dstate = .inFlight ∧ s.chEn = true ∧ 0 < s.td.cnt.toNat := by
  simp [beatEnabled, and_assoc]

/-- A beat whose byte is allocated sends it and moves the descriptor on (R174). -/
theorem dmaBeat_of_memRead (s : State) (b : Byte) (hbeat : beatEnabled s = true) (hpast : s.srcPast = false)
    (hread : memRead s.mem s.td.src.toNat = some b) :
    dmaBeat s = .next (countBeat (advanceSource (emitByte b s))) := by
  have hload : load s.mem s.td.src.toNat = .ok b := (load_ok_iff _ _ _).2 ⟨s.td.src.isLt, hread⟩
  simp [dmaBeat, hbeat, hpast, hload]

/-- A beat with the pointer past the end faults at `2^32` (R67, R170). -/
theorem dmaBeat_of_srcPast (s : State) (hbeat : beatEnabled s = true) (hpast : s.srcPast = true) :
    dmaBeat s = .fault (.mem addrSpace) := by
  simp [dmaBeat, hbeat, hpast]

/-- The state after a beat has sent `b` from the last address: `TD.SRC` is free, and it is remembered that its increment
has passed the end (assumption 6). -/
def pastTheEnd (b : Byte) (s : State) : State :=
  countBeat { emitByte b s with
    td := { s.td with src := Config.freeTdSrc s.freeIdx }, srcPast := true, freeIdx := s.freeIdx + 1 }

/-- The beat from the last address. -/
theorem dmaBeat_of_last (s : State) (b : Byte) (hbeat : beatEnabled s = true) (hpast : s.srcPast = false)
    (hinc : s.td.inc = true) (hsrc : s.td.src.toNat + 1 = addrSpace)
    (hread : memRead s.mem s.td.src.toNat = some b) : dmaBeat s = .next (pastTheEnd b s) := by
  have hend : ¬s.td.src.toNat + 1 < addrSpace := by omega
  rw [dmaBeat_of_memRead s b hbeat hpast hread]
  simp [advanceSource, hinc, hend, pastTheEnd]

/-- With bytes left after the beat from the last address, the channel has a further beat. -/
theorem beatEnabled_pastTheEnd (s : State) (b : Byte) (hbeat : beatEnabled s = true) (hleft : 2 ≤ s.td.cnt.toNat) :
    beatEnabled (pastTheEnd b s) = true := by
  obtain ⟨hflight, hen, _⟩ := (beatEnabled_iff s).1 hbeat
  have hone : 1#24 ≤ s.td.cnt := BitVec.le_def.2 (Nat.le_of_lt hleft)
  have hcnt : 0 < (s.td.cnt - 1#24).toNat := by
    rw [BitVec.toNat_sub_of_le hone]
    exact Nat.sub_pos_of_lt hleft
  exact (beatEnabled_iff _).2 ⟨hflight, hen, hcnt⟩

/-- Settles O21: the first beat reads the last address and passes the end; bytes being left, the second faults. -/
theorem beatPastTheAddressSpaceFaults : Obligations.BeatPastTheAddressSpaceFaults := by
  unfold Obligations.BeatPastTheAddressSpaceFaults
  intro s ts b hok hturns hflight hen hcnt hpast hinc hsrc hread
  have hbeat : beatEnabled { s with turns := .dmaBeat :: ts } = true :=
    (beatEnabled_iff _).2 ⟨hflight, hen, Nat.zero_lt_of_lt hcnt⟩
  have hmore : ¬s.td.cnt - 1 = 0 := by bv_omega
  refine ⟨pastTheEnd b { s with turns := .dmaBeat :: ts }, ?_, rfl, rfl, if_neg hmore, rfl, ?_⟩
  · rw [step_turn s _ _ hok hturns]
    exact dmaBeat_of_last _ b hbeat hpast hinc (by rw [hsrc]; rfl) (hsrc ▸ hread)
  · rw [step_turn (pastTheEnd b { s with turns := .dmaBeat :: ts }) .dmaBeat ts hok rfl]
    exact dmaBeat_of_srcPast _ (beatEnabled_pastTheEnd _ b hbeat hcnt) rfl

end Sys2Proof.Proofs
end

