-- ==== Sys2Proof/Proofs/WordFormats.lean ====
section
/-! The ten word formats of R81, both ways: which fields a word of the format has, and that a word whose reserved bits
are 0 is its fields put together again. -/

namespace Sys2Proof.Proofs

open Sys2Proof.Machine Sys2Proof.Laws

/-! ### One field -/

theorem getLsbD_field (w : OpWord) (lo n i : Nat) :
    (field w lo n).getLsbD i = (decide (i < n) && w.getLsbD (lo + i)) := by
  simp [field]

/-- A one-bit field is the bit. -/
theorem field_one (w : OpWord) (i : Nat) : field w i 1 = BitVec.ofBool (bit w i) := by
  ext j hj
  obtain rfl : j = 0 := by omega
  simp [field, bit]

theorem bit_eq_iff (w : OpWord) (i : Nat) (b : Bool) : bit w i = b ↔ field w i 1 = BitVec.ofBool b := by
  rw [field_one]
  cases bit w i <;> cases b <;> decide

theorem shiftedBit_bit (w : OpWord) (i : Nat) : shiftedBit (bit w i) i = shifted (field w i 1) i := by
  rw [shiftedBit, field_one]

/-- Two neighbouring fields, each put back in its place, are the field they make up. -/
theorem shifted_field_append (w : OpWord) (lo n hi m k : Nat) (hhi : lo + n = hi) (hk : n + m = k) :
    shifted (field w lo n) lo ||| shifted (field w hi m) hi = shifted (field w lo k) lo := by
  subst hhi hk
  ext i hi
  simp only [shifted, BitVec.getElem_or, BitVec.getElem_shiftLeft, BitVec.getElem_setWidth, getLsbD_field]
  grind

/-- A field goes on through neighbouring bits that are 0. -/
theorem shifted_field_extend (w : OpWord) (lo n hi m k : Nat) (hhi : lo + n = hi) (hk : n + m = k)
    (hzero : field w hi m = 0) : shifted (field w lo n) lo = shifted (field w lo k) lo := by
  rw [← shifted_field_append w lo n hi m k hhi hk, hzero]
  simp [shifted]

/-- The field of all 64 bits is the word. -/
theorem shifted_field_all (w : OpWord) : shifted (field w 0 64) 0 = w := by
  ext i hi
  simp [shifted, field]

/-! ### The fields of a word of each format -/

@[simp] theorem field_wordZ (op : Byte) : field (wordZ op) 0 8 = op ∧ field (wordZ op) 8 56 = 0 := by
  simp [wordZ, field_shifted_same, field_shifted_below]

@[simp] theorem field_wordB (op imm8 : Byte) :
    field (wordB op imm8) 0 8 = op ∧ field (wordB op imm8) 8 8 = imm8 ∧ field (wordB op imm8) 16 48 = 0 := by
  simp [wordB, field_shifted_same, field_shifted_below, field_shifted_above]

@[simp] theorem field_wordC (op : Byte) (cval : Half) :
    field (wordC op cval) 0 8 = op ∧ field (wordC op cval) 8 16 = cval ∧ field (wordC op cval) 24 40 = 0 := by
  simp [wordC, field_shifted_same, field_shifted_below, field_shifted_above]

@[simp] theorem field_wordF (op : Byte) (flag : Bool) :
    field (wordF op flag) 0 8 = op ∧ bit (wordF op flag) 8 = flag ∧ field (wordF op flag) 9 55 = 0 := by
  simp [wordF, shiftedBit, bit_eq_iff, field_shifted_same, field_shifted_below, field_shifted_above]

@[simp] theorem field_wordR (op x y : Byte) (w h : Half) :
    field (wordR op x y w h) 0 8 = op ∧ field (wordR op x y w h) 8 8 = x ∧ field (wordR op x y w h) 16 8 = y ∧
      field (wordR op x y w h) 24 16 = w ∧ field (wordR op x y w h) 40 16 = h ∧ field (wordR op x y w h) 56 8 = 0 := by
  simp [wordR, field_shifted_same, field_shifted_below, field_shifted_above]

@[simp] theorem field_wordT (op : Byte) (src : Addr) (len : Count) :
    field (wordT op src len) 0 8 = op ∧ field (wordT op src len) 8 24 = len ∧ field (wordT op src len) 32 32 = src := by
  simp [wordT, field_shifted_same, field_shifted_below, field_shifted_above]

@[simp] theorem field_wordP (op : Byte) (src : Addr) (clr : Bool) :
    field (wordP op src clr) 0 8 = op ∧ bit (wordP op src clr) 8 = clr ∧ field (wordP op src clr) 9 23 = 0 ∧
      field (wordP op src clr) 32 32 = src := by
  simp [wordP, shiftedBit, bit_eq_iff, field_shifted_same, field_shifted_below, field_shifted_above]

@[simp] theorem field_wordL1 (op : Byte) (ch : BitVec 2) (level : Byte) :
    field (wordL1 op ch level) 0 8 = op ∧ field (wordL1 op ch level) 8 2 = ch ∧ field (wordL1 op ch level) 10 6 = 0 ∧
      field (wordL1 op ch level) 16 8 = level ∧ field (wordL1 op ch level) 24 40 = 0 := by
  simp [wordL1, field_shifted_same, field_shifted_below, field_shifted_above]

@[simp] theorem field_wordL3 (op r g b : Byte) :
    field (wordL3 op r g b) 0 8 = op ∧ field (wordL3 op r g b) 8 8 = r ∧ field (wordL3 op r g b) 16 8 = g ∧
      field (wordL3 op r g b) 24 8 = b ∧ field (wordL3 op r g b) 32 32 = 0 := by
  simp [wordL3, field_shifted_same, field_shifted_below, field_shifted_above]

@[simp] theorem field_wordLD (op : Byte) (ch : BitVec 2) (on : Bool) :
    field (wordLD op ch on) 0 8 = op ∧ field (wordLD op ch on) 8 2 = ch ∧ field (wordLD op ch on) 10 6 = 0 ∧
      bit (wordLD op ch on) 16 = on ∧ field (wordLD op ch on) 17 47 = 0 := by
  simp [wordLD, shiftedBit, bit_eq_iff, field_shifted_same, field_shifted_below, field_shifted_above]

/-! ### A word put together from its fields -/

section

variable {w : OpWord} {op : Byte}

theorem wordZ_fields (hop : field w 0 8 = op) (h : field w 8 56 = 0) : wordZ op = w := by
  rw [wordZ, ← hop, shifted_field_extend w 0 8 8 56 64 rfl rfl h, shifted_field_all]

theorem wordB_fields (hop : field w 0 8 = op) (h : field w 16 48 = 0) : wordB op (field w 8 8) = w := by
  rw [wordB, ← hop, shifted_field_append w 0 8 8 8 16 rfl rfl, shifted_field_extend w 0 16 16 48 64 rfl rfl h,
    shifted_field_all]

theorem wordC_fields (hop : field w 0 8 = op) (h : field w 24 40 = 0) : wordC op (field w 8 16) = w := by
  rw [wordC, ← hop, shifted_field_append w 0 8 8 16 24 rfl rfl, shifted_field_extend w 0 24 24 40 64 rfl rfl h,
    shifted_field_all]

theorem wordF_fields (hop : field w 0 8 = op) (h : field w 9 55 = 0) : wordF op (bit w 8) = w := by
  rw [wordF, ← hop, shiftedBit_bit, shifted_field_append w 0 8 8 1 9 rfl rfl,
    shifted_field_extend w 0 9 9 55 64 rfl rfl h, shifted_field_all]

theorem wordR_fields (hop : field w 0 8 = op) (h : field w 56 8 = 0) :
    wordR op (field w 8 8) (field w 16 8) (field w 24 16) (field w 40 16) = w := by
  rw [wordR, ← hop, shifted_field_append w 0 8 8 8 16 rfl rfl, shifted_field_append w 0 16 16 8 24 rfl rfl,
    shifted_field_append w 0 24 24 16 40 rfl rfl, shifted_field_append w 0 40 40 16 56 rfl rfl,
    shifted_field_extend w 0 56 56 8 64 rfl rfl h, shifted_field_all]

theorem wordT_fields (hop : field w 0 8 = op) : wordT op (field w 32 32) (field w 8 24) = w := by
  rw [wordT, ← hop, shifted_field_append w 0 8 8 24 32 rfl rfl, shifted_field_append w 0 32 32 32 64 rfl rfl,
    shifted_field_all]

theorem wordP_fields (hop : field w 0 8 = op) (h : field w 9 23 = 0) : wordP op (field w 32 32) (bit w 8) = w := by
  rw [wordP, ← hop, shiftedBit_bit, shifted_field_append w 0 8 8 1 9 rfl rfl,
    shifted_field_extend w 0 9 9 23 32 rfl rfl h, shifted_field_append w 0 32 32 32 64 rfl rfl, shifted_field_all]

theorem wordL1_fields (hop : field w 0 8 = op) (h : field w 10 6 = 0) (h' : field w 24 40 = 0) :
    wordL1 op (field w 8 2) (field w 16 8) = w := by
  rw [wordL1, ← hop, shifted_field_append w 0 8 8 2 10 rfl rfl, shifted_field_extend w 0 10 10 6 16 rfl rfl h,
    shifted_field_append w 0 16 16 8 24 rfl rfl, shifted_field_extend w 0 24 24 40 64 rfl rfl h', shifted_field_all]

theorem wordL3_fields (hop : field w 0 8 = op) (h : field w 32 32 = 0) :
    wordL3 op (field w 8 8) (field w 16 8) (field w 24 8) = w := by
  rw [wordL3, ← hop, shifted_field_append w 0 8 8 8 16 rfl rfl, shifted_field_append w 0 16 16 8 24 rfl rfl,
    shifted_field_append w 0 24 24 8 32 rfl rfl, shifted_field_extend w 0 32 32 32 64 rfl rfl h, shifted_field_all]

theorem wordLD_fields (hop : field w 0 8 = op) (h : field w 10 6 = 0) (h' : field w 17 47 = 0) :
    wordLD op (field w 8 2) (bit w 16) = w := by
  rw [wordLD, ← hop, shiftedBit_bit, shifted_field_append w 0 8 8 2 10 rfl rfl,
    shifted_field_extend w 0 10 10 6 16 rfl rfl h, shifted_field_append w 0 16 16 1 17 rfl rfl,
    shifted_field_extend w 0 17 17 47 64 rfl rfl h', shifted_field_all]

end

end Sys2Proof.Proofs
end

