-- ==== Sys2Proof/Proofs/RoundTrip.lean ====
section
/-! O1, O2 and O4: decoding and encoding are inverse to each other. What each check of the decoder accepts is said once,
and read in both directions. -/

namespace Sys2Proof.Proofs

open Sys2Proof.Machine Sys2Proof.Laws

/-! ### What each check accepts -/

theorem whenZero_ok_iff (w : OpWord) (lo n : Nat) (i j : Instr) :
    whenZero w lo n i = .ok j ↔ field w lo n = 0 ∧ i = j := by
  unfold whenZero
  split <;> simp_all

theorem whenChannel_ok_iff (w : OpWord) (lo n : Nat) (i j : Instr) :
    whenChannel w lo n i = .ok j ↔ (field w 10 6 = 0 ∧ field w lo n = 0) ∧ field w 8 2 ≠ 3 ∧ i = j := by
  unfold whenChannel
  split
  · split <;> simp_all
  · simp_all

theorem noParams_ok_iff (ps : List Byte) (i j : Instr) : noParams ps i = .ok j ↔ ps = [] ∧ i = j := by
  cases ps <;> simp [noParams]

theorem oneParam_ok_iff (ps : List Byte) (i : Byte → Instr) (j : Instr) :
    oneParam ps i = .ok j ↔ ∃ p, ps = [p] ∧ i p = j := by
  unfold oneParam
  split <;> simp_all

theorem windowParams_ok_iff (ps : List Byte) (i : Byte → Byte → Instr) (j : Instr) :
    windowParams ps i = .ok j ↔ ∃ start fin, ps = [0, start, 0, fin] ∧ i start fin = j := by
  unfold windowParams
  split
  · split <;> simp_all
  · simp_all

theorem gammaParams_ok_iff (ps : List Byte) (i : List Byte → Instr) (j : Instr) :
    gammaParams ps i = .ok j ↔ ps.length = 16 ∧ i ps = j := by
  unfold gammaParams
  split <;> simp_all

/-! ### Decoding an encoding -/

/-- Settles O1: the decoder's fields of a word are the operands the encoder shifted there, the reserved ones are 0, and
a frame has its parameter bytes. -/
theorem decodeReadsBackEveryEncoding : Obligations.DecodeReadsBackEveryEncoding := by
  unfold Obligations.DecodeReadsBackEveryEncoding
  intro i hwf
  cases i with
  | writeByte | sendCommand | setWriteRegion | startTransfer | setPixelColor | setBgColor | setBorderLineColor
    | setBorderFillColor | invert | paint | ledSetAll | setOrient =>
    simp [encode, decode, decodeWord, whenZero_ok_iff]
  | ledSetChannel ch level | ledSetDigital ch on =>
    have hch : ch ≠ 3 := by simpa [Instr.wellFormed] using hwf
    simpa [encode, decode, decodeWord, whenChannel_ok_iff] using hch
  | gmctrp1 ps | gmctrn1 ps =>
    have hlen : ps.length = 16 := by simpa [Instr.wellFormed] using hwf
    exact (gammaParams_ok_iff ps _ _).2 ⟨hlen, rfl⟩
  | _ => rfl

/-! ### Encoding what was decoded -/

theorem encode_of_whenZero {w : OpWord} {lo n : Nat} {i j : Instr} (h : whenZero w lo n i = .ok j)
    (hword : field w lo n = 0 → encode i = .word w) (hwf : i.wellFormed = true) :
    encode j = .word w ∧ j.wellFormed = true := by
  obtain ⟨hzero, rfl⟩ := (whenZero_ok_iff w lo n i j).1 h
  exact ⟨hword hzero, hwf⟩

theorem encode_of_whenChannel {w : OpWord} {lo n : Nat} {i j : Instr} (h : whenChannel w lo n i = .ok j)
    (hword : field w 10 6 = 0 → field w lo n = 0 → encode i = .word w)
    (hwf : i.wellFormed = (field w 8 2 != 3)) : encode j = .word w ∧ j.wellFormed = true := by
  obtain ⟨⟨hlow, hhigh⟩, hch, rfl⟩ := (whenChannel_ok_iff w lo n i j).1 h
  exact ⟨hword hlow hhigh, hwf.trans (bne_iff_ne.2 hch)⟩

/-- A word that is accepted is the encoding of its instruction. The cases are the 24 opcodes in the table's order, by
format. -/
theorem encode_of_decodeWord (w : OpWord) (i : Instr) (h : decodeWord w = .ok i) :
    encode i = .word w ∧ i.wellFormed = true := by
  unfold decodeWord at h
  split at h <;> rename_i hop
  case h_1 | h_2 | h_3 | h_4 | h_8 | h_9 | h_10 | h_11 | h_19 | h_23 => -- format `Z`
    exact encode_of_whenZero h (fun hzero => congrArg Item.word (wordZ_fields hop hzero)) rfl
  case h_5 | h_6 => -- format `B`
    exact encode_of_whenZero h (fun hzero => congrArg Item.word (wordB_fields hop hzero)) rfl
  case h_7 => -- format `R`
    exact encode_of_whenZero h (fun hzero => congrArg Item.word (wordR_fields hop hzero)) rfl
  case h_12 => -- format `T`
    cases h
    exact ⟨congrArg Item.word (wordT_fields hop), rfl⟩
  case h_13 | h_14 | h_15 | h_16 => -- format `C`
    exact encode_of_whenZero h (fun hzero => congrArg Item.word (wordC_fields hop hzero)) rfl
  case h_17 | h_24 => -- format `F`
    exact encode_of_whenZero h (fun hzero => congrArg Item.word (wordF_fields hop hzero)) rfl
  case h_18 => -- format `P`
    exact encode_of_whenZero h (fun hzero => congrArg Item.word (wordP_fields hop hzero)) rfl
  case h_20 => -- format `L1`
    exact encode_of_whenChannel h (fun hlow hhigh => congrArg Item.word (wordL1_fields hop hlow hhigh)) rfl
  case h_21 => -- format `L3`
    exact encode_of_whenZero h (fun hzero => congrArg Item.word (wordL3_fields hop hzero)) rfl
  case h_22 => -- format `LD`
    exact encode_of_whenChannel h (fun hlow hhigh => congrArg Item.word (wordLD_fields hop hlow hhigh)) rfl
  case h_25 => cases h -- no opcode of the table

/-- A frame that is accepted is the encoding of its instruction. The cases are the 15 codes in the table's order, by the
parameter bytes they have. -/
theorem encode_of_decodeCommand (code : Byte) (ps : List Byte) (i : Instr) (h : decodeCommand code ps = .ok i) :
    encode i = .frame (code :: ps) ∧ i.wellFormed = true := by
  unfold decodeCommand at h
  split at h
  case h_1 | h_2 | h_3 | h_4 | h_5 | h_6 | h_7 | h_10 => -- none
    obtain ⟨rfl, rfl⟩ := (noParams_ok_iff _ _ _).1 h
    exact ⟨rfl, rfl⟩
  case h_8 | h_9 => -- the window block
    obtain ⟨_, _, rfl, rfl⟩ := (windowParams_ok_iff _ _ _).1 h
    exact ⟨rfl, rfl⟩
  case h_11 | h_12 => -- one
    obtain ⟨_, rfl, rfl⟩ := (oneParam_ok_iff _ _ _).1 h
    exact ⟨rfl, rfl⟩
  case h_13 => -- three
    split at h
    · cases h
      exact ⟨rfl, rfl⟩
    · cases h
  case h_14 | h_15 => -- sixteen
    obtain ⟨hlen, rfl⟩ := (gammaParams_ok_iff _ _ _).1 h
    exact ⟨rfl, by simpa [Instr.wellFormed] using hlen⟩
  case h_16 => cases h

/-- Settles O2, for words and for frames. -/
theorem acceptedLinesAreEncodings : Obligations.AcceptedLinesAreEncodings := by
  unfold Obligations.AcceptedLinesAreEncodings
  intro item i h
  match item, h with
  | .word w, h => exact encode_of_decodeWord w i h
  | .frame [], h => cases h
  | .frame (code :: ps), h => exact encode_of_decodeCommand code ps i h

/-- Settles O4, by evaluation. -/
theorem sampleWordsDecode : Obligations.SampleWordsDecode := by
  unfold Obligations.SampleWordsDecode
  exact ⟨rfl, rfl, rfl, rfl, rfl, rfl, rfl⟩

end Sys2Proof.Proofs
end

