-- ==== Sys2Proof/Proofs/OpcodeRows.lean ====
section
/-! O3: the decoder against the table of masks. A row's mask is the opcode field and the reserved fields of its format,
so a match under the mask says what these fields hold; and that is what the decoder checks. -/

namespace Sys2Proof.Proofs

open Sys2Proof.Machine Sys2Proof.Laws

/-! ### Masks of fields -/

/-- The bits of a field. -/
def fieldMask (lo n : Nat) : OpWord := shifted (BitVec.allOnes n) lo

/-- The bits of all the fields `(lo, n)` listed. -/
def fieldsMask : List (Nat × Nat) → OpWord
  | [] => 0#64
  | r :: rs => fieldMask r.1 r.2 ||| fieldsMask rs

theorem and_fieldMask (w : OpWord) (lo n : Nat) : w &&& fieldMask lo n = shifted (field w lo n) lo := by
  ext i hi
  simp only [fieldMask, shifted, BitVec.getElem_and, BitVec.getElem_shiftLeft, BitVec.getElem_setWidth, getLsbD_field,
    BitVec.getLsbD_allOnes]
  grind

theorem shifted_inj {n : Nat} (a b : BitVec n) (lo : Nat) (h : lo + n ≤ 64) : shifted a lo = shifted b lo ↔ a = b := by
  refine ⟨fun he => ?_, fun he => he ▸ rfl⟩
  rw [← field_shifted_same a lo h, he, field_shifted_same b lo h]

/-- A word has `v` in a field when it equals it under the field's mask. -/
theorem and_fieldMask_eq_iff (w : OpWord) (lo n : Nat) (v : BitVec n) (h : lo + n ≤ 64) :
    w &&& fieldMask lo n = shifted v lo ↔ field w lo n = v := by
  rw [and_fieldMask, shifted_inj _ _ _ h]

/-- Fields are 0 when the word is 0 under their mask. -/
theorem and_fieldsMask_eq_zero_iff (w : OpWord) (rs : List (Nat × Nat)) (h : ∀ r ∈ rs, r.1 + r.2 ≤ 64) :
    w &&& fieldsMask rs = 0#64 ↔ ∀ r ∈ rs, field w r.1 r.2 = 0 := by
  induction rs with
  | nil => simp [fieldsMask]
  | cons r rs ih =>
    obtain ⟨hr, hrs⟩ := List.forall_mem_cons.1 h
    rw [fieldsMask, BitVec.and_or_distrib_left, BitVec.or_eq_zero_iff, ih hrs, List.forall_mem_cons,
      ← and_fieldMask_eq_iff w r.1 r.2 0 hr]
    simp [shifted]

/-- A word matches a row when it has the opcode and its reserved fields are 0. -/
theorem matches_row_iff (w : OpWord) (op : Byte) (rs : List (Nat × Nat)) (h : ∀ r ∈ rs, 8 ≤ r.1 ∧ r.1 + r.2 ≤ 64) :
    w &&& (fieldMask 0 8 ||| fieldsMask rs) = shifted op 0 ↔ field w 0 8 = op ∧ ∀ r ∈ rs, field w r.1 r.2 = 0 := by
  have hop := and_fieldMask_eq_iff w 0 8 op (by decide)
  have hzero := and_fieldsMask_eq_zero_iff w rs fun r hr => (h r hr).2
  have hopMask : shifted op 0 &&& fieldMask 0 8 = shifted op 0 :=
    (and_fieldMask_eq_iff _ 0 8 op (by decide)).2 (field_shifted_same op 0 (by decide))
  have hopZero : shifted op 0 &&& fieldsMask rs = 0#64 :=
    (and_fieldsMask_eq_zero_iff _ rs fun r hr => (h r hr).2).2 fun r hr => field_shifted_below op 0 _ _ (h r hr).1
  have habsorb (m : OpWord) (hm : m &&& (fieldMask 0 8 ||| fieldsMask rs) = m) :
    w &&& (fieldMask 0 8 ||| fieldsMask rs) &&& m = w &&& m := by rw [BitVec.and_assoc, BitVec.and_comm _ m, hm]
  rw [← hop, ← hzero]
  constructor
  · intro heq
    rw [← habsorb (fieldMask 0 8) (by ext; simp; grind), ← habsorb (fieldsMask rs) (by ext; simp; grind), heq]
    exact ⟨hopMask, hopZero⟩
  · rintro ⟨hlow, hhigh⟩
    rw [BitVec.and_or_distrib_left, hlow, hhigh, BitVec.or_zero]

/-! ### The table -/

/-- The 24 opcodes (R83). -/
def opcodes : List Byte :=
  [0x01, 0x02, 0x03, 0x04, 0x05, 0x06, 0x07, 0x08, 0x09, 0x0A, 0x0B, 0x10, 0x20, 0x21, 0x22, 0x23, 0x24, 0x30, 0x31,
   0x40, 0x41, 0x42, 0x43, 0x44]

/-- The reserved fields `(lo, n)` of an opcode's format (R81): those of `Z` but for the opcodes named. -/
def reservedFields (op : Byte) : List (Nat × Nat) :=
  match op with
  | 0x05#8 | 0x06#8 => [(16, 48)]
  | 0x07#8 => [(56, 8)]
  | 0x10#8 => []
  | 0x20#8 | 0x21#8 | 0x22#8 | 0x23#8 => [(24, 40)]
  | 0x24#8 | 0x44#8 => [(9, 55)]
  | 0x30#8 => [(9, 23)]
  | 0x40#8 => [(10, 6), (24, 40)]
  | 0x41#8 => [(32, 32)]
  | 0x42#8 => [(10, 6), (17, 47)]
  | _ => [(8, 56)]

/-- The reserved fields of the word's opcode are 0. -/
def ReservedZero (w : OpWord) : Prop := ∀ r ∈ reservedFields (field w 0 8), field w r.1 r.2 = 0

/-- The masks of the table are those of the fields. -/
theorem hostRows_eq :
    hostRows = opcodes.map fun op => (shifted op 0, fieldMask 0 8 ||| fieldsMask (reservedFields op)) := by
  decide

theorem reservedFields_bounds (op : Byte) : ∀ r ∈ reservedFields op, 8 ≤ r.1 ∧ r.1 + r.2 ≤ 64 := by
  unfold reservedFields
  split <;> decide

/-- A word matches a row of the table when its opcode is one of the 24 and its reserved fields are 0. -/
theorem matches_hostRows_iff (w : OpWord) :
    (∃ row ∈ hostRows, w &&& row.2 = row.1) ↔ field w 0 8 ∈ opcodes ∧ ReservedZero w := by
  simp [hostRows_eq, matches_row_iff _ _ _ (reservedFields_bounds _), ReservedZero]

/-- The reserved channel of the two LED operations (R84). -/
theorem isReservedChannel_iff (w : OpWord) :
    ((w &&& 0xFF = 0x40 ∨ w &&& 0xFF = 0x42) ∧ w &&& 0x300 = 0x300) ↔
      (field w 0 8 = 0x40 ∨ field w 0 8 = 0x42) ∧ field w 8 2 = 3 := by
  rw [← and_fieldMask_eq_iff w 0 8 0x40 (by decide), ← and_fieldMask_eq_iff w 0 8 0x42 (by decide),
    ← and_fieldMask_eq_iff w 8 2 3 (by decide)]
  rfl

/-- What the decoder checks, opcode by opcode (R84). -/
theorem decodeWord_accepts_iff (w : OpWord) :
    (∃ i, decodeWord w = .ok i) ↔
      (field w 0 8 ∈ opcodes ∧ ReservedZero w) ∧ ¬((field w 0 8 = 0x40 ∨ field w 0 8 = 0x42) ∧ field w 8 2 = 3) := by
  unfold decodeWord ReservedZero
  split
  case h_25 =>
    have hnone : field w 0 8 ∉ opcodes := by simp_all [opcodes]
    simp [hnone]
  all_goals
    rename_i hop
    simp [hop, opcodes, reservedFields, whenZero_ok_iff, whenChannel_ok_iff]

/-! ### The run -/

/-- With an empty script and no operation in progress, a step presents the line at `opi` (R13, R22). -/
theorem step_presents (s : State) (item : Item) (hok : configOk s.cfg = true) (hbusy : s.busy = [])
    (hturns : s.turns = []) (hline : s.prog[s.opi]? = some item) : step s = present item s := by
  have hfetch : fetch s = some item := hline
  simp [step_free s hok hturns, freeStep, hostCanStep, hostStep, hbusy, hfetch]

theorem present_of_error (item : Item) (why : Reject) (s : State) (h : decode item = .error why) :
    present item s = .refused (.encoding why) := by
  simp [present, h]

/-- Settles O3: the decoder's checks and the table's masks both say what the opcode and the reserved fields hold. -/
theorem wordsAcceptedMatchTheTable : Obligations.WordsAcceptedMatchTheTable := by
  unfold Obligations.WordsAcceptedMatchTheTable
  refine fun w => ⟨?_, fun hrefused s hok hbusy hturns hline => ?_⟩
  · rw [matches_hostRows_iff, isReservedChannel_iff]
    exact decodeWord_accepts_iff w
  · cases hd : decode (.word w) with
    | ok i => exact absurd hd (hrefused i)
    | error why => exact ⟨why, (step_presents s _ hok hbusy hturns hline).trans (present_of_error _ why s hd)⟩

end Sys2Proof.Proofs
end

