-- ==== Sys2Proof/Proofs/Frames.lean ====
section
/-! O13, O14, O45 and O46: what goes on the wire when the host sends a command code, the window of a region, or the
frame of a panel command. -/

namespace Sys2Proof.Proofs

open Sys2Proof.Machine Sys2Proof.Laws

/-- An operation whose first primitive step faults is that fault. -/
theorem runSteps_of_fault (p : PrimStep) (ps : List PrimStep) (s : State) (f : Fault)
    (h : runAct p.op p.act s = .fault f) : runSteps (p :: ps) s = .fault f := by
  simp [runSteps, h]

/-! ### A command code -/

/-- Without the lock a command code, and whatever follows it, faults at its first primitive step (R142, R152). -/
theorem runSteps_sendCommand_of_not_held (op : Instr) (code : Byte) (rest : List PrimStep) (s : State)
    (hheld : s.holder ≠ .cons 0) : runSteps (stepsOf op (sendCommandActs code) ++ rest) s = .fault (.noLock op) :=
  runSteps_of_fault ⟨op, .cmdMode⟩ _ s _ ((underLock_fault_iff _ _ _ _).2 ⟨hheld, rfl⟩)

theorem exec_sendCommand (code : Byte) (s : State) (hheld : s.holder = .cons 0) (hturns : s.turns = []) :
    exec (.sendCommand code) s =
      .next (finished { s with dc := .data, wt := s.wt ++ commandEvents s.cs code }) :=
  runSteps_complete _ s _ hturns (runAll_sendCommand _ code s hheld)

theorem exec_sendCommand_of_not_held (code : Byte) (s : State) (hheld : s.holder ≠ .cons 0) :
    exec (.sendCommand code) s = .fault (.noLock (.sendCommand code)) := by
  have hrun := runSteps_sendCommand_of_not_held (.sendCommand code) code [] s hheld
  rwa [List.append_nil] at hrun

/-- Settles O13. -/
theorem sendCommandFramesTheCode : Obligations.SendCommandFramesTheCode := by
  unfold Obligations.SendCommandFramesTheCode
  exact fun s code => ⟨rfl, exec_sendCommand code s, exec_sendCommand_of_not_held code s⟩

/-! ### The window of a region -/

/-- The `require` lines of R146, in the order of R303: the lock, then the region. -/
theorem runAct_requireRegion_of_not_held (op : Instr) (x y w h : Nat) (s : State) (hheld : s.holder ≠ .cons 0) :
    runAct op (.requireRegion x y w h) s = .fault (.noLock op) := by
  simp [runAct, hheld]

theorem runAct_requireRegion_of_outside (op : Instr) (x y w h : Nat) (s : State) (hheld : s.holder = .cons 0)
    (hout : inPanel s.cfg ⟨x, y, w, h⟩ = false) : runAct op (.requireRegion x y w h) s = .fault (.region op) := by
  simp [runAct, hheld, hout]

/-- Settles O14: the region's check, and then the three frames of the window. -/
theorem setWriteRegionSendsTheWindow : Obligations.SetWriteRegionSendsTheWindow := by
  unfold Obligations.SetWriteRegionSendsTheWindow
  intro s x y w h
  refine ⟨fun hheld hturns hw hh hx hy => ?_, fun hheld hout => ?_, fun hheld => ?_⟩
  · have hin : inPanel s.cfg ⟨x.toNat, y.toNat, w.toNat, h.toNat⟩ = true := decide_eq_true ⟨hw, hh, hx, hy⟩
    refine (runSteps_complete _ s _ hturns (runAll_setWriteRegion _ _ s hheld hin)).trans ?_
    simp [windowEvents, commandEvents, dataEvents, finish, finished]
  · have houtside : inPanel s.cfg ⟨x.toNat, y.toNat, w.toNat, h.toNat⟩ = false := decide_eq_false (by dsimp only; omega)
    exact runSteps_of_fault _ _ s _ (runAct_requireRegion_of_outside _ _ _ _ _ s hheld houtside)
  · exact runSteps_of_fault _ _ s _ (runAct_requireRegion_of_not_held _ _ _ _ _ s hheld)

/-! ### The frame of a panel command -/

/-- The parameter bytes of a frame, each a `WriteByte` of its own operation, in data mode under the lock (R87, R144). -/
theorem runAll_parameters (ps : List Byte) (s : State) (hheld : s.holder = .cons 0) (hdc : s.dc = .data) :
    runAll (ps.map fun b => ⟨.writeByte b, .writeByte b⟩) s = some { s with wt := s.wt ++ dataEvents s.cs ps } := by
  induction ps generalizing s with
  | nil => simp [dataEvents]
  | cons b ps ih =>
    have hb : runAct (.writeByte b) (.writeByte b) s = .ok (emitByte b s) := by simp [runAct, hheld]
    rw [List.map_cons, runAll_cons_ok _ _ _ _ hb, ih (emitByte b s) hheld hdc]
    simp [emitByte, emit, dataEvents, hdc]

/-- A frame under the lock, nobody moving in between (R90). -/
theorem runCommand_complete (code : Byte) (ps : List Byte) (s : State) (hheld : s.holder = .cons 0)
    (hturns : s.turns = []) :
    runCommand code ps s = .next (finished { s with
      dc := .data, wt := s.wt ++ commandEvents s.cs code ++ dataEvents s.cs ps }) := by
  refine runSteps_complete _ s _ hturns ?_
  rw [commandSteps, runAll_append, runAll_sendCommand _ code s hheld, Option.bind_some]
  exact runAll_parameters ps _ hheld rfl

/-- A panel command runs the frame it is encoded as (R87). -/
theorem exec_eq_runCommand (i : Instr) (code : Byte) (ps : List Byte) (s : State) (h : encode i = .frame (code :: ps)) :
    exec i s = runCommand code ps s := by
  cases i <;> cases h <;> rfl

theorem sendsFrame_of_encode {i : Instr} {code : Byte} {ps : List Byte} (h : encode i = .frame (code :: ps)) :
    sendsFrame i code ps := by
  intro s
  rw [exec_eq_runCommand i code ps s h]
  exact ⟨runCommand_complete code ps s, runSteps_sendCommand_of_not_held _ code _ s⟩

/-- Settles O45: each command is encoded as its frame. -/
theorem panelCommandsSendTheirFrames : Obligations.PanelCommandsSendTheirFrames := by
  unfold Obligations.PanelCommandsSendTheirFrames
  exact ⟨sendsFrame_of_encode rfl, sendsFrame_of_encode rfl, sendsFrame_of_encode rfl, sendsFrame_of_encode rfl,
    sendsFrame_of_encode rfl, sendsFrame_of_encode rfl, sendsFrame_of_encode rfl, sendsFrame_of_encode rfl,
    fun _ _ => sendsFrame_of_encode rfl, fun _ _ => sendsFrame_of_encode rfl, fun _ => sendsFrame_of_encode rfl,
    fun _ => sendsFrame_of_encode rfl, fun _ _ _ => sendsFrame_of_encode rfl, fun _ => sendsFrame_of_encode rfl,
    fun _ => sendsFrame_of_encode rfl⟩

/-! ### The listing of a panel command -/

theorem exec_writeByte (b : Byte) (s : State) (hheld : s.holder = .cons 0) :
    exec (.writeByte b) s = .next (finished (emitByte b s)) := by
  simp [exec, execWriteByte, runOp, runSteps, stepsOf, runAct, underLock, hheld, runRest, finish, finished]

/-- `WRITE_BYTE`s one after the other, between operations in data mode under the lock. -/
theorem runListing_writeBytes (bs : List Byte) (s : State) (hheld : s.holder = .cons 0) (hdc : s.dc = .data)
    (hbusy : s.busy = []) :
    runListing (bs.map .writeByte) s =
      .next { s with wt := s.wt ++ dataEvents s.cs bs, opi := s.opi + bs.length } := by
  induction bs generalizing s with
  | nil => simp [runListing, dataEvents]
  | cons b bs ih =>
    rw [List.map_cons, runListing, exec_writeByte b s hheld]
    simp only
    rw [ih (finished (emitByte b s)) hheld hdc rfl]
    simp [finished, emitByte, emit, dataEvents, hdc, hbusy, Nat.add_assoc, Nat.add_comm]

/-- The listing under the lock, nobody moving in between: what its frame does, with each line counted. -/
theorem runListing_commandListing (code : Byte) (ps : List Byte) (s : State) (hheld : s.holder = .cons 0)
    (hturns : s.turns = []) :
    runListing (commandListing code ps) s = .next { s with
      dc := .data, wt := s.wt ++ commandEvents s.cs code ++ dataEvents s.cs ps, busy := [],
      opi := s.opi + 1 + ps.length } := by
  rw [commandListing, runListing, exec_sendCommand code s hheld hturns]
  exact runListing_writeBytes ps _ hheld rfl rfl

/-- Settles O46: the listing and the frame lead to the same state but for the count of lines. -/
theorem pseudoOperationsAreTheirListings : Obligations.PseudoOperationsAreTheirListings := by
  unfold Obligations.PseudoOperationsAreTheirListings
  intro i code ps s hi hheld hturns
  refine ⟨_, runListing_commandListing code ps s hheld hturns, ?_⟩
  rw [exec_eq_runCommand i code ps s hi]
  exact runCommand_complete code ps s hheld hturns

end Sys2Proof.Proofs
end

