-- ==== Sys2Proof/Proofs/Packing.lean ====
section
/-! O25: the packing of colours. `pack12` and `unpack12` join and cut the three channels of a colour; `packPair` and
`unpackPair` cut the same 24 bits into three bytes and into two colours (R112); a stream is one such group after the
other. -/

namespace Sys2Proof.Proofs

open Sys2Proof.Machine Sys2Proof.Laws

/-- The masks of R110 to R112 keep the low four and the low eight bits. -/
theorem and_fifteen (n : Nat) : n &&& 15 = n % 2 ^ 4 := Nat.and_two_pow_sub_one_eq_mod n 4

theorem and_255 (n : Nat) : n &&& 255 = n % 2 ^ 8 := Nat.and_two_pow_sub_one_eq_mod n 8

/-! ### One colour -/

theorem toNat_pack12 (r g b : Nat) :
    (pack12 r g b).toNat = ((r &&& 0xF) <<< 8) ||| ((g &&& 0xF) <<< 4) ||| (b &&& 0xF) := by
  simp only [pack12, BitVec.toNat_append, BitVec.toNat_ofNat, and_fifteen, Nat.shiftLeft_or_distrib,
    ← Nat.shiftLeft_add]

theorem unpack12_eq (v : Color12) : unpack12 v = (v.toNat >>> 8, (v.toNat >>> 4) &&& 0xF, v.toNat &&& 0xF) := by
  have hred : v.toNat >>> 8 % 2 ^ 4 = v.toNat >>> 8 := by omega
  simp only [unpack12, BitVec.extractLsb'_toNat, and_fifteen, hred, Nat.shiftRight_zero]

/-- Law l1 (R114): three neighbouring fields, joined again. -/
theorem pack12_unpack12 (v : Color12) : pack12 (unpack12 v).1 (unpack12 v).2.1 (unpack12 v).2.2 = v := by
  simp only [pack12, unpack12, BitVec.ofNat_toNat, BitVec.setWidth_eq]
  rw [BitVec.extractLsb'_append_extractLsb'_eq_extractLsb' (show 8 = 4 + 4 from rfl),
    BitVec.extractLsb'_append_extractLsb'_eq_extractLsb' (show 4 = 0 + 4 from rfl)]
  exact BitVec.extractLsb'_eq_self

/-- Law l2 (R114): each channel is the field it was put in. -/
theorem unpack12_pack12 (r g b : Nat) : unpack12 (pack12 r g b) = (r % 16, g % 16, b % 16) := by
  have hred : (pack12 r g b).extractLsb' 8 4 = BitVec.ofNat 4 r := by
    rw [pack12, BitVec.extractLsb'_append_eq_of_le (by decide)]
    exact BitVec.extractLsb'_append_eq_left
  have hgreen : (pack12 r g b).extractLsb' 4 4 = BitVec.ofNat 4 g := by
    rw [pack12, BitVec.extractLsb'_append_eq_of_le (by decide)]
    exact BitVec.extractLsb'_append_eq_right
  have hblue : (pack12 r g b).extractLsb' 0 4 = BitVec.ofNat 4 b := BitVec.extractLsb'_append_eq_right
  simp only [unpack12, hred, hgreen, hblue, BitVec.toNat_ofNat]

/-! ### A pair of pixels -/

theorem toNat_packPair (a b : Color12) :
    (packPair a b).map BitVec.toNat =
      [a.toNat >>> 4, ((a.toNat &&& 0xF) <<< 4) ||| (b.toNat >>> 8), b.toNat &&& 0xFF] := by
  have hfirst : a.toNat / 16 % 256 = a.toNat / 16 := by omega
  have hupper : a.toNat % 16 * 16 % 256 = a.toNat % 16 * 16 := by omega
  have hlower : b.toNat / 256 % 256 = b.toNat / 256 := by omega
  simp [packPair, and_fifteen, and_255, Nat.shiftRight_eq_div_pow, Nat.shiftLeft_eq, hfirst, hupper, hlower]

theorem toNat_unpackPair (b0 b1 b2 : Byte) :
    (unpackPair b0 b1 b2).1.toNat = (b0.toNat <<< 4) ||| (b1.toNat >>> 4) ∧
    (unpackPair b0 b1 b2).2.toNat = ((b1.toNat &&& 0xF) <<< 8) ||| b2.toNat := by
  have hfirst : b0.toNat * 16 % 4096 = b0.toNat * 16 := by omega
  have hmiddle : b1.toNat % 4096 = b1.toNat := by omega
  have hupper : b1.toNat % 16 * 256 % 4096 = b1.toNat % 16 * 256 := by omega
  have hlast : b2.toNat % 4096 = b2.toNat := by omega
  simp [unpackPair, and_fifteen, Nat.shiftRight_eq_div_pow, Nat.shiftLeft_eq, hfirst, hmiddle, hupper, hlast]

theorem toNat_append_eq_add {m n : Nat} (x : BitVec m) (y : BitVec n) :
    (x ++ y).toNat = x.toNat * 2 ^ n + y.toNat := by
  rw [BitVec.toNat_append, ← Nat.shiftLeft_add_eq_or_of_lt y.isLt, Nat.shiftLeft_eq]

/-- The bytes of a pair are the 24 bits `A ++ B` cut in three (R112). -/
theorem packPair_eq (a b : Color12) :
    packPair a b = [(a ++ b).extractLsb' 16 8, (a ++ b).extractLsb' 8 8, (a ++ b).extractLsb' 0 8] := by
  have hmiddle : (a.toNat % 2 ^ 4) <<< 4 ||| b.toNat >>> 8 = (a.toNat % 2 ^ 4) <<< 4 + b.toNat >>> 8 :=
    (Nat.shiftLeft_add_eq_or_of_lt (by omega) _).symm
  apply List.map_injective_iff.2 BitVec.toNat_injective
  simp only [toNat_packPair, and_fifteen, and_255, hmiddle, List.map_cons, List.map_nil, BitVec.extractLsb'_toNat,
    toNat_append_eq_add, List.cons.injEq, and_true]
  omega

/-- The colours of a group are its 24 bits cut in two (R113). -/
theorem unpackPair_eq (b0 b1 b2 : Byte) :
    unpackPair b0 b1 b2 = ((b0 ++ b1 ++ b2).extractLsb' 12 12, (b0 ++ b1 ++ b2).extractLsb' 0 12) := by
  obtain ⟨hleft, hright⟩ := toNat_unpackPair b0 b1 b2
  rw [← Nat.shiftLeft_add_eq_or_of_lt (by omega)] at hleft
  rw [and_fifteen, ← Nat.shiftLeft_add_eq_or_of_lt (by omega)] at hright
  refine Prod.ext (BitVec.eq_of_toNat_eq ?_) (BitVec.eq_of_toNat_eq ?_)
  · rw [hleft, BitVec.extractLsb'_toNat, toNat_append_eq_add, toNat_append_eq_add]
    omega
  · rw [hright, BitVec.extractLsb'_toNat, toNat_append_eq_add, toNat_append_eq_add]
    omega

/-- Law l3 (R114): the three bytes joined are `A ++ B` again. -/
theorem unpackPair_packPair (a b : Color12) :
    ∃ b0 b1 b2, packPair a b = [b0, b1, b2] ∧ unpackPair b0 b1 b2 = (a, b) := by
  refine ⟨_, _, _, packPair_eq a b, ?_⟩
  rw [unpackPair_eq, BitVec.extractLsb'_append_extractLsb'_eq_extractLsb' (show 16 = 8 + 8 from rfl),
    BitVec.extractLsb'_append_extractLsb'_eq_extractLsb' (show 8 = 0 + 8 from rfl),
    BitVec.extractLsb'_eq_self (x := a ++ b)]
  exact Prod.ext BitVec.extractLsb'_append_eq_left BitVec.extractLsb'_append_eq_right

/-- Law l4 (R114): the two colours joined are the three bytes again. -/
theorem packPair_unpackPair (b0 b1 b2 : Byte) :
    packPair (unpackPair b0 b1 b2).1 (unpackPair b0 b1 b2).2 = [b0, b1, b2] := by
  have hbits : (unpackPair b0 b1 b2).1 ++ (unpackPair b0 b1 b2).2 = b0 ++ b1 ++ b2 := by
    rw [unpackPair_eq, BitVec.extractLsb'_append_extractLsb'_eq_extractLsb' (show 12 = 0 + 12 from rfl)]
    exact BitVec.extractLsb'_eq_self
  have hfirst : (b0 ++ b1 ++ b2).extractLsb' 16 8 = b0 := by
    rw [BitVec.extractLsb'_append_eq_of_le (by decide)]
    exact BitVec.extractLsb'_append_eq_left
  have hmiddle : (b0 ++ b1 ++ b2).extractLsb' 8 8 = b1 := by
    rw [BitVec.extractLsb'_append_eq_of_le (by decide)]
    exact BitVec.extractLsb'_append_eq_right
  rw [packPair_eq, hbits, hfirst, hmiddle, BitVec.extractLsb'_append_eq_right]

/-! ### Streams -/

theorem length_packPair (a b : Color12) : (packPair a b).length = 3 := rfl

theorem length_streamBytes (ps : List Color12) : (streamBytes ps).length = 3 * ((ps.length + 1) / 2) := by
  induction ps using streamBytes.induct with
  | case1 => rfl
  | case2 a => simp [streamBytes, length_packPair]
  | case3 a b rest ih =>
    simp only [streamBytes, List.length_append, length_packPair, ih, List.length_cons]
    omega

/-- Group `k` of a stream packs the pixels `2k` and `2k + 1`, a last pixel without a neighbour with itself (R196). -/
theorem streamBytes_group (ps : List Color12) (k : Nat) (a : Color12) (ha : ps[2 * k]? = some a) :
    ((streamBytes ps).drop (3 * k)).take 3 = packPair a (ps[2 * k + 1]?.getD a) := by
  induction ps using streamBytes.induct generalizing k with
  | case1 => cases ha
  | case2 p =>
    obtain ⟨hlt, rfl⟩ := List.getElem?_eq_some_iff.1 ha
    obtain rfl : k = 0 := by
      rw [List.length_singleton] at hlt
      omega
    rfl
  | case3 p q rest ih =>
    cases k with
    | zero =>
      obtain rfl : p = a := Option.some.inj ha
      rfl
    | succ k => exact ih k ha

/-- A rectangle's stream is that of its equal pixels (R198). -/
theorem fillBytes_eq_streamBytes (c : Color12) (n : Nat) : fillBytes c n = streamBytes (List.replicate n c) := by
  induction n using Nat.twoStepInduction with
  | zero => rfl
  | one => rfl
  | more n ih _ =>
    have hgroups : ceil2 (n + 2) = ceil2 n + 1 := by
      unfold ceil2
      omega
    calc fillBytes c (n + 2)
      _ = packPair c c ++ fillBytes c n := by
        rw [fillBytes, hgroups, List.replicate_succ, List.flatten_cons, fillBytes]
      _ = streamBytes (List.replicate (n + 2) c) := by
        rw [ih, List.replicate_succ, List.replicate_succ, streamBytes]

/-- Settles O25. -/
theorem packingRoundTrips : Obligations.PackingRoundTrips := by
  unfold Obligations.PackingRoundTrips
  refine ⟨toNat_pack12, unpack12_eq, toNat_packPair, toNat_unpackPair, fun ps => ⟨length_streamBytes ps, ?_⟩,
    fillBytes_eq_streamBytes, pack12_unpack12, unpack12_pack12, unpackPair_packPair, packPair_unpackPair⟩
  intro k a ha
  rw [streamBytes_group ps k a ha, toNat_packPair]

end Sys2Proof.Proofs
end

