-- ==== Sys2Proof/Proofs/DrawCalls.lean ====
section
/-! Operations that redraw: what a list of draw calls puts on the wire from a free lock, that the regions of the border
lie in the panel (R222 g1), and how an operation waits in the `Acquire` of its first draw call (R140, R198). -/

namespace Sys2Proof.Proofs

open Sys2Proof.Machine Sys2Proof.Laws

/-! ### Draw calls from a free lock -/

/-- With the parameters `c` and the lock free, the primitive steps `acts` are all taken, and put the draw calls `es` on
the wire. -/
def Draws (c : Config) (op : Instr) (acts : List Act) (es : List Event) : Prop :=
  ∀ s : State, s.cfg = c → s.lock = false → runAll (stepsOf op acts) s = some (afterDraws es s)

theorem Draws.append {c : Config} {op : Instr} {as bs : List Act} {es fs : List Event} (ha : Draws c op as es)
    (hb : Draws c op bs fs) : Draws c op (as ++ bs) (es ++ fs) := by
  intro s hcfg hlock
  have hbs := hb (afterDraws es s) ((afterDraws_cfg es s).trans hcfg) (afterDraws_lock es s hlock)
  rw [stepsOf, List.map_append, runAll_append, ← stepsOf, ← stepsOf, ha s hcfg hlock, Option.bind_some, hbs,
    afterDraws_afterDraws]

theorem draws_fillAll {c : Config} {rs : List Region} (hin : ∀ r ∈ rs, nonEmpty r = true → inPanel c r = true)
    (op : Instr) (color : Color12) : Draws c op (fillAllActs rs color) (drawEvents rs color) :=
  fun s hcfg hlock => runAll_fillAll op rs color s hlock (hcfg ▸ hin)

/-! ### The regions lie in the panel -/

/-- The far corner of the outline is the near one and the viewport with its ring and gap (R220). -/
theorem outline_corners {c : Config} (hok : configOk c = true) :
    ox1 c = ox0 c + c.dstW + 1 + 2 * gapN c ∧ oy1 c = oy0 c + c.dstH + 1 + 2 * gapN c := by
  obtain ⟨_, ⟨_, _, hgapX, hgapY⟩, _⟩ := (configOk_iff c).1 hok
  simp only [ox0, ox1, oy0, oy1, mx, my, vx0, vy0]
  omega

/-- The outline lies in the panel (R7 c1). -/
theorem outline_in_panel {c : Config} (hok : configOk c = true) : ox1 c < c.panelW ∧ oy1 c < c.panelH := by
  obtain ⟨_, ⟨hwide, hhigh, hgapX, hgapY⟩, _⟩ := (configOk_iff c).1 hok
  simp only [ox1, oy1, vx0, vy0, marginX, marginY] at *
  omega

theorem inPanel_fillRegions {c : Config} (hok : configOk c = true) :
    ∀ r ∈ fillRegions c, nonEmpty r = true → inPanel c r = true := by
  obtain ⟨hx, hy⟩ := outline_corners hok
  obtain ⟨hright, hbottom⟩ := outline_in_panel hok
  have hleft : mx c = ox0 c := rfl
  have htop : my c = oy0 c := rfl
  simp only [fillRegions, List.forall_mem_cons, nonEmpty, inPanel, decide_eq_true_eq, hleft, htop, oh]
  refine ⟨?_, ?_, ?_, ?_, by simp⟩ <;> omega

theorem inPanel_outlineRegions {c : Config} (hok : configOk c = true) :
    ∀ r ∈ outlineRegions c, nonEmpty r = true → inPanel c r = true := by
  obtain ⟨hx, hy⟩ := outline_corners hok
  obtain ⟨hright, hbottom⟩ := outline_in_panel hok
  simp only [outlineRegions, List.forall_mem_cons, nonEmpty, inPanel, decide_eq_true_eq, ow, oh]
  refine ⟨?_, ?_, ?_, ?_, by simp⟩ <;> omega

theorem inPanel_gapRegions {c : Config} (hok : configOk c = true) :
    ∀ r ∈ gapRegions c, nonEmpty r = true → inPanel c r = true := by
  obtain ⟨hx, hy⟩ := outline_corners hok
  obtain ⟨hright, hbottom⟩ := outline_in_panel hok
  cases hgap : c.gap with
  | false => simp [gapRegions, hgap]
  | true =>
    have hone : gapN c = 1 := by simp [gapN, hgap]
    simp only [gapRegions, hgap, if_true, List.forall_mem_cons, nonEmpty, inPanel, decide_eq_true_eq]
    refine ⟨?_, ?_, ?_, ?_, by simp⟩ <;> omega

theorem inPanel_ledRegions {c : Config} (hok : configOk c = true) (orient : Bool) :
    ∀ r ∈ ledRegions c orient, nonEmpty r = true → inPanel c r = true := by
  obtain ⟨_, hbottom⟩ := outline_in_panel hok
  obtain ⟨_, hy⟩ := outline_corners hok
  obtain ⟨_, _, _, hled, _⟩ := (configOk_iff c).1 hok
  cases hpresent : c.ledPresent with
  | false => simp [ledRegions, hpresent]
  | true =>
    have hfits : c.ledH ≤ oy0 c := by simpa [ledFits, hpresent, oy0] using hled
    simp only [ledRegions, hpresent, if_true, List.forall_mem_singleton, nonEmpty, inPanel, decide_eq_true_eq]
    cases orient <;> simp only [if_true, Bool.false_eq_true, if_false] <;> omega

/-! ### Waiting for the lock -/

/-- A region with a pixel begins with an `Acquire` (R198), and so does a list with such a region in it. -/
theorem fillRectActs_eq_acquire_cons {r : Region} (h : nonEmpty r = true) (color : Color12) :
    ∃ rest, fillRectActs r color = .acquire :: rest := by
  have hsize : ¬(r.w = 0 ∨ r.h = 0) := by simpa [nonEmpty] using h
  exact ⟨_, if_neg hsize⟩

theorem fillAllActs_eq_acquire_cons {rs : List Region} (h : ∃ r ∈ rs, nonEmpty r = true) (color : Color12) :
    ∃ rest, fillAllActs rs color = .acquire :: rest := by
  induction rs with
  | nil => simp at h
  | cons r rs ih =>
    rw [fillAllActs, List.flatMap_cons, ← fillAllActs]
    cases hr : nonEmpty r with
    | true =>
      obtain ⟨rest, hrest⟩ := fillRectActs_eq_acquire_cons hr color
      exact ⟨_, by rw [hrest, List.cons_append]⟩
    | false =>
      rw [fillRectActs_empty r color hr, List.nil_append]
      exact ih (by simpa [hr] using h)

theorem fillAllActs_of_empty {rs : List Region} (h : ∀ r ∈ rs, nonEmpty r = false) (color : Color12) :
    fillAllActs rs color = [] :=
  List.flatMap_eq_nil_iff.2 fun r hr => fillRectActs_empty r color (h r hr)

/-- After the first primitive step of an operation, an `Acquire` of a lock that is held waits (R140). -/
theorem runRest_acquire_of_held (op : Instr) (rest : List PrimStep) (s : State) (hturns : s.turns = [])
    (hlock : s.lock = true) :
    runRest (⟨op, .acquire⟩ :: rest) s = { s with busy := ⟨op, .acquire⟩ :: rest } := by
  simp [runRest, hturns, runAct, hlock]

/-- A host inside an operation moves while the lock is free, and its draw calls then go on to their end. -/
theorem step_of_draws {op : Instr} {a : Act} {rest : List Act} {es : List Event} (s : State)
    (hdraws : Draws s.cfg op (a :: rest) es) (hok : configOk s.cfg = true) (hturns : s.turns = [])
    (hbusy : s.busy = stepsOf op (a :: rest)) (hlock : s.lock = false) :
    step s = .next (finished (afterDraws es s)) := by
  have hinside : s.busy ≠ [] := by simp [hbusy, stepsOf]
  have hcan : hostCanStep s = true := by simp [hostCanStep, hbusy, stepsOf, blocked, hlock]
  rw [step_free s hok hturns, freeStep, if_pos hcan, hostStep_of_busy s hinside, hbusy]
  exact runSteps_complete _ s _ hturns (hdraws s rfl hlock)

/-- What was left of the operation in progress does not show when it has finished. -/
theorem finished_afterDraws_busy (es : List Event) (s : State) (q : List PrimStep) :
    finished (afterDraws es { s with busy := q }) = finished (afterDraws es s) := by
  unfold afterDraws
  split <;> rfl

/-- An operation that has come to its first `Acquire` in the state `w`, with nothing but draw calls left: it waits for
the lock if from a free lock it ends as those draw calls do. -/
theorem waitsForLock_of_draws {i : Instr} {s w : State} {rest : List Act} {es : List Event}
    (hdraws : Draws w.cfg i (.acquire :: rest) es) (hok : configOk w.cfg = true) (hturns : w.turns = [])
    (hwaits : exec i s = .next { w with busy := stepsOf i (.acquire :: rest) })
    (hfree : exec i (freeLock s) = .next (finished (afterDraws es (freeLock w)))) : waitsForLock i s w := by
  refine ⟨stepsOf i rest, hwaits, fun _ => ?_⟩
  have hstep := step_of_draws { freeLock w with busy := stepsOf i (.acquire :: rest) } hdraws hok hturns rfl rfl
  rw [finished_afterDraws_busy] at hstep
  exact hstep.trans hfree.symm

end Sys2Proof.Proofs
end

