-- ==== Sys2Proof/Proofs/ColourSetters.lean ====
section
/-! O26 to O32: the colour setters and `INVERT`. Each stores first, without the lock, and then makes the draw calls of
the regions its colour owns, or none (R116, R117). -/

namespace Sys2Proof.Proofs

open Sys2Proof.Machine Sys2Proof.Laws

/-- The colour operand (R82, R116) is the low twelve bits. -/
theorem colorOf_eq (cval : Half) : colorOf cval = BitVec.ofNat 12 (cval.toNat % 4096) := by
  apply BitVec.eq_of_toNat_eq
  have hlow (n : Nat) : n &&& 4095 = n % 2 ^ 12 := Nat.and_two_pow_sub_one_eq_mod n 12
  simp [colorOf, hlow]

/-! ### A store, and draw calls after it -/

section StoreThenDraw

variable {i : Instr} {store : Act} {acts : List Act} {es : List Event} {s w : State}

/-- The store is taken in any state, and the rest of the operation follows. -/
theorem runOp_of_store (hstore : runAct i store s = .ok w) :
    runOp i (store :: acts) s = .next (runRest (stepsOf i acts) w) := by
  simp [runOp, stepsOf, runSteps, hstore]

/-- An operation that only stores. -/
theorem exec_of_store (hexec : exec i s = runOp i [store] s) (hstore : runAct i store s = .ok w) :
    exec i s = .next (finished w) :=
  hexec.trans (runOp_of_store hstore)

/-- With the lock free and nobody else moving, the draw calls follow the store. -/
theorem exec_of_store_draws (hexec : exec i s = runOp i (store :: acts) s) (hstore : runAct i store s = .ok w)
    (hdraws : Draws w.cfg i acts es) (hturns : w.turns = []) (hlock : w.lock = false) :
    exec i s = .next (finished (afterDraws es w)) := by
  rw [hexec, runOp_of_store hstore, runRest_complete _ w _ hturns (hdraws w rfl hlock)]
  rfl

/-- With the lock held the operation has stored, and waits in the `Acquire` of its first draw call. -/
theorem waitsForLock_of_store_draws (hexec : exec i s = runOp i (store :: acts) s)
    (hexec' : exec i (freeLock s) = runOp i (store :: acts) (freeLock s)) (hstore : runAct i store s = .ok w)
    (hstore' : runAct i store (freeLock s) = .ok (freeLock w)) (hacts : ∃ rest, acts = .acquire :: rest)
    (hdraws : Draws w.cfg i acts es) (hok : configOk w.cfg = true) (hturns : w.turns = []) (hlock : w.lock = true) :
    waitsForLock i s w := by
  obtain ⟨rest, rfl⟩ := hacts
  refine waitsForLock_of_draws hdraws hok hturns ?_ (exec_of_store_draws hexec' hstore' hdraws hturns rfl)
  rw [hexec, runOp_of_store hstore]
  exact congrArg _ (runRest_acquire_of_held i _ w hturns hlock)

end StoreThenDraw

/-! ### What each operation is made of -/

theorem whenDrawn_true {s : State} (h : s.borderDrawn = true) (acts : List Act) : whenDrawn s acts = acts := if_pos h

theorem whenDrawn_false {s : State} (h : s.borderDrawn = false) (acts : List Act) : whenDrawn s acts = [] := by
  simp [whenDrawn, h]

theorem exec_setBgColor (cval : Half) (s : State) :
    exec (.setBgColor cval) s = runOp (.setBgColor cval)
      (.setTheme .bg (colorOf cval) :: whenDrawn s (drawGapActs s.cfg (colorOf cval))) s := rfl

theorem exec_setBgColor_of_drawn {s : State} (hdrawn : s.borderDrawn = true) (cval : Half) :
    exec (.setBgColor cval) s = runOp (.setBgColor cval)
      (.setTheme .bg (colorOf cval) :: drawGapActs s.cfg (colorOf cval)) s := by
  rw [exec_setBgColor, whenDrawn_true hdrawn]

theorem exec_setBorderLineColor (cval : Half) (s : State) :
    exec (.setBorderLineColor cval) s = runOp (.setBorderLineColor cval)
      (.setTheme .bline (colorOf cval) :: whenDrawn s (drawOutlineActs s.cfg (colorOf cval))) s := rfl

theorem exec_setBorderLineColor_of_drawn {s : State} (hdrawn : s.borderDrawn = true) (cval : Half) :
    exec (.setBorderLineColor cval) s = runOp (.setBorderLineColor cval)
      (.setTheme .bline (colorOf cval) :: drawOutlineActs s.cfg (colorOf cval)) s := by
  rw [exec_setBorderLineColor, whenDrawn_true hdrawn]

theorem exec_setBorderFillColor (cval : Half) (s : State) :
    exec (.setBorderFillColor cval) s = runOp (.setBorderFillColor cval)
      (.setTheme .bfill (colorOf cval) ::
        whenDrawn s (drawFillsActs s.cfg (colorOf cval) ++ ledRenderActs s)) s := rfl

theorem exec_setBorderFillColor_of_drawn {s : State} (hdrawn : s.borderDrawn = true) (cval : Half) :
    exec (.setBorderFillColor cval) s = runOp (.setBorderFillColor cval)
      (.setTheme .bfill (colorOf cval) :: (drawFillsActs s.cfg (colorOf cval) ++ ledRenderActs s)) s := by
  rw [exec_setBorderFillColor, whenDrawn_true hdrawn]

theorem exec_invert_same (s : State) : exec (.invert s.inverted) s = .next (finished s) := by
  rw [exec, execInvert, if_pos rfl]
  rfl

theorem exec_invert_ne {flag : Bool} {s : State} (hflag : flag ≠ s.inverted) :
    exec (.invert flag) s = runOp (.invert flag)
      (.swapTheme flag :: whenDrawn s (drawGapActs s.cfg s.theme.pixel)) s := by
  rw [exec, execInvert, if_neg hflag]

theorem exec_invert_of_drawn {flag : Bool} {s : State} (hflag : flag ≠ s.inverted) (hdrawn : s.borderDrawn = true) :
    exec (.invert flag) s =
      runOp (.invert flag) (.swapTheme flag :: drawGapActs s.cfg s.theme.pixel) s := by
  rw [exec_invert_ne hflag, whenDrawn_true hdrawn]

/-! ### The draw calls of the gap band, the outline, the fills and the strip -/

theorem draws_gap {c : Config} (hok : configOk c = true) (op : Instr) (color : Color12) :
    Draws c op (drawGapActs c color) (drawEvents (gapRegions c) color) :=
  draws_fillAll (inPanel_gapRegions hok) op color

theorem drawGapActs_of_no_gap {c : Config} (hgap : c.gap = false) (color : Color12) : drawGapActs c color = [] := by
  simp [drawGapActs, gapRegions, hgap, fillAllActs]

theorem drawGapActs_eq_acquire_cons {c : Config} (hgap : c.gap = true) (color : Color12) :
    ∃ rest, drawGapActs c color = .acquire :: rest :=
  fillAllActs_eq_acquire_cons (by simp [gapRegions, hgap, nonEmpty]) color

theorem draws_outline {c : Config} (hok : configOk c = true) (op : Instr) (color : Color12) :
    Draws c op (drawOutlineActs c color) (drawEvents (outlineRegions c) color) :=
  draws_fillAll (inPanel_outlineRegions hok) op color

theorem drawOutlineActs_eq_acquire_cons (c : Config) (color : Color12) :
    ∃ rest, drawOutlineActs c color = .acquire :: rest :=
  fillAllActs_eq_acquire_cons (by simp [outlineRegions, nonEmpty, ow]) color

theorem draws_fillsAndStrip {s : State} (hok : configOk s.cfg = true) (op : Instr) (color : Color12) :
    Draws s.cfg op (drawFillsActs s.cfg color ++ ledRenderActs s) (fillEvents s color ++ ledEvents s) :=
  (draws_fillAll (inPanel_fillRegions hok) op color).append (draws_fillAll (inPanel_ledRegions hok s.orient) op _)

theorem drawFillsActs_eq_acquire_cons {c : Config} (h : ∃ r ∈ fillRegions c, nonEmpty r = true) (color : Color12)
    (acts : List Act) : ∃ rest, drawFillsActs c color ++ acts = .acquire :: rest := by
  obtain ⟨rest, hrest⟩ := fillAllActs_eq_acquire_cons h color
  exact ⟨rest ++ acts, by rw [drawFillsActs, hrest, List.cons_append]⟩

/-- The strip lies in a fill strip (R7 c3), so there is none where all four are empty. -/
theorem ledRegions_of_empty_fills {c : Config} (hok : configOk c = true) (orient : Bool)
    (h : ∀ r ∈ fillRegions c, nonEmpty r = false) : ledRegions c orient = [] := by
  obtain ⟨hranges, _, _, hled, _⟩ := (configOk_iff c).1 hok
  have htop : nonEmpty ⟨0, 0, c.panelW, my c⟩ = false := h _ (by simp [fillRegions])
  have hmy : c.panelW ≠ 0 → my c = 0 := by simpa [nonEmpty] using htop
  have habsent : c.ledPresent = false := by
    by_contra hpresent
    have hfits : c.ledH ≤ my c := by simpa [ledFits, hpresent] using hled
    omega
  simp [ledRegions, habsent]

theorem fillsAndStrip_of_empty_fills {s : State} (hok : configOk s.cfg = true)
    (h : ∀ r ∈ fillRegions s.cfg, nonEmpty r = false) (color : Color12) :
    drawFillsActs s.cfg color ++ ledRenderActs s = [] := by
  rw [drawFillsActs, fillAllActs_of_empty h, ledRenderActs, ledRegions_of_empty_fills hok s.orient h]
  rfl

/-! ### The settlements -/

/-- Settles O26. -/
theorem pixelSetterStores : Obligations.PixelSetterStores := by
  unfold Obligations.PixelSetterStores
  intro s cval
  rw [← colorOf_eq]
  exact ⟨rfl, exec_of_store (store := .setTheme .pixel (colorOf cval)) rfl rfl⟩

/-- Settles O27: the redraw part of each setter is empty. -/
theorem settersBeforeTheFirstDrawOnlyStore : Obligations.SettersBeforeTheFirstDrawOnlyStore := by
  unfold Obligations.SettersBeforeTheFirstDrawOnlyStore
  intro s cval hdrawn
  rw [← colorOf_eq]
  refine ⟨?_, ?_, ?_⟩
  · exact exec_of_store (by rw [exec_setBgColor, whenDrawn_false hdrawn]) rfl
  · exact exec_of_store (by rw [exec_setBorderLineColor, whenDrawn_false hdrawn]) rfl
  · exact exec_of_store (by rw [exec_setBorderFillColor, whenDrawn_false hdrawn]) rfl

/-- Settles O28. -/
theorem backgroundSetterRedrawsTheGap : Obligations.BackgroundSetterRedrawsTheGap := by
  unfold Obligations.BackgroundSetterRedrawsTheGap
  intro s cval hok hdrawn hturns
  rw [← colorOf_eq]
  have hexec := exec_setBgColor_of_drawn hdrawn cval
  have hdraws := draws_gap hok (.setBgColor cval) (colorOf cval)
  refine ⟨fun hlock => ?_, fun hgap => ?_, fun hlock hgap => ?_⟩
  · exact exec_of_store_draws hexec rfl hdraws hturns hlock
  · rw [drawGapActs_of_no_gap hgap] at hexec
    exact exec_of_store hexec rfl
  · exact waitsForLock_of_store_draws hexec (exec_setBgColor_of_drawn (s := freeLock s) hdrawn cval) rfl rfl
      (drawGapActs_eq_acquire_cons hgap _) hdraws hok hturns hlock

/-- Settles O29. -/
theorem lineSetterRedrawsTheOutline : Obligations.LineSetterRedrawsTheOutline := by
  unfold Obligations.LineSetterRedrawsTheOutline
  intro s cval hok hdrawn hturns
  rw [← colorOf_eq]
  have hexec := exec_setBorderLineColor_of_drawn hdrawn cval
  have hdraws := draws_outline hok (.setBorderLineColor cval) (colorOf cval)
  refine ⟨fun hlock => ?_, fun hlock => ?_⟩
  · exact exec_of_store_draws hexec rfl hdraws hturns hlock
  · exact waitsForLock_of_store_draws hexec (exec_setBorderLineColor_of_drawn (s := freeLock s) hdrawn cval) rfl rfl
      (drawOutlineActs_eq_acquire_cons s.cfg _) hdraws hok hturns hlock

/-- Settles O30. -/
theorem fillSetterRedrawsFillsAndStrip : Obligations.FillSetterRedrawsFillsAndStrip := by
  unfold Obligations.FillSetterRedrawsFillsAndStrip
  intro s cval hok hdrawn hturns
  rw [← colorOf_eq]
  have hexec := exec_setBorderFillColor_of_drawn hdrawn cval
  have hdraws := draws_fillsAndStrip hok (.setBorderFillColor cval) (colorOf cval)
  refine ⟨fun hlock => ?_, fun hlock ⟨r, hr, hw, hh⟩ => ?_, fun hempty => ?_⟩
  · exact exec_of_store_draws hexec rfl hdraws hturns hlock
  · have hpixel : nonEmpty r = true := decide_eq_true ⟨by omega, by omega⟩
    exact waitsForLock_of_store_draws hexec (exec_setBorderFillColor_of_drawn (s := freeLock s) hdrawn cval) rfl rfl
      (drawFillsActs_eq_acquire_cons ⟨r, hr, hpixel⟩ _ _) hdraws hok hturns hlock
  · have hnone : ∀ r ∈ fillRegions s.cfg, nonEmpty r = false := fun r hr =>
      decide_eq_false fun ⟨hw, hh⟩ => (hempty r hr).elim hw hh
    rw [fillsAndStrip_of_empty_fills hok hnone] at hexec
    exact exec_of_store hexec rfl

/-- Settles O31. -/
theorem invertSwapsOnce : Obligations.InvertSwapsOnce := by
  unfold Obligations.InvertSwapsOnce
  intro s flag
  refine ⟨?_, fun hflag hnone => ?_, fun hflag hdrawn hok ⟨hturns, hlock⟩ => ?_,
    fun hflag hdrawn hgap hok hturns hlock => ?_⟩
  · rintro rfl
    exact exec_invert_same s
  · have hacts : whenDrawn s (drawGapActs s.cfg s.theme.pixel) = [] := by
      rcases hnone with hdrawn | hgap
      · exact whenDrawn_false hdrawn _
      · rw [drawGapActs_of_no_gap hgap, whenDrawn, ite_self]
    exact exec_of_store (by rw [exec_invert_ne hflag, hacts]) rfl
  · exact exec_of_store_draws (exec_invert_of_drawn hflag hdrawn) rfl (draws_gap hok _ _) hturns hlock
  · exact waitsForLock_of_store_draws (exec_invert_of_drawn hflag hdrawn)
      (exec_invert_of_drawn (s := freeLock s) hflag hdrawn) rfl rfl (drawGapActs_eq_acquire_cons hgap _)
      (draws_gap hok _ _) hok hturns hlock

/-- Settles O32: `INVERT` writes neither `LED` nor `ORIENT`, and the strip depends on nothing else but the parameters
(R124). -/
theorem invertLeavesTheLedColour : Obligations.InvertLeavesTheLedColour := by
  unfold Obligations.InvertLeavesTheLedColour
  intro s t flag h
  have hled : t.led = s.led := exec_same .led _ s t h (by simp [mayWrite])
  have horient : t.orient = s.orient := exec_same .orient _ s t h (by simp [mayWrite])
  obtain ⟨hcfg, _⟩ := exec_frame _ s t h
  exact ⟨hled, horient, by rw [ledEvents, ledEvents, hled, horient, hcfg]⟩

end Sys2Proof.Proofs
end

