-- ==== Sys2Proof/Proofs/BusOperations.lean ====
section
/-! O8 to O12 and O15: the operations of the bus (R140 to R152). Most are one primitive step: the operation ends with it
(`exec_of_store`, which holds of every operation of one step), or faults or waits as it does. -/

namespace Sys2Proof.Proofs

open Sys2Proof.Machine Sys2Proof.Laws

/-! ### Operations of one step that is taken only under the lock (R152) -/

section UnderLock

variable {i : Instr} {act : Act} {s w : State}

theorem exec_underLock_of_held (hexec : exec i s = runOp i [act] s) (hact : runAct i act s = underLock i s w)
    (hheld : s.holder = .cons 0) : exec i s = .next (finished w) :=
  exec_of_store hexec (hact.trans ((underLock_ok_iff i s w w).2 ⟨hheld, rfl⟩))

theorem exec_underLock_of_not_held (hexec : exec i s = runOp i [act] s) (hact : runAct i act s = underLock i s w)
    (hheld : s.holder ≠ .cons 0) : exec i s = .fault (.noLock i) :=
  hexec.trans (runSteps_of_fault ⟨i, act⟩ [] s _ (hact.trans ((underLock_fault_iff i s w _).2 ⟨hheld, rfl⟩)))

end UnderLock

/-! ### The lock -/

theorem runAct_acquire_of_free (op : Instr) (s : State) (hlock : s.lock = false) :
    runAct op .acquire s = .ok (takeLock (.cons 0) s) := by
  simp [runAct, hlock]

theorem runAct_acquire_of_held (op : Instr) (s : State) (hlock : s.lock = true) : runAct op .acquire s = .wait := by
  simp [runAct, hlock]

/-- A step that waits leaves the operation in progress (R140: the host spins). -/
theorem runSteps_of_wait (p : PrimStep) (ps : List PrimStep) (s : State) (h : runAct p.op p.act s = .wait) :
    runSteps (p :: ps) s = .next { s with busy := p :: ps } := by
  simp [runSteps, h]

/-- Settles O8: the operation is the one step that claims a free lock and waits for any other. -/
theorem acquireClaimsOrSpins : Obligations.AcquireClaimsOrSpins := by
  unfold Obligations.AcquireClaimsOrSpins
  refine ⟨rfl, fun s => ⟨fun hlock => ?_, fun hlock => ?_⟩⟩
  · exact exec_of_store rfl (runAct_acquire_of_free _ s hlock)
  · exact runSteps_of_wait ⟨_, _⟩ [] s (runAct_acquire_of_held _ s hlock)

theorem runAct_release_of_held (op : Instr) (s : State) (hheld : s.holder = .cons 0) :
    runAct op .release s = .ok (freeLock s) := if_pos hheld

theorem runAct_release_of_not_held (op : Instr) (s : State) (hheld : s.holder ≠ .cons 0) :
    runAct op .release s = .fault (.release op) := if_neg hheld

/-- Settles O9. -/
theorem releaseFreesTheHostsLock : Obligations.ReleaseFreesTheHostsLock := by
  unfold Obligations.ReleaseFreesTheHostsLock
  refine ⟨rfl, fun s => ⟨fun hheld => ?_, fun hheld => ?_⟩⟩
  · exact exec_of_store rfl (runAct_release_of_held _ s hheld)
  · exact runSteps_of_fault ⟨_, _⟩ [] s _ (runAct_release_of_not_held _ s hheld)

/-! ### The lines and the wire -/

/-- Settles O10: each of the four is one step under the lock. -/
theorem lineOperationsSetTheLine : Obligations.LineOperationsSetTheLine := by
  unfold Obligations.LineOperationsSetTheLine
  refine ⟨rfl, rfl, rfl, rfl, fun s => ⟨fun hheld => ?_, fun hheld => ?_⟩⟩
  · refine ⟨?_, ?_, ?_, ?_⟩ <;> exact exec_underLock_of_held rfl rfl hheld
  · refine ⟨?_, ?_, ?_, ?_⟩ <;> exact exec_underLock_of_not_held rfl rfl hheld

/-- Settles O11: the step that moves the reset line is taken in every state. -/
theorem resetLineNeedsNoLock : Obligations.ResetLineNeedsNoLock := by
  unfold Obligations.ResetLineNeedsNoLock
  exact ⟨rfl, rfl, fun s => ⟨exec_of_store (store := .rstAssert) rfl rfl, exec_of_store (store := .rstRelease) rfl rfl⟩⟩

/-- Settles O12. -/
theorem writeByteEmitsOneByte : Obligations.WriteByteEmitsOneByte := by
  unfold Obligations.WriteByteEmitsOneByte
  exact fun s b => ⟨rfl, exec_writeByte b s, exec_underLock_of_not_held rfl rfl⟩

/-! ### Without the lock -/

theorem exec_setWriteRegion_of_not_held (x y : Byte) (w h : Half) (s : State) (hheld : s.holder ≠ .cons 0) :
    exec (.setWriteRegion x y w h) s = .fault (.noLock (.setWriteRegion x y w h)) :=
  runSteps_of_fault _ _ s _ (runAct_requireRegion_of_not_held _ _ _ _ _ s hheld)

theorem exec_startTransfer_of_not_held (src : Addr) (len : Count) (s : State) (hheld : s.holder ≠ .cons 0) :
    exec (.startTransfer src len) s = .fault (.noLock (.startTransfer src len)) :=
  runSteps_of_fault ⟨_, .startTransfer src len⟩ [] s _ (if_neg hheld)

/-- Settles O15: the first primitive step of each of the eight looks at the lock first (R303). -/
theorem busOperationsNeedTheLock : Obligations.BusOperationsNeedTheLock := by
  unfold Obligations.BusOperationsNeedTheLock
  rintro s i hheld (rfl | rfl | ⟨b, rfl⟩ | ⟨code, rfl⟩ | ⟨x, y, w, h, rfl⟩ | rfl | rfl | ⟨src, len, rfl⟩)
  · exact exec_underLock_of_not_held rfl rfl hheld
  · exact exec_underLock_of_not_held rfl rfl hheld
  · exact exec_underLock_of_not_held rfl rfl hheld
  · exact exec_sendCommand_of_not_held code s hheld
  · exact exec_setWriteRegion_of_not_held x y w h s hheld
  · exact exec_underLock_of_not_held rfl rfl hheld
  · exact exec_underLock_of_not_held rfl rfl hheld
  · exact exec_startTransfer_of_not_held src len s hheld

end Sys2Proof.Proofs
end

