-- ==== Sys2Proof/Proofs/HeldLock.lean ====
section
/-! O16: what a host operation can do while another has the lock. Of its primitive steps only those are then taken that
need no lock (`needsLock`), and of these only the two of the reset line reach the wire. -/

namespace Sys2Proof.Proofs

open Sys2Proof.Machine Sys2Proof.Laws

/-- `t` has the owner of the lock and the lines of `s`, and its trace goes on with events of the reset line only. -/
def OffTheBus (s t : State) : Prop :=
  owner t = owner s ∧ t.cs = s.cs ∧ t.dc = s.dc ∧ ∃ es, t.wt = s.wt ++ es ∧ ∀ e ∈ es, ∃ a, e = Event.rst a

theorem OffTheBus.refl (s : State) : OffTheBus s s := ⟨rfl, rfl, rfl, [], by simp⟩

theorem OffTheBus.trans {s t u : State} (h : OffTheBus s t) (h' : OffTheBus t u) : OffTheBus s u := by
  obtain ⟨howner, hcs, hdc, es, hwt, hes⟩ := h
  obtain ⟨howner', hcs', hdc', es', hwt', hes'⟩ := h'
  exact ⟨howner'.trans howner, hcs'.trans hcs, hdc'.trans hdc, es ++ es', by rw [hwt', hwt, List.append_assoc],
    fun e he => (List.mem_append.1 he).elim (hes e) (hes' e)⟩

theorem offTheBus_setRst (s : State) (a : RstLine) : OffTheBus s (setRst a s) :=
  ⟨rfl, rfl, rfl, [.rst a], rfl, by simp⟩

theorem offTheBus_storeByte (a : Nat) (b : Byte) (s t : State) (h : storeByte a b s = .ok t) : OffTheBus s t := by
  obtain ⟨_, rfl⟩ := (storeByte_ok_iff a b s t).1 h
  exact .refl s

/-- A step that needs no lock does nothing on the bus. -/
theorem runAct_offTheBus (op : Instr) (act : Act) (s t : State) (h : runAct op act s = .ok t)
    (hact : needsLock act = false) : OffTheBus s t := by
  cases act with
  | rstAssert =>
    obtain rfl : setRst .asserted s = t := ActResult.ok.inj h
    exact offTheBus_setRst s _
  | rstRelease =>
    obtain rfl : setRst .released s = t := ActResult.ok.inj h
    exact offTheBus_setRst s _
  | compose buf =>
    simp only [runAct] at h
    split at h
    · obtain rfl := ActResult.ok.inj h
      exact .refl s
    · cases h
  | storeStream i => exact offTheBus_storeByte _ _ { s with stream := s.stream.tail } t h
  | clearByte buf i => exact offTheBus_storeByte _ _ s t h
  | setTheme | swapTheme | setLed | setLeds | setOrient | setBorderDrawn =>
    obtain rfl := ActResult.ok.inj h
    exact .refl s
  | _ => cases hact

/-- While another has the lock, no step that needs it is taken. -/
theorem needsLock_of_heldByAnother (op : Instr) (act : Act) (s t : State) (h : runAct op act s = .ok t)
    (hlock : s.lock = true) (hother : s.holder ≠ .cons 0) : needsLock act = false := by
  by_contra hneed
  rcases runAct_needsLock op act s t h (by simpa using hneed) with ⟨_, hfree⟩ | hheld
  · simp [hlock] at hfree
  · exact hother hheld

/-- Primitive steps of any operation, begun or gone on with while another has the lock. -/
theorem runSteps_offTheBus (ps : List PrimStep) (s t : State) (hlock : s.lock = true) (hother : s.holder ≠ .cons 0)
    (h : runSteps ps s = .next t) : OffTheBus s t := by
  refine runSteps_keeps (OffTheBus s) ps s t h (fun p _ u v hu huv => ?_)
    (fun _ _ hu => hu) (fun _ _ hu => hu) (fun _ hu => hu) (.refl s)
  obtain ⟨howner, _⟩ := id hu
  obtain ⟨hlocku, hholderu⟩ : u.lock = s.lock ∧ u.holder = s.holder := by simpa [owner] using howner
  have hneed := needsLock_of_heldByAnother p.op p.act u v huv (hlocku.trans hlock) (hholderu ▸ hother)
  exact hu.trans (runAct_offTheBus p.op p.act u v huv hneed)

/-- Settles O16: the primitive steps taken are those that need no lock. -/
theorem heldLockKeepsTheHostOffTheWire : Obligations.HeldLockKeepsTheHostOffTheWire := by
  unfold Obligations.HeldLockKeepsTheHostOffTheWire
  intro i s t hlock hother h
  obtain ⟨_, hrun⟩ := exec_next i s t h
  obtain ⟨howner, hcs, hdc, hwt⟩ := runSteps_offTheBus _ s t hlock hother hrun
  obtain ⟨hlockt, hholder⟩ : t.lock = s.lock ∧ t.holder = s.holder := by simpa [owner] using howner
  exact ⟨hlockt.trans hlock, hholder, hcs, hdc, hwt⟩

end Sys2Proof.Proofs
end

