-- ==== Sys2Proof/Proofs/Spinning.lean ====
section
/-! O17, O18 and O23: the other consumers' steps, and the host that waits in an `Acquire`: for ever when it holds the
lock itself, until the completion handler's step when the channel holds it. -/

namespace Sys2Proof.Proofs

open Sys2Proof.Machine Sys2Proof.Laws

/-! ### The steps of another consumer (R158) -/

theorem otherAcquire_of_consumer {k : Nat} {s : State} (hk : isConsumer s.cfg k = true) :
    otherAcquire k s = if s.lock = false then takeLock (.cons k) s else s := by
  simp [otherAcquire, hk]

theorem otherByte_of_consumer {k : Nat} {s : State} (hk : isConsumer s.cfg k = true) (b : Byte) :
    otherByte k b s = if s.holder = .cons k then emit (.other k s.cs s.dc b) s else s := by
  simp [otherByte, hk]

theorem otherRelease_of_consumer {k : Nat} {s : State} (hk : isConsumer s.cfg k = true) :
    otherRelease k s = if s.holder = .cons k then freeLock s else s := by
  simp [otherRelease, hk]

/-- Settles O17, turn by turn. -/
theorem otherConsumersShareTheLock : Obligations.OtherConsumersShareTheLock := by
  unfold Obligations.OtherConsumersShareTheLock
  intro s k b ts hok hlow hhigh
  have hk : isConsumer s.cfg k = true := decide_eq_true ⟨hlow, hhigh⟩
  refine ⟨fun hturns => ?_, fun hturns => ?_, fun hturns => ?_⟩ <;> rw [step_turn s _ ts hok hturns]
  · exact congrArg _ (otherAcquire_of_consumer (s := { s with turns := ts }) hk)
  · exact congrArg _ (otherByte_of_consumer (s := { s with turns := ts }) hk b)
  · exact congrArg _ (otherRelease_of_consumer (s := { s with turns := ts }) hk)

/-! ### The host that waits -/

/-- The host's turn while its next primitive step is an `Acquire` of a held lock (R140: the host spins). -/
theorem hostStep_of_spinning {s : State} {op : Instr} {rest : List PrimStep} (hbusy : s.busy = ⟨op, .acquire⟩ :: rest)
    (hlock : s.lock = true) : hostStep s = .next s := by
  rw [hostStep_of_busy s (by simp [hbusy]), hbusy, runSteps_of_wait _ _ s (runAct_acquire_of_held op s hlock), ← hbusy]

/-- The host holds the lock, waits for it, and no transfer is there whose handler could free it (R140 c1). -/
structure SelfBlocked (s : State) : Prop where
  admitted : configOk s.cfg = true
  lock : s.lock = true
  holder : s.holder = .cons 0
  idle : s.dstate = .idle
  waits : ∃ op rest, s.busy = ⟨op, .acquire⟩ :: rest

namespace SelfBlocked

variable {s : State}

theorem withTurns (h : SelfBlocked s) (ts : List Turn) : SelfBlocked { s with turns := ts } :=
  ⟨h.admitted, h.lock, h.holder, h.idle, h.waits⟩

theorem hostStep (h : SelfBlocked s) : hostStep s = .next s := by
  obtain ⟨op, rest, hbusy⟩ := h.waits
  exact hostStep_of_spinning hbusy h.lock

theorem otherAcquire (h : SelfBlocked s) (k : Nat) : otherAcquire k s = s := by
  rcases otherAcquire_cases k s with he | ⟨hfree, _⟩
  · exact he
  · simp [h.lock] at hfree

theorem otherByte (h : SelfBlocked s) (k : Nat) (b : Byte) : otherByte k b s = s := by
  rcases otherByte_cases k b s with he | ⟨hk, hcons, _⟩
  · exact he
  · exact absurd hcons (not_isConsumer_of_host s k h.holder hk)

theorem otherRelease (h : SelfBlocked s) (k : Nat) : otherRelease k s = s := by
  rcases otherRelease_cases k s with he | ⟨hk, hcons, _⟩
  · exact he
  · exact absurd hcons (not_isConsumer_of_host s k h.holder hk)

theorem hostStore (h : SelfBlocked s) (a : Nat) (b : Byte) : hostStore a b s = s := by
  obtain ⟨op, rest, hbusy⟩ := h.waits
  exact hostStore_of_busy a b s (by simp [hbusy])

/-- No agent has a step that changes anything. -/
theorem turnStep (h : SelfBlocked s) (a : Turn) : turnStep a s = .next s := by
  cases a with
  | host => exact h.hostStep
  | dmaBeat => exact dmaBeat_of_idle s h.idle
  | dmaIrq => exact dmaIrq_of_idle s h.idle
  | oAcquire k => exact congrArg _ (h.otherAcquire k)
  | oByte k b => exact congrArg _ (h.otherByte k b)
  | oRelease k => exact congrArg _ (h.otherRelease k)
  | hostStore p b => exact congrArg _ (h.hostStore p b)

theorem freeStep (h : SelfBlocked s) : freeStep s = .next s := by
  unfold Machine.freeStep
  split
  · exact h.hostStep
  · split
    · exact dmaIrq_of_idle s h.idle
    · exact dmaBeat_of_idle s h.idle

/-- A step uses a turn of the script up, and does nothing else. -/
theorem step (h : SelfBlocked s) : step s = .next { s with turns := s.turns.drop 1 } := by
  cases hts : s.turns with
  | nil =>
    rw [step_free s h.admitted hts, h.freeStep, List.drop_nil, ← hts]
  | cons a ts =>
    rw [step_turn s a ts h.admitted hts, (h.withTurns ts).turnStep a]
    rfl

/-- So the run hangs: after any number of steps only the script is shorter. -/
theorem runMachine (h : SelfBlocked s) (n : Nat) : runMachine n s = .next { s with turns := s.turns.drop n } := by
  induction n generalizing s with
  | zero => rfl
  | succ n ih =>
    rw [runMachine_succ n s _ h.step, ih (h.withTurns _)]
    simp

end SelfBlocked

/-- Settles O18: the run never leaves the state in which the host blocks itself. -/
theorem reentrantAcquireHangs : Obligations.ReentrantAcquireHangs := by
  unfold Obligations.ReentrantAcquireHangs
  intro s op rest n hok hlock hheld hidle hbusy
  have hblocked : SelfBlocked s := ⟨hok, hlock, hheld, hidle, op, rest, hbusy⟩
  exact ⟨_, hblocked.runMachine n, rfl, hlock, hheld, rfl⟩

/-! ### The handler lifts the spin -/

theorem irqEnabled_of_pending {s : State} (hpend : s.irqPend = true) (hen : s.irqEn = true)
    (hflying : s.dstate = .inFlight) : irqEnabled s = true := by
  simp [irqEnabled, hpend, hen, hflying]

theorem dmaIrq_of_enabled {s : State} (h : irqEnabled s = true) : dmaIrq s = .next (takeCompletion s) := by
  simp [dmaIrq, h]

/-- The host inside `ACQUIRE` claims a lock that has become free, and the operation finishes. -/
theorem hostStep_acquire_of_free {s : State} (hbusy : s.busy = [⟨.acquire, .acquire⟩]) (hlock : s.lock = false) :
    hostStep s = .next (finished (takeLock (.cons 0) s)) := by
  rw [hostStep_of_busy s (by simp [hbusy]), hbusy]
  exact exec_of_store (i := .acquire) rfl (runAct_acquire_of_free _ s hlock)

/-- Settles O23: the three turns, one step each. -/
theorem handlerLiftsTheSpin : Obligations.HandlerLiftsTheSpin := by
  unfold Obligations.HandlerLiftsTheSpin
  intro s hok hbusy hlock hpend hen hflying hturns
  have hspin : step s = .next { s with turns := [.dmaIrq, .host] } := by
    rw [step_turn s _ _ hok hturns]
    exact hostStep_of_spinning hbusy hlock
  have hhandler : step { s with turns := [.dmaIrq, .host] } = .next (takeCompletion { s with turns := [.host] }) := by
    rw [step_turn { s with turns := [.dmaIrq, .host] } _ _ hok rfl]
    exact dmaIrq_of_enabled (irqEnabled_of_pending hpend hen hflying)
  have hclaim : step (takeCompletion { s with turns := [.host] }) =
      .next (finished (takeLock (.cons 0) (takeCompletion { s with turns := [] }))) := by
    rw [step_turn (takeCompletion { s with turns := [.host] }) _ _ hok rfl]
    exact hostStep_acquire_of_free hbusy rfl
  have hafterSpin (n : Nat) := runMachine_succ n s _ hspin
  have hafterHandler (n : Nat) := (hafterSpin (n + 1)).trans (runMachine_succ n _ _ hhandler)
  have hafterClaim := (hafterHandler 1).trans (runMachine_succ 0 _ _ hclaim)
  exact ⟨hafterSpin 0, ⟨_, hafterHandler 0, rfl, rfl, rfl, rfl⟩, _, hafterClaim, rfl, rfl, rfl, rfl, rfl, rfl, rfl⟩

end Sys2Proof.Proofs
end

