-- ==== Sys2Proof/Proofs/DmaTransfer.lean ====
section
/-! O19, O20, O22 and O24: the DMA channel. What `START_TRANSFER` leaves (R170) is said once as `Armed`, what `k` beats
have made of it (R174) as `Sent`; a beat of the channel takes `Sent` from `k` to `k + 1`, and after the last one the
completion handler has its step (R176). -/

namespace Sys2Proof.Proofs

open Sys2Proof.Machine Sys2Proof.Laws

/-! ### Starting a transfer (R170) -/

theorem shifted_zero {n : Nat} (v : BitVec n) : shifted v 0 = v.setWidth 64 := by
  rw [shifted, BitVec.shiftLeft_zero]

/-- The state `START_TRANSFER src, len` leaves. -/
def armed (src : Addr) (len : Count) (s : State) : State :=
  { s with
    td := ⟨src, len, s.cfg.spiDrAddr, true⟩, srcPast := false, irqEn := true, chEn := true, dstate := .inFlight,
    holder := .dma }

theorem startDma_of_idle (op : Instr) (src : Addr) (len : Count) (s : State) (hheld : s.holder = .cons 0)
    (hidle : s.dstate = .idle) (hoff : s.chEn = false) (hlen : len ≠ 0) :
    startDma op src len s = .ok (armed src len s) :=
  (startDma_ok_iff op src len s _).2 ⟨hheld, hidle, hoff, hlen, rfl⟩

theorem startDma_of_busy (op : Instr) (src : Addr) (len : Count) (s : State) (hheld : s.holder = .cons 0)
    (hbusy : s.dstate ≠ .idle ∨ s.chEn = true) : startDma op src len s = .fault (.dmaBusy op) := by
  have hnot : ¬(s.dstate = .idle ∧ s.chEn = false) := fun ⟨hidle, hoff⟩ => by simp [hidle, hoff] at hbusy
  rw [startDma, if_pos hheld, if_neg hnot]

theorem startDma_of_no_bytes (op : Instr) (src : Addr) (s : State) (hheld : s.holder = .cons 0)
    (hidle : s.dstate = .idle) (hoff : s.chEn = false) : startDma op src 0 s = .fault (.lenZero op) := by
  rw [startDma, if_pos hheld, if_pos ⟨hidle, hoff⟩, if_pos rfl]

theorem exec_startTransfer_of_idle (src : Addr) (len : Count) (s : State) (hheld : s.holder = .cons 0)
    (hidle : s.dstate = .idle) (hoff : s.chEn = false) (hlen : len ≠ 0) :
    exec (.startTransfer src len) s = .next (finished (armed src len s)) :=
  exec_of_store rfl (startDma_of_idle _ src len s hheld hidle hoff hlen)

/-- Settles O19: the operation is the one step of R170, whose preconditions are checked in the order of R303. -/
theorem startTransferArmsTheChannel : Obligations.StartTransferArmsTheChannel := by
  unfold Obligations.StartTransferArmsTheChannel
  intro s src len
  have hfault (f : Fault) (h : startDma (.startTransfer src len) src len s = .fault f) :
      exec (.startTransfer src len) s = .fault f := runSteps_of_fault ⟨_, .startTransfer src len⟩ [] s f h
  refine ⟨?_, exec_startTransfer_of_idle src len s, exec_startTransfer_of_not_held src len s,
    fun hheld hbusy => hfault _ (startDma_of_busy _ src len s hheld hbusy), fun hheld hidle hoff hlen => ?_⟩
  · simp only [encode, wordT, shifted_zero]
    rfl
  · subst hlen
    exact hfault _ (startDma_of_no_bytes _ src s hheld hidle hoff)

/-! ### One beat (R174) -/

theorem dmaBeat_of_disabled (s : State) (h : beatEnabled s = false) : dmaBeat s = .next s := by
  simp [dmaBeat, h]

theorem dmaBeat_of_unallocated (s : State) (hbeat : beatEnabled s = true) (hpast : s.srcPast = false)
    (hread : memRead s.mem s.td.src.toNat = none) : dmaBeat s = .fault (.mem s.td.src.toNat) := by
  have hload : load s.mem s.td.src.toNat = .error (.mem s.td.src.toNat) :=
    (load_error_iff _ _ _).2 ⟨by simp [admitted, hread], rfl⟩
  simp [dmaBeat, hbeat, hpast, hload]

/-- The increment of `TD.SRC` that stays inside the address space, or is not asked for. -/
theorem advanceSource_inside (s : State) (h : s.td.inc = true → s.td.src.toNat + 1 < addrSpace) :
    advanceSource s = { s with td := { s.td with src := if s.td.inc then s.td.src + 1 else s.td.src } } := by
  cases hinc : s.td.inc with
  | true => simp [advanceSource, hinc, h hinc]
  | false =>
    simp only [advanceSource, hinc, Bool.false_eq_true, if_false]
    rw [← hinc]

theorem toNat_pred (x : Count) (h : 0 < x.toNat) : (x - 1).toNat = x.toNat - 1 :=
  BitVec.toNat_sub_of_le (BitVec.le_def.2 h)

theorem pred_eq_zero_iff (x : Count) (h : 0 < x.toNat) : x - 1 = 0 ↔ x.toNat = 1 := by
  have hpred := toNat_pred x h
  have hzero : (0 : Count).toNat = 0 := rfl
  rw [← BitVec.toNat_inj, hpred, hzero]
  omega

/-- The count after a beat of a transfer with bytes left: the last one raises transfer-complete. -/
theorem countBeat_of_pos (s : State) (h : 0 < s.td.cnt.toNat) :
    countBeat s = { s with
      td := { s.td with cnt := s.td.cnt - 1 }, irqPend := if s.td.cnt.toNat = 1 then true else s.irqPend } :=
  congrArg (fun pend : Bool => { s with td := { s.td with cnt := s.td.cnt - 1 }, irqPend := pend })
    (if_congr (pred_eq_zero_iff s.td.cnt h) rfl rfl)

/-- Settles O20: a beat is not enabled, faults at a byte that is not allocated, or sends the byte. -/
theorem dmaBeatMovesOneByte : Obligations.DmaBeatMovesOneByte := by
  unfold Obligations.DmaBeatMovesOneByte
  intro s ts hok hturns
  rw [step_turn s _ ts hok hturns]
  refine ⟨fun hoff => ?_, fun hflying hen hcnt hpast => ?_⟩
  · refine dmaBeat_of_disabled _ ?_
    rw [← Bool.not_eq_true, beatEnabled_iff]
    exact hoff
  have hbeat : beatEnabled { s with turns := ts } = true := (beatEnabled_iff _).2 ⟨hflying, hen, hcnt⟩
  refine ⟨dmaBeat_of_unallocated { s with turns := ts } hbeat hpast, fun b hread hinc => ?_⟩
  rw [turnStep, dmaBeat_of_memRead _ b hbeat hpast hread, advanceSource_inside (emitByte b { s with turns := ts }) hinc]
  exact congrArg _ (countBeat_of_pos _ hcnt)

/-! ### The completion handler (R176) -/

theorem dmaIrq_of_disabled (s : State) (h : irqEnabled s = false) : dmaIrq s = .next s := by
  simp [dmaIrq, h]

theorem irqEnabled_iff (s : State) :
    irqEnabled s = true ↔ s.irqPend = true ∧ s.irqEn = true ∧ s.dstate = .inFlight := by
  simp [irqEnabled, and_assoc]

/-- Settles O22: the handler's step is enabled and is `takeCompletion`, or the turn does nothing. -/
theorem completionHandlerFreesTheLock : Obligations.CompletionHandlerFreesTheLock := by
  unfold Obligations.CompletionHandlerFreesTheLock
  intro s ts hok hturns
  rw [step_turn s _ ts hok hturns]
  refine ⟨fun hoff => dmaIrq_of_disabled _ ?_, fun hpend hen hflying => ?_⟩
  · rw [← Bool.not_eq_true, irqEnabled_iff]
    exact hoff
  · exact ⟨tornDown s.freeIdx, s.freeIdx + 1, dmaIrq_of_enabled (irqEnabled_of_pending hpend hen hflying)⟩

/-! ### A whole transfer -/

/-- A transfer of the bytes `bs`, which lie in memory from `lo` on, has been started and no beat made. -/
structure Armed (lo : Nat) (bs : List Byte) (s : State) : Prop where
  inFlight : s.dstate = .inFlight
  enabled : s.chEn = true
  irqEnabled : s.irqEn = true
  notPending : s.irqPend = false
  lock : s.lock = true
  holder : s.holder = .dma
  inside : s.srcPast = false
  inc : s.td.inc = true
  src : s.td.src.toNat = lo
  cnt : s.td.cnt.toNat = bs.length
  nonempty : 0 < bs.length
  fits : lo + bs.length ≤ addrSpace
  bytes : ∀ k < bs.length, memRead s.mem (lo + k) = bs[k]?

/-- `u` is the state `s`, in which a transfer of `bs` was started, after `k` beats: they have moved the descriptor and
sent the first `k` bytes. Which steps the host has left and the script are not looked at. -/
def Sent (lo : Nat) (bs : List Byte) (s : State) (k : Nat) (u : State) : Prop :=
  ∃ q ts src cnt past n,
    u = { s with
      busy := q, turns := ts, td := { s.td with src := src, cnt := cnt }, srcPast := past, freeIdx := n,
      irqPend := decide (k = bs.length), wt := s.wt ++ (bs.take k).map (.byte s.cs s.dc) } ∧
    k ≤ bs.length ∧ cnt.toNat = bs.length - k ∧ (k < bs.length → past = false ∧ src.toNat = lo + k)

/-- The state after a beat has sent `b`. -/
def afterBeat (b : Byte) (s : State) : State := countBeat (advanceSource (emitByte b s))

section Transfer

variable {lo : Nat} {bs : List Byte} {s u : State} {k : Nat}

theorem Armed.sent_zero (h : Armed lo bs s) (q : List PrimStep) (ts : List Turn) :
    Sent lo bs s 0 { s with busy := q, turns := ts } := by
  have hpend : s.irqPend = decide (0 = bs.length) := by
    rw [h.notPending, eq_comm, decide_eq_false_iff_not]
    exact h.nonempty.ne
  refine ⟨q, ts, s.td.src, s.td.cnt, s.srcPast, s.freeIdx, ?_, Nat.zero_le _, h.cnt, fun _ => ⟨h.inside, h.src⟩⟩
  simp [← hpend]

/-- The sequencer's bookkeeping does not touch a transfer. -/
theorem Sent.bookkeeping (h : Sent lo bs s k u) (q : List PrimStep) (ts : List Turn) :
    Sent lo bs s k { u with busy := q, turns := ts } := by
  obtain ⟨_, _, src, cnt, past, n, rfl, hrest⟩ := h
  exact ⟨q, ts, src, cnt, past, n, rfl, hrest⟩

theorem Sent.le (h : Sent lo bs s k u) : k ≤ bs.length := by
  obtain ⟨_, _, _, _, _, _, _, hk, _⟩ := h
  exact hk

theorem Sent.cfg (h : Sent lo bs s k u) : u.cfg = s.cfg := by
  obtain ⟨_, _, _, _, _, _, rfl, _⟩ := h
  rfl

theorem Sent.wt (h : Sent lo bs s k u) : u.wt = s.wt ++ (bs.take k).map (.byte s.cs s.dc) := by
  obtain ⟨_, _, _, _, _, _, rfl, _⟩ := h
  rfl

/-- Until the handler's step the lock is the channel's (R180). -/
theorem Sent.owner (h : Sent lo bs s k u) (harm : Armed lo bs s) : u.lock = true ∧ u.holder = .dma := by
  obtain ⟨_, _, _, _, _, _, rfl, _⟩ := h
  exact ⟨harm.lock, harm.holder⟩

theorem Sent.channel (h : Sent lo bs s k u) (harm : Armed lo bs s) :
    u.dstate = .inFlight ∧ u.chEn = true ∧ u.td.cnt.toNat = bs.length - k := by
  obtain ⟨_, _, _, _, _, _, rfl, _, hcnt, _⟩ := h
  exact ⟨harm.inFlight, harm.enabled, hcnt⟩

/-- The handler has a step exactly when every byte is sent (R174, R176). -/
theorem Sent.irqEnabled_eq (h : Sent lo bs s k u) (harm : Armed lo bs s) :
    irqEnabled u = decide (k = bs.length) := by
  obtain ⟨_, _, _, _, _, _, rfl, _⟩ := h
  simp [Machine.irqEnabled, harm.irqEnabled, harm.inFlight]

/-- After the last beat the channel has no other. -/
theorem Sent.dmaBeat_of_all (h : Sent lo bs s bs.length u) : dmaBeat u = .next u := by
  obtain ⟨_, _, _, cnt, _, _, rfl, _, hcnt, _⟩ := h
  refine dmaBeat_of_disabled _ ?_
  rw [← Bool.not_eq_true, beatEnabled_iff]
  rintro ⟨_, _, hpos⟩
  change 0 < cnt.toNat at hpos
  omega

/-- A beat before the last byte sends the next one (R174). -/
theorem Sent.dmaBeat_next (h : Sent lo bs s k u) (harm : Armed lo bs s) (hk : k < bs.length) :
    dmaBeat u = .next (afterBeat bs[k] u) := by
  obtain ⟨_, _, src, cnt, past, n, rfl, _, hcnt, hnext⟩ := h
  obtain ⟨rfl, hsrc⟩ := hnext hk
  have hpos : 0 < cnt.toNat := by omega
  refine dmaBeat_of_memRead _ _ ((beatEnabled_iff _).2 ⟨harm.inFlight, harm.enabled, hpos⟩) rfl ?_
  change memRead s.mem src.toNat = _
  rw [hsrc, harm.bytes k hk, List.getElem?_eq_getElem hk]

/-- The increment of `TD.SRC` by one, where it stays inside the address space; what it leaves past the end is not said
(R67, assumption 6). -/
theorem advanceSource_of_inc (s : State) (hinc : s.td.inc = true) :
    ∃ src past n, advanceSource s = { s with td := { s.td with src := src }, srcPast := past, freeIdx := n } ∧
      (s.td.src.toNat + 1 < addrSpace → past = s.srcPast ∧ src.toNat = s.td.src.toNat + 1) := by
  by_cases hinside : s.td.src.toNat + 1 < addrSpace
  · refine ⟨s.td.src + 1, s.srcPast, s.freeIdx, ?_, fun _ => ⟨rfl, ?_⟩⟩
    · rw [advanceSource_inside s fun _ => hinside, if_pos hinc]
    · exact (BitVec.toNat_add _ _).trans (Nat.mod_eq_of_lt hinside)
  · obtain ⟨src, past, n, he⟩ := advanceSource_eq s
    exact ⟨src, past, n, he, fun h => absurd h hinside⟩

theorem Sent.afterBeat (h : Sent lo bs s k u) (harm : Armed lo bs s) (hk : k < bs.length) :
    Sent lo bs s (k + 1) (afterBeat bs[k] u) := by
  obtain ⟨q, ts, src, cnt, past, n, rfl, _, hcnt, hnext⟩ := h
  obtain ⟨rfl, hsrc⟩ := hnext hk
  have hpos : 0 < cnt.toNat := by omega
  have hpred : (cnt - 1).toNat = bs.length - (k + 1) := (toNat_pred cnt hpos).trans (by omega)
  have hlast : cnt - 1 = 0 ↔ k + 1 = bs.length := (pred_eq_zero_iff cnt hpos).trans (by omega)
  have hpend : (if cnt - 1 = 0 then true else decide (k = bs.length)) = decide (k + 1 = bs.length) :=
    (if_congr hlast rfl rfl).trans (by simp [hk.ne])
  have hbytes : bs.take (k + 1) = bs.take k ++ [bs[k]] := List.take_succ_eq_append_getElem hk
  obtain ⟨src', past', n', he, hmoved⟩ := advanceSource_of_inc (emitByte bs[k] { s with
    busy := q, turns := ts, td := { s.td with src := src, cnt := cnt }, srcPast := false, freeIdx := n,
    irqPend := decide (k = bs.length), wt := s.wt ++ (bs.take k).map (.byte s.cs s.dc) }) harm.inc
  refine ⟨q, ts, src', cnt - 1, past', n', ?_, hk, hpred, fun hmore => ?_⟩
  · rw [Proofs.afterBeat, he]
    simp only [countBeat, emitByte, emit, hpend, hbytes, List.map_append, List.map_cons, List.map_nil,
      List.append_assoc]
  · have hfits := harm.fits
    obtain ⟨hpast, hsrc'⟩ := hmoved (show src.toNat + 1 < addrSpace by omega)
    exact ⟨hpast, hsrc'.trans (show src.toNat + 1 = lo + (k + 1) by omega)⟩

/-- A beat leaves the host's steps, the script, the program and the parameters. -/
theorem afterBeat_frame (b : Byte) (u : State) :
    (afterBeat b u).busy = u.busy ∧ (afterBeat b u).turns = u.turns ∧ (afterBeat b u).prog = u.prog ∧
      (afterBeat b u).opi = u.opi := by
  obtain ⟨src, past, n, he⟩ := advanceSource_eq (emitByte b u)
  rw [afterBeat, he]
  exact ⟨rfl, rfl, rfl, rfl⟩

end Transfer

/-- What `k` steps keep of a predicate on the number of steps taken. -/
theorem runMachine_of_steps (n : Nat) (P : Nat → State → Prop) (s : State) (h0 : P 0 s)
    (hstep : ∀ k < n, ∀ u, P k u → ∃ v, step u = .next v ∧ P (k + 1) v) :
    ∀ k ≤ n, ∃ u, runMachine k s = .next u ∧ P k u := by
  intro k hk
  induction k generalizing n P s with
  | zero => exact ⟨s, rfl, h0⟩
  | succ k ih =>
    obtain ⟨v, hv, h1⟩ := hstep 0 (by omega) s h0
    obtain ⟨u, hu, hP⟩ := ih (n - 1) (fun j => P (j + 1)) v h1 (fun j hj => hstep (j + 1) (by omega)) (by omega)
    exact ⟨u, by rw [runMachine_succ k s v hv, hu], hP⟩

/-- One more step after `n`. -/
theorem runMachine_step_last (n : Nat) (s t u : State) (h : runMachine n s = .next t) (hstep : step t = .next u) :
    runMachine (n + 1) s = .next u := by
  induction n generalizing s with
  | zero =>
    obtain rfl : s = t := Host.Outcome.next.inj h
    exact runMachine_succ 0 s u hstep
  | succ n ih =>
    cases hs : step s with
    | next v =>
      rw [runMachine_succ n s v hs] at h
      rw [runMachine_succ (n + 1) s v hs, ih v h]
    | fault f => simp [runMachine, Host.Core.run, core, hs] at h
    | refused r => simp [runMachine, Host.Core.run, core, hs] at h

/-- `START_TRANSFER` over bytes that lie in memory arms the channel with them. -/
theorem armed_of_startTransfer {src : Addr} {len : Count} {bs : List Byte} {s : State} (hlock : s.lock = true)
    (hpend : s.irqPend = false) (hpos : 0 < len.toNat) (hfits : src.toNat + len.toNat ≤ addrSpace)
    (hbs : bs.length = len.toNat) (hbytes : ∀ k < len.toNat, memRead s.mem (src.toNat + k) = bs[k]?) :
    Armed src.toNat bs (armed src len s) where
  inFlight := rfl
  enabled := rfl
  irqEnabled := rfl
  notPending := hpend
  lock := hlock
  holder := rfl
  inside := rfl
  inc := rfl
  src := rfl
  cnt := hbs.symm
  nonempty := hbs ▸ hpos
  fits := hbs ▸ hfits
  bytes := hbs ▸ hbytes

/-- The channel does not look at what the host does next. -/
theorem Armed.finished {lo : Nat} {bs : List Byte} {s : State} (h : Armed lo bs s) : Armed lo bs (finished s) where
  inFlight := h.inFlight
  enabled := h.enabled
  irqEnabled := h.irqEnabled
  notPending := h.notPending
  lock := h.lock
  holder := h.holder
  inside := h.inside
  inc := h.inc
  src := h.src
  cnt := h.cnt
  nonempty := h.nonempty
  fits := h.fits
  bytes := h.bytes

/-- The turn of the channel takes the transfer one byte on. -/
theorem Sent.step_beat {lo : Nat} {bs : List Byte} {s u : State} {k : Nat} {ts : List Turn} (h : Sent lo bs s k u)
    (harm : Armed lo bs s) (hok : configOk s.cfg = true) (hk : k < bs.length) (hturns : u.turns = .dmaBeat :: ts) :
    ∃ v, step u = .next v ∧ Sent lo bs s (k + 1) v ∧ v.turns = ts := by
  have hsent := h.bookkeeping u.busy ts
  obtain ⟨_, hts, _⟩ := afterBeat_frame bs[k] { u with turns := ts }
  refine ⟨_, ?_, hsent.afterBeat harm hk, hts⟩
  rw [step_turn u _ ts (h.cfg ▸ hok) hturns]
  exact hsent.dmaBeat_next harm hk

/-- Settles O24: the script's `len` beats take the transfer from `Sent 0` to `Sent len`, and then the handler has its
step. -/
theorem transferLifeCycle : Obligations.TransferLifeCycle := by
  unfold Obligations.TransferLifeCycle
  intro s src len bs hok hheld hlock hidle hoff hpend hpos hfits hbs hbytes
  have hlen : len ≠ 0 := by
    rintro rfl
    exact absurd hpos (by decide)
  have harm : Armed src.toNat bs (finished (armed src len s)) :=
    (armed_of_startTransfer hlock hpend hpos hfits hbs hbytes).finished
  have hbeats := runMachine_of_steps bs.length
    (fun k u => Sent src.toNat bs (finished (armed src len s)) k u ∧
      u.turns = List.replicate (bs.length - k) .dmaBeat ++ [.dmaIrq])
    _ ⟨harm.sent_zero [] (List.replicate bs.length .dmaBeat ++ [.dmaIrq]), rfl⟩
    (fun k hk u ⟨hsent, hturns⟩ => by
      obtain ⟨m, hm⟩ : ∃ m, bs.length - k = m + 1 := ⟨bs.length - k - 1, by omega⟩
      rw [hm, List.replicate_succ, List.cons_append] at hturns
      obtain ⟨v, hv, hsent', hts⟩ := hsent.step_beat harm hok hk hturns
      have hrest : bs.length - (k + 1) = m := by omega
      exact ⟨v, hv, hsent', by rw [hts, hrest]⟩)
  rw [← hbs]
  refine ⟨_, exec_startTransfer_of_idle src len s hheld hidle hoff hlen, fun k hk => ?_, ?_⟩
  · obtain ⟨u, hu, hsent, _⟩ := hbeats k hk
    obtain ⟨hheld, _⟩ := hsent.owner harm
    exact ⟨u, hu, hheld, hsent.wt⟩
  · obtain ⟨u, hu, hsent, hturns⟩ := hbeats bs.length le_rfl
    rw [Nat.sub_self, List.replicate_zero, List.nil_append] at hturns
    have hlast : step u = .next (takeCompletion { u with turns := [] }) := by
      rw [step_turn u _ _ (hsent.cfg ▸ hok) hturns]
      refine dmaIrq_of_enabled ?_
      rw [(hsent.bookkeeping u.busy []).irqEnabled_eq harm, decide_eq_true_eq]
    refine ⟨_, runMachine_step_last _ _ _ _ hu hlast, rfl, rfl, rfl, rfl, rfl, ?_⟩
    have hwt := hsent.wt
    rw [List.take_length] at hwt
    rw [takeCompletion_wt, hwt]
    rfl

end Sys2Proof.Proofs
end

