-- ==== Sys2Proof/Proofs/PaintSteps.lean ====
section
/-! What the primitive steps of a `PAINT` do (R190 to R197): the pixels of a frame whose buffer is allocated, the bytes
of a stream stored or sent one after the other, the buffer cleared; and that no step looks at the sequencer's
bookkeeping. -/

namespace Sys2Proof.Proofs

open Sys2Proof.Machine Sys2Proof.Laws

/-! ### Stretches of memory -/

theorem admitted_iff (m : Memory) (a : Nat) :
    admitted m a = true ↔ a < addrSpace ∧ (memRead m a).isSome = true := by
  simp [admitted]

theorem rangeAdmitted_iff (m : Memory) (lo n : Nat) :
    rangeAdmitted m lo n = true ↔ ∀ i < n, admitted m (lo + i) = true := by
  simp [rangeAdmitted]

theorem rangeAdmitted_succ (m : Memory) (lo n : Nat) :
    rangeAdmitted m lo (n + 1) = true ↔ admitted m lo = true ∧ rangeAdmitted m (lo + 1) n = true := by
  simp only [rangeAdmitted_iff, Nat.forall_lt_succ_left, Nat.add_zero, Nat.add_assoc, Nat.add_comm 1]

/-- The memory with the bytes written one after the other from `a` on. -/
def writeBytes : Memory → Nat → List Byte → Memory
  | m, _, [] => m
  | m, a, b :: bs => writeBytes (memWrite m a b) (a + 1) bs

@[simp] theorem admitted_writeBytes (m : Memory) (lo a : Nat) (bs : List Byte) :
    admitted (writeBytes m lo bs) a = admitted m a := by
  induction bs generalizing m lo with
  | nil => rfl
  | cons b bs ih => rw [writeBytes, ih, admitted_memWrite]

/-- No write changes which stretches of memory the block may access. -/
theorem rangeAdmitted_writeBytes (m : Memory) (lo a n : Nat) (bs : List Byte) :
    rangeAdmitted (writeBytes m lo bs) a n = rangeAdmitted m a n := by
  simp [rangeAdmitted]

theorem rangeAdmitted_memWrite (m : Memory) (p a n : Nat) (b : Byte) :
    rangeAdmitted (memWrite m p b) a n = rangeAdmitted m a n := by
  simp [rangeAdmitted]

/-- Bytes written to allocated addresses are read back, and every other address reads as before. -/
theorem memRead_writeBytes (m : Memory) (lo a : Nat) (bs : List Byte) (h : rangeAdmitted m lo bs.length = true) :
    memRead (writeBytes m lo bs) a = if inRange a lo bs.length then bs[a - lo]? else memRead m a := by
  induction bs generalizing m lo with
  | nil =>
    have hout : ¬inRange a lo ([] : List Byte).length := fun ⟨hlo, hhi⟩ => Nat.not_lt.2 hlo hhi
    rw [if_neg hout, writeBytes]
  | cons b bs ih =>
    obtain ⟨hfirst, hrest⟩ := (rangeAdmitted_succ m lo bs.length).1 h
    obtain ⟨_, halloc⟩ := (admitted_iff m lo).1 hfirst
    rw [writeBytes, ih _ _ (by rwa [rangeAdmitted_memWrite]), memRead_memWrite m lo a b halloc]
    rcases Nat.lt_trichotomy a lo with hlt | rfl | hgt
    · rw [if_neg (by omega), if_neg (by omega), if_neg (by omega)]
    · rw [if_neg (by omega), if_pos rfl, if_pos ⟨le_rfl, by simp⟩, Nat.sub_self, List.getElem?_cons_zero]
    · obtain ⟨j, rfl⟩ : ∃ j, a = lo + 1 + j := ⟨a - (lo + 1), by omega⟩
      have hiff : inRange (lo + 1 + j) (lo + 1) bs.length ↔ inRange (lo + 1 + j) lo (b :: bs).length := by
        simp only [List.length_cons]
        omega
      have hj : lo + 1 + j - (lo + 1) = j := by omega
      have hj' : lo + 1 + j - lo = j + 1 := by omega
      rw [if_neg (by omega : ¬lo + 1 + j = lo), if_congr hiff rfl rfl, hj, hj', List.getElem?_cons_succ]

/-! ### Lists of primitive steps -/

section Chain

variable {op : Instr} {s t u : State}

/-- Steps that are all taken, after a step that is taken. -/
theorem runAll_cons_trans {a : Act} {as : List Act} (h : runAct op a s = .ok t)
    (h' : runAll (stepsOf op as) t = some u) : runAll (stepsOf op (a :: as)) s = some u :=
  (runAll_cons_ok ⟨op, a⟩ _ s t h).trans h'

theorem runAll_single {a : Act} (h : runAct op a s = .ok t) : runAll (stepsOf op [a]) s = some t :=
  runAll_cons_trans h (runAll_nil t)

theorem runAll_append_trans {as bs : List Act} (h : runAll (stepsOf op as) s = some t)
    (h' : runAll (stepsOf op bs) t = some u) : runAll (stepsOf op (as ++ bs)) s = some u := by
  rw [stepsOf, List.map_append, runAll_append, ← stepsOf, ← stepsOf, h, Option.bind_some, h']

end Chain

/-- The composed bytes stored to the stream buffer from byte `i` on (R191). -/
theorem runAll_storeStream (op : Instr) (bs : List Byte) (i : Nat) (s : State) (hstream : s.stream = bs)
    (hadm : rangeAdmitted s.mem (s.cfg.streamBase.toNat + i) bs.length = true) :
    runAll (stepsOf op ((List.range' i bs.length).map .storeStream)) s =
      some { s with mem := writeBytes s.mem (s.cfg.streamBase.toNat + i) bs, stream := [] } := by
  induction bs generalizing i s with
  | nil =>
    change some s = some { s with stream := [] }
    rw [← hstream]
  | cons b bs ih =>
    obtain ⟨hfirst, hrest⟩ := (rangeAdmitted_succ _ _ _).1 hadm
    have hstore : runAct op (.storeStream i) s =
        .ok { s with mem := memWrite s.mem (s.cfg.streamBase.toNat + i) b, stream := bs } :=
      (storeByte_ok_iff _ _ _ _).2 ⟨hfirst, by simp [hstream]⟩
    rw [List.length_cons, List.range'_succ, List.map_cons]
    exact runAll_cons_trans hstore (ih (i + 1) _ rfl (by rwa [rangeAdmitted_memWrite, ← Nat.add_assoc]))

/-- The PixelBuffer cleared from byte `i` on (R197). -/
theorem runAll_clearByte (op : Instr) (buf : Addr) (i n : Nat) (s : State)
    (hadm : rangeAdmitted s.mem (buf.toNat + i) n = true) :
    runAll (stepsOf op ((List.range' i n).map (.clearByte buf))) s =
      some { s with mem := writeBytes s.mem (buf.toNat + i) (List.replicate n 0) } := by
  induction n generalizing i s with
  | zero => simp [stepsOf, writeBytes]
  | succ n ih =>
    obtain ⟨hfirst, hrest⟩ := (rangeAdmitted_succ _ _ _).1 hadm
    have hstore : runAct op (.clearByte buf i) s = .ok { s with mem := memWrite s.mem (buf.toNat + i) 0 } :=
      (storeByte_ok_iff _ _ _ _).2 ⟨hfirst, rfl⟩
    rw [List.range'_succ, List.map_cons]
    exact runAll_cons_trans hstore (ih (i + 1) _ (by rwa [rangeAdmitted_memWrite, ← Nat.add_assoc]))

/-- The composed bytes sent in data mode under the lock (R190). -/
theorem runAll_sendStream (op : Instr) (bs : List Byte) (s : State) (hstream : s.stream = bs)
    (hheld : s.holder = .cons 0) (hdc : s.dc = .data) :
    runAll (stepsOf op (List.replicate bs.length .sendStream)) s =
      some { s with stream := [], wt := s.wt ++ dataEvents s.cs bs } := by
  induction bs generalizing s with
  | nil =>
    change some s = some { s with stream := [], wt := s.wt ++ [] }
    rw [← hstream, List.append_nil]
  | cons b bs ih =>
    have hsend : runAct op .sendStream s = .ok (emitByte b { s with stream := bs }) :=
      (underLock_ok_iff _ _ _ _).2 ⟨hheld, by simp [hstream]⟩
    rw [List.length_cons, List.replicate_succ]
    refine runAll_cons_trans hsend ((ih (emitByte b { s with stream := bs }) rfl hheld hdc).trans ?_)
    simp [emitByte, emit, dataEvents, hdc]

/-- The memory after a `PAINT` has cleared its buffer, if its flag says so (R197). -/
def clearedMem (c : Config) (buf : Addr) (clr : Bool) (m : Memory) : Memory :=
  if clr then writeBytes m buf.toNat (List.replicate (srcBytes c) 0) else m

theorem runAll_clear (op : Instr) (buf : Addr) (clr : Bool) (s : State)
    (hadm : rangeAdmitted s.mem buf.toNat (srcBytes s.cfg) = true) :
    runAll (stepsOf op (clearActs s.cfg buf clr)) s = some { s with mem := clearedMem s.cfg buf clr s.mem } := by
  cases clr with
  | false => rfl
  | true =>
    have hclear := runAll_clearByte op buf 0 (srcBytes s.cfg) s hadm
    rwa [← List.range_eq_range'] at hclear

theorem memRead_clearedMem (c : Config) (buf : Addr) (clr : Bool) (m : Memory) (a : Nat)
    (hadm : rangeAdmitted m buf.toNat (srcBytes c) = true) :
    memRead (clearedMem c buf clr m) a =
      if clr = true ∧ inRange a buf.toNat (srcBytes c) then some 0 else memRead m a := by
  cases clr with
  | false => simp [clearedMem]
  | true =>
    rw [clearedMem, if_pos rfl, memRead_writeBytes _ _ _ _ (by rwa [List.length_replicate]), List.length_replicate]
    by_cases hin : inRange a buf.toNat (srcBytes c)
    · rw [if_pos hin, if_pos ⟨rfl, hin⟩, List.getElem?_replicate, if_pos (by omega)]
    · rw [if_neg hin, if_neg fun h => hin h.2]

/-! ### The pixels of a frame -/

/-- R194 p1: the source index of a destination index lies in the source. -/
theorem scaleIndex_lt {d srcDim dstDim : Nat} (hpos : 1 ≤ srcDim) (hmax : dstDim ≤ 256) (hd : d < dstDim) :
    scaleIndex d srcDim dstDim < srcDim := by
  by_cases heq : srcDim = dstDim
  · rw [scaleIndex, if_pos heq, heq]
    exact hd
  · rw [scaleIndex, if_neg heq, Nat.div_lt_iff_lt_mul (by norm_num)]
    have hfloor : srcDim * 65536 / dstDim * dstDim ≤ srcDim * 65536 := Nat.div_mul_le_self _ _
    have hlarge : dstDim ≤ srcDim * 65536 / dstDim :=
      (Nat.le_div_iff_mul_le (by omega)).2 (by nlinarith)
    nlinarith

/-- The byte of every pixel of a frame lies in the PixelBuffer (R61, R192). -/
theorem pixelAddr_inRange {c : Config} (hok : configOk c = true) (buf : Addr) {dx dy : Nat} (hdx : dx < c.dstW)
    (hdy : dy < c.dstH) :
    inRange (pixelAddr c buf (scaleIndex dx c.srcW c.dstW) (scaleIndex dy c.srcH c.dstH)) buf.toNat (srcBytes c) := by
  obtain ⟨⟨_, _, _, _, hsrcW, hwide, hdstW, hsrcH, hrows, hhigh, hdstH, _⟩, _⟩ := (configOk_iff c).1 hok
  have hx := scaleIndex_lt hsrcW hdstW hdx
  have hy := scaleIndex_lt hsrcH hdstH hdy
  obtain ⟨n, hn⟩ : ∃ n, c.srcH = 8 * n := ⟨c.srcH / 8, by omega⟩
  have hrow : scaleIndex dy c.srcH c.dstH / 8 + 1 ≤ n := by omega
  have hbytes : srcBytes c = n * c.srcW := by
    rw [srcBytes, hn, show c.srcW * (8 * n) = 8 * (n * c.srcW) by ring, Nat.mul_div_cancel_left _ (by norm_num)]
  have hlast : (scaleIndex dy c.srcH c.dstH / 8 + 1) * c.srcW ≤ n * c.srcW := Nat.mul_le_mul_right _ hrow
  rw [Nat.add_mul] at hlast
  rw [hbytes, pixelAddr]
  omega

/-- A pixel is composed exactly when its byte may be read, and is then the pixel of R192. -/
theorem pixelColor_ok_iff (s : State) (buf : Addr) (dx dy : Nat) (p : Color12) :
    pixelColor s buf dx dy = .ok p ↔
      pixelAddr s.cfg buf (scaleIndex dx s.cfg.srcW s.cfg.dstW) (scaleIndex dy s.cfg.srcH s.cfg.dstH) < addrSpace ∧
        framePixelAt s buf dx dy = some p := by
  unfold pixelColor framePixelAt
  simp only [pixelAddr]
  split
  · rename_i b hload
    obtain ⟨hlt, hread⟩ := (load_ok_iff _ _ _).1 hload
    simp only [hlt, hread, pixelBit, true_and, Option.map_some, Option.some.injEq, Except.ok.injEq]
    rfl
  · rename_i f hload
    obtain ⟨hno, _⟩ := (load_error_iff _ _ _).1 hload
    simp only [reduceCtorEq, false_iff, not_and]
    intro hlt hsome
    simp only [admitted, hlt, decide_true, Bool.true_and] at hno
    cases hread : memRead s.mem (buf.toNat + scaleIndex dx s.cfg.srcW s.cfg.dstW +
      scaleIndex dy s.cfg.srcH s.cfg.dstH / 8 * s.cfg.srcW) <;> simp_all

/-- The pixels listed are composed as R192 gives each of them. -/
theorem composePixels_map (s : State) (buf : Addr) (ns : List Nat) (ps : List Color12)
    (h : composePixels s buf ns = .ok ps) :
    ns.map (fun n => framePixelAt s buf (n % s.cfg.dstW) (n / s.cfg.dstW)) = ps.map some := by
  induction ns generalizing ps with
  | nil =>
    obtain rfl : [] = ps := Except.ok.inj h
    rfl
  | cons n ns ih =>
    simp only [composePixels] at h
    split at h
    · cases h
    · rename_i p hp
      split at h
      · cases h
      · rename_i qs hqs
        obtain rfl : p :: qs = ps := Except.ok.inj h
        rw [List.map_cons, List.map_cons, ih qs hqs, ((pixelColor_ok_iff s buf _ _ p).1 hp).2]

theorem composePixels_of_forall (s : State) (buf : Addr) (ns : List Nat)
    (h : ∀ n ∈ ns, ∃ p, pixelColor s buf (n % s.cfg.dstW) (n / s.cfg.dstW) = .ok p) :
    ∃ ps, composePixels s buf ns = .ok ps := by
  induction ns with
  | nil => exact ⟨[], rfl⟩
  | cons n ns ih =>
    obtain ⟨⟨p, hp⟩, hns⟩ := List.forall_mem_cons.1 h
    obtain ⟨ps, hps⟩ := ih hns
    exact ⟨p :: ps, by simp [composePixels, hp, hps]⟩

/-- What a frame is composed from: memory, the Theme, and the sizes of the source and the destination. -/
def frameInputs (s : State) : Memory × Theme × Nat × Nat × Nat × Nat :=
  (s.mem, s.theme, s.cfg.srcW, s.cfg.srcH, s.cfg.dstW, s.cfg.dstH)

theorem framePixels_congr {s t : State} (h : frameInputs t = frameInputs s) (buf : Addr) :
    framePixels t buf = framePixels s buf := by
  simp only [frameInputs, Prod.mk.injEq] at h
  obtain ⟨hmem, htheme, hsrcW, hsrcH, hdstW, hdstH⟩ := h
  have hpixel (dx dy : Nat) : pixelColor t buf dx dy = pixelColor s buf dx dy := by
    simp only [pixelColor, pixelAddr, hmem, htheme, hsrcW, hsrcH, hdstW, hdstH]
  have hpixels (ns : List Nat) : composePixels t buf ns = composePixels s buf ns := by
    induction ns with
    | nil => rfl
    | cons n ns ih => simp only [composePixels, hpixel, ih, hdstW]
  rw [framePixels, framePixels, hpixels, nPix, nPix, hdstW, hdstH]

theorem framePixels_ok_congr {s : State} {buf : Addr} {ps : List Color12} (hs : framePixels s buf = .ok ps) (t : State)
    (h : frameInputs t = frameInputs s) : framePixels t buf = .ok ps :=
  (framePixels_congr h buf).trans hs

/-- A frame whose buffer may be read is composed. -/
theorem framePixels_of_admitted (s : State) (buf : Addr) (hok : configOk s.cfg = true)
    (hadm : rangeAdmitted s.mem buf.toNat (srcBytes s.cfg) = true) : ∃ ps, framePixels s buf = .ok ps := by
  refine composePixels_of_forall s buf _ fun n hn => ?_
  have hn : n < s.cfg.dstW * s.cfg.dstH := List.mem_range.1 hn
  have hpos : 0 < s.cfg.dstW := Nat.pos_of_ne_zero fun hz => by simp [hz] at hn
  obtain ⟨hlo, hhi⟩ := pixelAddr_inRange hok buf (Nat.mod_lt n hpos) (Nat.div_lt_of_lt_mul hn)
  have hpixel := (rangeAdmitted_iff _ _ _).1 hadm _ (Nat.sub_lt_left_of_lt_add hlo hhi)
  rw [Nat.add_sub_cancel' hlo] at hpixel
  obtain ⟨hlt, halloc⟩ := (admitted_iff _ _).1 hpixel
  obtain ⟨b, hb⟩ := Option.isSome_iff_exists.1 halloc
  exact ⟨_, (pixelColor_ok_iff _ _ _ _ _).2 ⟨hlt, congrArg (Option.map _) hb⟩⟩

/-- The pixels of a frame, row by row (R195). -/
theorem framePixels_spec (s : State) (buf : Addr) (ps : List Color12) (h : framePixels s buf = .ok ps) :
    ps.length = nPix s.cfg ∧ ∀ dx dy, dx < s.cfg.dstW → dy < s.cfg.dstH →
      (framePixelAt s buf dx dy).isSome = true ∧ ps[dy * s.cfg.dstW + dx]? = framePixelAt s buf dx dy := by
  have hmap := composePixels_map s buf _ ps h
  have hlength : ps.length = nPix s.cfg := by simpa using (congrArg List.length hmap).symm
  refine ⟨hlength, fun dx dy hdx hdy => ?_⟩
  have hn : dy * s.cfg.dstW + dx < nPix s.cfg := by
    have hrow : (dy + 1) * s.cfg.dstW ≤ s.cfg.dstH * s.cfg.dstW := Nat.mul_le_mul_right _ hdy
    rw [nPix, Nat.mul_comm s.cfg.dstW]
    rw [Nat.add_mul] at hrow
    omega
  have hpos : 0 < s.cfg.dstW := by omega
  have hcol : (dy * s.cfg.dstW + dx) % s.cfg.dstW = dx := by
    rw [Nat.mul_add_mod_self_right, Nat.mod_eq_of_lt hdx]
  have hrow : (dy * s.cfg.dstW + dx) / s.cfg.dstW = dy := by
    rw [Nat.add_comm, Nat.add_mul_div_right _ _ hpos, Nat.div_eq_of_lt hdx, Nat.zero_add]
  have hpixel := congrArg (·[dy * s.cfg.dstW + dx]?) hmap
  rw [← hlength] at hn
  simp only [List.getElem?_map, List.getElem?_range (hlength ▸ hn), Option.map_some, hcol, hrow,
    List.getElem?_eq_getElem hn] at hpixel
  have hpixel : framePixelAt s buf dx dy = some ps[dy * s.cfg.dstW + dx] := Option.some.inj hpixel
  exact ⟨by rw [hpixel]; rfl, by rw [hpixel, List.getElem?_eq_getElem hn]⟩

/-- The stream of a frame has `STREAM_LEN` bytes (R7, R196). -/
theorem length_streamBytes_frame {s : State} {buf : Addr} {ps : List Color12} (h : framePixels s buf = .ok ps) :
    (streamBytes ps).length = streamLen s.cfg := by
  rw [length_streamBytes, (framePixels_spec s buf ps h).1]
  rfl

/-- A frame has bytes, and their number fits the 24 bits of `TD.CNT` (R6, R7, R38). -/
theorem streamLen_bounds {c : Config} (hok : configOk c = true) : 0 < streamLen c ∧ streamLen c < 2 ^ 24 := by
  obtain ⟨⟨_, _, _, _, hsrcW, hwide, hdstW, hsrcH, _, hhigh, hdstH, _⟩, _⟩ := (configOk_iff c).1 hok
  have hpos : 0 < c.dstW * c.dstH := Nat.mul_pos (by omega) (by omega)
  have hmax : c.dstW * c.dstH ≤ 256 * 256 := Nat.mul_le_mul hdstW hdstH
  simp only [streamLen, ceil2, nPix]
  omega

/-- The viewport lies in the panel (R7 c1, R220). -/
theorem inPanel_viewport {c : Config} (hok : configOk c = true) : inPanel c (viewport c) = true := by
  obtain ⟨⟨_, _, _, _, _, _, _, _, _, _, _, _⟩, ⟨_, _, _⟩, _⟩ := (configOk_iff c).1 hok
  refine decide_eq_true ?_
  simp only [viewport, vx0, vy0, marginX, marginY]
  omega

/-! ### The sequencer's bookkeeping -/

/-- What a primitive step does, with the state it leaves changed by `f`. -/
def mapOk (f : State → State) : ActResult → ActResult
  | .ok s => .ok (f s)
  | .wait => .wait
  | .fault e => .fault e

/-- The state with other steps left and another script. -/
def rebook (q : List PrimStep) (ts : List Turn) (s : State) : State := { s with busy := q, turns := ts }

/-- No primitive step looks at the steps left or at the script. -/
theorem runAct_rebook (op : Instr) (act : Act) (q : List PrimStep) (ts : List Turn) (s : State) :
    runAct op act (rebook q ts s) = mapOk (rebook q ts) (runAct op act s) := by
  cases act with
  | acquire | release | requireRegion | startTransfer | cmdMode | dataMode | csSelect | csDeselect | writeByte
    | sendStream =>
    simp only [runAct, underLock, startDma, apply_ite (mapOk (rebook q ts))]
    rfl
  | compose buf =>
    have htracks : Tracks s (rebook q ts s) := (Tracks.of_turns s s.turns s.turns).disturb s.lock s.holder q ts
    simp only [runAct, htracks.framePixels_eq buf]
    split <;> rfl
  | storeStream i =>
    simp only [runAct, storeByte, rebook]
    split <;> rfl
  | clearByte buf i =>
    simp only [runAct, storeByte, rebook]
    split <;> rfl
  | _ => rfl

theorem runAct_rebook_ok {op : Instr} {act : Act} {s t : State} (h : runAct op act s = .ok t) (q : List PrimStep)
    (ts : List Turn) : runAct op act (rebook q ts s) = .ok (rebook q ts t) := by
  rw [runAct_rebook, h, mapOk]

theorem hostTurn_busy (q : List PrimStep) (s : State) :
    hostTurn { s with busy := q } = (hostTurn s).map fun u => { u with busy := q } := by
  simp only [hostTurn]
  split <;> rfl

/-- Where the rest of an operation leads does not depend on the steps noted as left. -/
theorem runRest_busy (ps q : List PrimStep) (s : State) : runRest ps { s with busy := q } = runRest ps s := by
  induction ps generalizing q s with
  | nil => rfl
  | cons p ps ih =>
    simp only [runRest, hostTurn_busy]
    cases hostTurn s with
    | none => rfl
    | some u =>
      have hact := runAct_rebook p.op p.act q u.turns u
      simp only [rebook] at hact
      simp only [Option.map_some, hact]
      cases hu : runAct p.op p.act u with
      | ok v =>
        rw [← runAct_turns p.op p.act u v hu]
        exact ih q v
      | wait => rfl
      | fault f => rfl

theorem runSteps_busy (ps q : List PrimStep) (s : State) : runSteps ps { s with busy := q } = runSteps ps s := by
  cases ps with
  | nil => rfl
  | cons p ps =>
    have hact := runAct_rebook p.op p.act q s.turns s
    simp only [rebook] at hact
    simp only [runSteps, hact]
    cases hs : runAct p.op p.act s with
    | ok t =>
      rw [← runAct_turns p.op p.act s t hs]
      exact congrArg _ (runRest_busy ps q t)
    | wait => rfl
    | fault f => rfl

end Sys2Proof.Proofs
end

