-- ==== Sys2Proof/Proofs/DmaPaint.lean ====
section
/-! O35 and O36: a `PAINT` with `TRANSPORT = DMA` that nobody interrupts. Its steps are the claim, the preparation of the
stream buffer and of the window (`prepareActs`), the start of the transfer, and the clearing; the transfer is then the
one of `Armed` and `Sent`. -/

namespace Sys2Proof.Proofs

open Sys2Proof.Machine Sys2Proof.Laws

/-! ### The operation up to its end (R191) -/

/-- The steps of a DMA `PAINT` between its claim of the lock and the start of the transfer. -/
def prepareActs (c : Config) (src : Addr) : List Act :=
  .compose src :: ((List.range (streamLen c)).map .storeStream ++ .csSelect :: setWriteRegionActs (viewport c))

/-- The transfer of the whole stream buffer. -/
def startStream (c : Config) : Act := .startTransfer c.streamBase (BitVec.ofNat 24 (streamLen c))

theorem paintDmaActs_eq (c : Config) (src : Addr) (clr : Bool) :
    paintDmaActs c src clr = .acquire :: (prepareActs c src ++ startStream c :: clearActs c src clr) := by
  simp [paintDmaActs, prepareActs, startStream]

/-- The state in which the transfer is started: the frame `ps` is in the stream buffer, the window is open. -/
def prepared (ps : List Color12) (s : State) : State :=
  { s with
    cs := .selected, dc := .data, stream := [],
    mem := writeBytes s.mem s.cfg.streamBase.toNat (streamBytes ps),
    wt := s.wt ++ [.cs .selected] ++ windowEvents .selected (viewport s.cfg) }

/-- The transfer of the frame has been started. -/
def streaming (ps : List Color12) (s : State) : State :=
  armed s.cfg.streamBase (BitVec.ofNat 24 (streamLen s.cfg)) (prepared ps s)

theorem toNat_streamLen {c : Config} (hok : configOk c = true) :
    (BitVec.ofNat 24 (streamLen c)).toNat = streamLen c := by
  rw [BitVec.toNat_ofNat, Nat.mod_eq_of_lt (streamLen_bounds hok).2]

theorem fits_streamBuffer {c : Config} (hok : configOk c = true) : c.streamBase.toNat + streamLen c ≤ addrSpace := by
  obtain ⟨_, _, _, _, hfits⟩ := (configOk_iff c).1 hok
  exact hfits

section Prepare

variable {s : State} {src : Addr} {ps : List Color12} (op : Instr)

theorem runAct_compose (hframe : framePixels s src = .ok ps) :
    runAct op (.compose src) s = .ok { s with stream := streamBytes ps } := by
  simp [runAct, hframe]

/-- The preparation under the lock, over allocated buffers. -/
theorem runAll_prepare (hok : configOk s.cfg = true) (hheld : s.holder = .cons 0)
    (hframe : framePixels s src = .ok ps)
    (hstream : rangeAdmitted s.mem s.cfg.streamBase.toNat (streamLen s.cfg) = true) :
    runAll (stepsOf op (prepareActs s.cfg src)) s = some (prepared ps s) := by
  have hlength := length_streamBytes_frame hframe
  have hstore := runAll_storeStream op (streamBytes ps) 0 { s with stream := streamBytes ps } rfl (by rwa [hlength])
  rw [hlength, ← List.range_eq_range'] at hstore
  have hselect (u : State) (hu : u.holder = .cons 0) : runAct op .csSelect u = .ok (setCs .selected u) :=
    (underLock_ok_iff op u _ _).2 ⟨hu, rfl⟩
  exact runAll_cons_trans (runAct_compose op hframe) <| runAll_append_trans hstore <|
    runAll_cons_trans (hselect _ hheld) <| runAll_setWriteRegion op (viewport s.cfg) _ hheld (inPanel_viewport hok)

theorem runAct_startStream (hok : configOk s.cfg = true) (hheld : s.holder = .cons 0) (hidle : s.dstate = .idle)
    (hoff : s.chEn = false) : runAct op (startStream s.cfg) (prepared ps s) = .ok (streaming ps s) := by
  refine startDma_of_idle op _ _ (prepared ps s) hheld hidle hoff fun hzero => ?_
  have hlen := toNat_streamLen hok
  rw [hzero] at hlen
  exact absurd hlen (streamLen_bounds hok).1.ne

end Prepare

/-- The buffers of a `PAINT` that is not refused do not overlap (R7 c4). -/
theorem not_inRange_of_not_overlaps {c : Config} {src : Addr} (h : overlapsStream c src = false) {a : Nat}
    (ha : inRange a c.streamBase.toNat (streamLen c)) : ¬inRange a src.toNat (srcBytes c) := by
  have hapart : ¬(src.toNat < c.streamBase.toNat + streamLen c ∧ c.streamBase.toNat < src.toNat + srcBytes c) :=
    of_decide_eq_false h
  omega

/-- The state a DMA `PAINT` of the frame `ps` ends in, with the transfer in flight. -/
def paintedDma (ps : List Color12) (src : Addr) (clr : Bool) (s : State) : State :=
  { streaming ps (takeLock (.cons 0) s) with
    mem := clearedMem s.cfg src clr (writeBytes s.mem s.cfg.streamBase.toNat (streamBytes ps)) }

/-- The steps of a DMA `PAINT` after its claim of the lock. -/
def stepsInside (c : Config) (src : Addr) (clr : Bool) : List PrimStep :=
  stepsOf (.paint src clr) (prepareActs c src ++ startStream c :: clearActs c src clr)

theorem exec_paint_dma {s : State} (hdma : s.cfg.transport = .dma) {src : Addr}
    (hapart : overlapsStream s.cfg src = false) (clr : Bool) :
    exec (.paint src clr) s = runSteps (⟨.paint src clr, .acquire⟩ :: stepsInside s.cfg src clr) s := by
  rw [exec_eq_runSteps _ s (by simp [execRefusal, hapart])]
  simp only [execSteps, hdma, paintDmaActs_eq]
  rfl

/-- An undisturbed DMA `PAINT` over allocated buffers. -/
theorem exec_paint_dma_undisturbed {s : State} {src : Addr} {ps : List Color12} (clr : Bool)
    (hok : configOk s.cfg = true) (hdma : s.cfg.transport = .dma) (hapart : overlapsStream s.cfg src = false)
    (hfree : undisturbed s) (hidle : s.dstate = .idle) (hoff : s.chEn = false)
    (hsrc : rangeAdmitted s.mem src.toNat (srcBytes s.cfg) = true)
    (hstream : rangeAdmitted s.mem s.cfg.streamBase.toNat (streamLen s.cfg) = true)
    (hframe : framePixels s src = .ok ps) :
    exec (.paint src clr) s = .next (finished (paintedDma ps src clr s)) := by
  obtain ⟨hturns, hlock⟩ := hfree
  rw [exec_paint_dma hdma hapart]
  refine runSteps_complete _ s _ hturns ?_
  have hprepare := runAll_prepare (.paint src clr) (s := takeLock (.cons 0) s) hok rfl
    (framePixels_ok_congr hframe _ rfl) hstream
  have hstart := runAct_startStream (s := takeLock (.cons 0) s) (ps := ps) (.paint src clr) hok rfl hidle hoff
  have hclear := runAll_clear (.paint src clr) src clr (streaming ps (takeLock (.cons 0) s))
    ((rangeAdmitted_writeBytes _ _ _ _ _).trans hsrc)
  exact runAll_cons_trans (runAct_acquire_of_free _ s hlock) <| runAll_append_trans hprepare <|
    runAll_cons_trans hstart hclear

/-- What memory holds after a DMA `PAINT`. -/
theorem memRead_paintedDma {s : State} {src : Addr} {ps : List Color12} (clr : Bool)
    (hsrc : rangeAdmitted s.mem src.toNat (srcBytes s.cfg) = true)
    (hstream : rangeAdmitted s.mem s.cfg.streamBase.toNat (streamLen s.cfg) = true)
    (hframe : framePixels s src = .ok ps) (a : Nat) :
    memRead (paintedDma ps src clr s).mem a =
      if clr = true ∧ inRange a src.toNat (srcBytes s.cfg) then some 0
      else if inRange a s.cfg.streamBase.toNat (streamLen s.cfg) then (streamBytes ps)[a - s.cfg.streamBase.toNat]?
      else memRead s.mem a := by
  have hlength := length_streamBytes_frame hframe
  rw [paintedDma, memRead_clearedMem _ _ _ _ _ (by rwa [rangeAdmitted_writeBytes]),
    memRead_writeBytes _ _ _ _ (by rwa [hlength]), hlength]

/-- With no turn left and the lock free, the host goes on with its operation. -/
theorem step_of_busy_free {s : State} {p : PrimStep} {ps : List PrimStep} (hok : configOk s.cfg = true)
    (hturns : s.turns = []) (hbusy : s.busy = p :: ps) (hlock : s.lock = false) : step s = runSteps (p :: ps) s := by
  rw [step_free s hok hturns, freeStep, if_pos (by simp [hostCanStep, blocked, hbusy, hlock]),
    hostStep_of_busy s (by simp [hbusy]), hbusy]

/-- Settles O35: from a free lock the steps one by one, from a held one the wait in the first of them. -/
theorem paintStartsTheTransfer : Obligations.PaintStartsTheTransfer := by
  unfold Obligations.PaintStartsTheTransfer
  intro s src clr hok hdma hapart
  refine ⟨fun hfree hidle hoff hsrc hstream => ?_, fun hlock => ?_⟩
  · obtain ⟨ps, hframe⟩ := framePixels_of_admitted s src hok hsrc
    obtain ⟨hlength, hpixels⟩ := framePixels_spec s src ps hframe
    exact ⟨ps, _, exec_paint_dma_undisturbed clr hok hdma hapart hfree hidle hoff hsrc hstream hframe, hlength, hpixels,
      memRead_paintedDma clr hsrc hstream hframe⟩
  · refine ⟨stepsInside s.cfg src clr, ?_, fun hturns => ?_⟩
    · rw [exec_paint_dma hdma hapart]
      exact runSteps_of_wait _ _ s (runAct_acquire_of_held _ s hlock)
    · have hresume := step_of_busy_free
        (s := { s with busy := ⟨.paint src clr, .acquire⟩ :: stepsInside s.cfg src clr, lock := false, holder := .none })
        hok hturns rfl rfl
      rw [hresume, exec_paint_dma (s := { s with lock := false, holder := .none }) hdma hapart]
      exact runSteps_busy _ _ { s with lock := false, holder := .none }

/-! ### The transfer (R174, R176) -/

/-- A transfer reads its bytes from memory and nothing else. -/
theorem Armed.withMem {lo : Nat} {bs : List Byte} {s : State} (h : Armed lo bs s) {m : Memory}
    (hm : ∀ a, inRange a lo bs.length → memRead m a = memRead s.mem a) : Armed lo bs { s with mem := m } where
  inFlight := h.inFlight
  enabled := h.enabled
  irqEnabled := h.irqEnabled
  notPending := h.notPending
  lock := h.lock
  holder := h.holder
  inside := h.inside
  inc := h.inc
  src := h.src
  cnt := h.cnt
  nonempty := h.nonempty
  fits := h.fits
  bytes k hk := (hm _ ⟨by omega, by omega⟩).trans (h.bytes k hk)

/-- The transfer of a frame is armed with its stream. -/
theorem armed_streaming {s : State} {src : Addr} {ps : List Color12} (hok : configOk s.cfg = true)
    (hlock : s.lock = true) (hpend : s.irqPend = false) (hframe : framePixels s src = .ok ps)
    (hstream : rangeAdmitted s.mem s.cfg.streamBase.toNat (streamLen s.cfg) = true) :
    Armed s.cfg.streamBase.toNat (streamBytes ps) (streaming ps s) := by
  have hlen := toNat_streamLen hok
  have hlength := length_streamBytes_frame hframe
  refine armed_of_startTransfer (s := prepared ps s) hlock hpend ?_ ?_ (hlength.trans hlen.symm) fun k hk => ?_
  · rw [hlen]
    exact (streamLen_bounds hok).1
  · rw [hlen]
    exact fits_streamBuffer hok
  rw [hlen] at hk
  rw [prepared, memRead_writeBytes _ _ _ _ (by rwa [hlength]), if_pos (by omega), Nat.add_sub_cancel_left]

/-- The host has nothing to do, and no turn is left. -/
def HostDone (u : State) : Prop := u.turns = [] ∧ u.busy = [] ∧ fetch u = none

/-- With no turn left and nothing for the host to do, the channel moves: a beat, or at the end the handler. -/
theorem freeStep_of_no_host {u : State} (hbusy : u.busy = []) (hend : fetch u = none) :
    freeStep u = if irqEnabled u then dmaIrq u else dmaBeat u := by
  simp [freeStep, hostCanStep, hbusy, hend]

section FreeRun

variable {lo : Nat} {bs : List Byte} {s u : State} {k : Nat}

theorem Sent.step_free_beat (h : Sent lo bs s k u) (harm : Armed lo bs s) (hok : configOk s.cfg = true)
    (hdone : HostDone u) (hk : k < bs.length) : ∃ v, step u = .next v ∧ Sent lo bs s (k + 1) v ∧ HostDone v := by
  obtain ⟨hturns, hbusy, hend⟩ := hdone
  obtain ⟨hbusy', hturns', hprog, hopi⟩ := afterBeat_frame bs[k] u
  refine ⟨_, ?_, h.afterBeat harm hk, hturns'.trans hturns, hbusy'.trans hbusy, ?_⟩
  · rw [step_free u (h.cfg ▸ hok) hturns, freeStep_of_no_host hbusy hend, h.irqEnabled_eq harm,
      decide_eq_false hk.ne]
    exact h.dmaBeat_next harm hk
  · rw [fetch, hprog, hopi]
    exact hend

theorem Sent.step_free_handler (h : Sent lo bs s bs.length u) (harm : Armed lo bs s) (hok : configOk s.cfg = true)
    (hdone : HostDone u) : step u = .next (takeCompletion u) := by
  obtain ⟨hturns, hbusy, hend⟩ := hdone
  have hirq : irqEnabled u = true := by rw [h.irqEnabled_eq harm, decide_eq_true_eq]
  rw [step_free u (h.cfg ▸ hok) hturns, freeStep_of_no_host hbusy hend, if_pos hirq, dmaIrq_of_enabled hirq]

/-- A transfer that nothing interrupts: its beats, and its handler. -/
theorem Armed.runMachine_complete (harm : Armed lo bs s) (hok : configOk s.cfg = true) (hdone : HostDone s) :
    ∃ u, Sent lo bs s bs.length u ∧ runMachine (bs.length + 1) s = .next (takeCompletion u) := by
  obtain ⟨u, hu, hsent, hdone'⟩ := runMachine_of_steps bs.length (fun k u => Sent lo bs s k u ∧ HostDone u) s
    ⟨harm.sent_zero s.busy s.turns, hdone⟩ (fun k hk u ⟨hsent, hd⟩ => hsent.step_free_beat harm hok hd hk)
    bs.length le_rfl
  exact ⟨u, hsent, runMachine_step_last _ _ _ _ hu (hsent.step_free_handler harm hok hdone')⟩

end FreeRun

/-! ### The same frame with `TRANSPORT = SYNC` (R190) -/

/-- The host has claimed the lock, selected the panel and set the window of the viewport. -/
def opened (s : State) : State :=
  { s with
    lock := true, holder := .cons 0, cs := .selected, dc := .data,
    wt := s.wt ++ [.cs .selected] ++ windowEvents .selected (viewport s.cfg) }

theorem runAll_openViewport (op : Instr) {s : State} (hok : configOk s.cfg = true) (hlock : s.lock = false) :
    runAll (stepsOf op ([.acquire, .csSelect] ++ setWriteRegionActs (viewport s.cfg))) s = some (opened s) := by
  have hselect : runAct op .csSelect (takeLock (.cons 0) s) = .ok (setCs .selected (takeLock (.cons 0) s)) :=
    (underLock_ok_iff op _ _ _).2 ⟨rfl, rfl⟩
  exact runAll_cons_trans (runAct_acquire_of_free op s hlock) <| runAll_cons_trans hselect <|
    runAll_setWriteRegion op (viewport s.cfg) _ rfl (inPanel_viewport hok)

theorem runAll_close (op : Instr) {s : State} (hheld : s.holder = .cons 0) :
    runAll (stepsOf op [.csDeselect, .release]) s = some (freeLock (setCs .deselected s)) := by
  have hdeselect : runAct op .csDeselect s = .ok (setCs .deselected s) := (underLock_ok_iff op _ _ _).2 ⟨hheld, rfl⟩
  exact runAll_cons_trans hdeselect <|
    runAll_single (runAct_release_of_held op (setCs .deselected s) hheld)

/-- The state a synchronous `PAINT` of the frame `ps` ends in. -/
def paintedSync (ps : List Color12) (src : Addr) (clr : Bool) (s : State) : State :=
  { s with
    lock := false, holder := .none, cs := .deselected, dc := .data, stream := [],
    mem := clearedMem s.cfg src clr s.mem,
    wt := s.wt ++ displayEvents (viewport s.cfg) (streamBytes ps) }

/-- An undisturbed synchronous `PAINT` of an allocated buffer. -/
theorem exec_paint_sync_undisturbed {s : State} {src : Addr} {ps : List Color12} (clr : Bool)
    (hok : configOk s.cfg = true) (hsync : s.cfg.transport = .sync) (hapart : overlapsStream s.cfg src = false)
    (hfree : undisturbed s) (hsrc : rangeAdmitted s.mem src.toNat (srcBytes s.cfg) = true)
    (hframe : framePixels s src = .ok ps) :
    exec (.paint src clr) s = .next (finished (paintedSync ps src clr s)) := by
  obtain ⟨hturns, hlock⟩ := hfree
  rw [exec_eq_runSteps _ s (by simp [execRefusal, hapart])]
  simp only [execSteps, hsync]
  refine runSteps_complete _ s _ hturns ?_
  have hcompose := runAct_compose (.paint src clr) (framePixels_ok_congr hframe (opened s) rfl)
  have hsend := runAll_sendStream (.paint src clr) (streamBytes ps) { opened s with stream := streamBytes ps } rfl rfl
    rfl
  rw [length_streamBytes_frame hframe] at hsend
  have hclose := runAll_close (.paint src clr)
    (s := { opened s with stream := [], wt := (opened s).wt ++ dataEvents .selected (streamBytes ps) }) rfl
  have hrun := runAll_append_trans (runAll_append_trans (runAll_append_trans (runAll_append_trans
    (runAll_openViewport (.paint src clr) hok hlock) (runAll_single hcompose)) hsend) hclose)
    (runAll_clear (.paint src clr) src clr _ hsrc)
  refine hrun.trans ?_
  simp [paintedSync, opened, setCs, emit, freeLock, displayEvents]

/-- Settles O36: the operation arms the transfer, `Armed.runMachine_complete` takes it to its end, and the synchronous
operation sends the same. -/
theorem bothTransportsSendTheSameTrace : Obligations.BothTransportsSendTheSameTrace := by
  unfold Obligations.BothTransportsSendTheSameTrace
  intro s src clr ps hok hdma hfree hidle hoff hpend hapart hprog hsrc hstream hframe
  have hlength := length_streamBytes_frame hframe
  have hstarted := armed_streaming (s := takeLock (.cons 0) s) hok rfl hpend
    (framePixels_ok_congr hframe _ rfl) hstream
  have harm : Armed s.cfg.streamBase.toNat (streamBytes ps) (paintedDma ps src clr s) :=
    hstarted.withMem fun a ha => by
      rw [hlength] at ha
      rw [memRead_clearedMem _ _ _ _ _ (by rwa [rangeAdmitted_writeBytes]),
        if_neg fun h => not_inRange_of_not_overlaps hapart ha h.2]
      rfl
  have hdone : HostDone (finished (paintedDma ps src clr s)) := ⟨hfree.1, rfl, List.getElem?_eq_none hprog⟩
  obtain ⟨u, hsent, hrun⟩ := harm.finished.runMachine_complete hok hdone
  have hwt := hsent.wt
  rw [List.take_length] at hwt
  have htrace : (takeCompletion u).wt = s.wt ++ displayEvents (viewport s.cfg) (streamBytes ps) := by
    rw [takeCompletion_wt, hwt]
    simp [finished, paintedDma, streaming, armed, prepared, displayEvents, dataEvents]
  rw [hlength] at hrun
  refine ⟨_, _, _, exec_paint_dma_undisturbed clr hok hdma hapart hfree hidle hoff hsrc hstream hframe, hrun,
    exec_paint_sync_undisturbed (s := { s with cfg := { s.cfg with transport := .sync } }) clr ?_ rfl hapart hfree hsrc
      (framePixels_ok_congr hframe _ rfl),
    rfl, htrace, htrace, rfl, rfl, rfl, rfl, rfl, rfl, rfl, rfl, ?_⟩
  · exact hok
  · obtain ⟨_, _, _, _, _, _, rfl, _⟩ := hsent
    rfl

end Sys2Proof.Proofs
end

