-- ==== Sys2Proof/Proofs/PreemptedDmaPaint.lean ====
section
/-! O60: a preempted DMA `PAINT`. Up to the start of the transfer the host holds the lock and no other agent has a step,
so the preempted machine is the undisturbed run but for the bookkeeping. From there on the host only clears its buffer,
which the transfer does not read, and the two go on side by side: the channel's beats (`Sent`) and, after its handler,
the other consumers (`Landed`). `Stage` says in which part the operation is; every turn of every agent keeps it. -/

namespace Sys2Proof.Proofs

open Sys2Proof.Machine Sys2Proof.Laws

/-! ### The transfer beside the host's clearing -/

/-- What a transfer of `bs` from the state `a` puts on the wire, its handler's `CS-` included (R174, R176). -/
def sentEvents (bs : List Byte) (a : State) : List Event := bs.map (.byte a.cs a.dc) ++ [.cs .deselected]

/-- `b` is the state `a`, in which a transfer of `bs` was started, after its completion handler: another consumer may
have claimed the lock since and sent bytes (R158). -/
def Landed (bs : List Byte) (a b : State) : Prop :=
  ∃ q ts l h w td past n,
    b = { a with
      busy := q, turns := ts, lock := l, holder := h, cs := .deselected, dstate := .idle, chEn := false,
      irqPend := false, td := td, srcPast := past, freeIdx := n, wt := w } ∧
    hostEvents w = hostEvents a.wt ++ hostEvents (sentEvents bs a) ∧ h ≠ .dma

/-- `b` is the state `a`, in which a transfer of `bs` was started, with the transfer on its way or completed. -/
def Progress (lo : Nat) (bs : List Byte) (a b : State) : Prop := (∃ k, Sent lo bs a k b) ∨ Landed bs a b

section Channel

variable {lo : Nat} {bs : List Byte} {a b : State} {k : Nat}

theorem Landed.bookkeeping (h : Landed bs a b) (q : List PrimStep) (ts : List Turn) :
    Landed bs a { b with busy := q, turns := ts } := by
  obtain ⟨_, _, l, h, w, td, past, n, rfl, hrest⟩ := h
  exact ⟨q, ts, l, h, w, td, past, n, rfl, hrest⟩

theorem Landed.idle (h : Landed bs a b) : b.dstate = .idle := by
  obtain ⟨_, _, _, _, _, _, _, _, rfl, _⟩ := h
  rfl

theorem Progress.bookkeeping (h : Progress lo bs a b) (q : List PrimStep) (ts : List Turn) :
    Progress lo bs a { b with busy := q, turns := ts } :=
  h.imp (fun ⟨k, hsent⟩ => ⟨k, hsent.bookkeeping q ts⟩) fun hlanded => hlanded.bookkeeping q ts

theorem Progress.cfg (h : Progress lo bs a b) : b.cfg = a.cfg := by
  rcases h with ⟨_, hsent⟩ | ⟨_, _, _, _, _, _, _, _, rfl, _⟩
  · exact hsent.cfg
  · rfl

theorem Progress.mem (h : Progress lo bs a b) : b.mem = a.mem := by
  rcases h with ⟨_, _, _, _, _, _, _, rfl, _⟩ | ⟨_, _, _, _, _, _, _, _, rfl, _⟩ <;> rfl

/-- A store of the host is made in both. -/
theorem Progress.store (h : Progress lo bs a b) (m : Memory) :
    Progress lo bs { a with mem := m } { b with mem := m } := by
  rcases h with ⟨k, q, ts, src, cnt, past, n, rfl, hrest⟩ | ⟨q, ts, l, h, w, td, past, n, rfl, hrest⟩
  · exact .inl ⟨k, q, ts, src, cnt, past, n, rfl, hrest⟩
  · exact .inr ⟨q, ts, l, h, w, td, past, n, rfl, hrest⟩

/-- The end of the host's operation in both. -/
theorem Progress.finish (h : Progress lo bs a b) : Progress lo bs (finish a) (finish b) := by
  rcases h with ⟨k, _, ts, src, cnt, past, n, rfl, hrest⟩ | ⟨_, ts, l, h, w, td, past, n, rfl, hrest⟩
  · exact .inl ⟨k, [], ts, src, cnt, past, n, rfl, hrest⟩
  · exact .inr ⟨[], ts, l, h, w, td, past, n, rfl, hrest⟩

/-- The handler's step (R176). -/
theorem Sent.landed (h : Sent lo bs a bs.length b) : Landed bs a (takeCompletion b) := by
  obtain ⟨q, ts, _, _, _, n, rfl, _⟩ := h
  refine ⟨q, ts, false, .none, _, tornDown n, false, n + 1, rfl, ?_, by simp⟩
  simp [freeLock, setCs, emit, sentEvents]

theorem Sent.progress_beat (h : Sent lo bs a k b) (harm : Armed lo bs a) :
    ∃ c, dmaBeat b = .next c ∧ Progress lo bs a c ∧ c.busy = b.busy := by
  rcases Nat.lt_or_eq_of_le h.le with hk | rfl
  · exact ⟨_, h.dmaBeat_next harm hk, .inl ⟨_, h.afterBeat harm hk⟩, (afterBeat_frame _ _).1⟩
  · exact ⟨b, h.dmaBeat_of_all, .inl ⟨_, h⟩, rfl⟩

theorem Sent.progress_irq (h : Sent lo bs a k b) (harm : Armed lo bs a) :
    ∃ c, dmaIrq b = .next c ∧ Progress lo bs a c ∧ c.busy = b.busy := by
  rcases Nat.lt_or_eq_of_le h.le with hk | rfl
  · have hoff : irqEnabled b = false := by rw [h.irqEnabled_eq harm, decide_eq_false hk.ne]
    exact ⟨b, dmaIrq_of_disabled b hoff, .inl ⟨_, h⟩, rfl⟩
  · have hon : irqEnabled b = true := by rw [h.irqEnabled_eq harm, decide_eq_true_eq]
    exact ⟨_, dmaIrq_of_enabled hon, .inr h.landed, rfl⟩

theorem Progress.dmaBeat (h : Progress lo bs a b) (harm : Armed lo bs a) :
    ∃ c, dmaBeat b = .next c ∧ Progress lo bs a c ∧ c.busy = b.busy := by
  rcases h with ⟨k, hsent⟩ | hlanded
  · exact hsent.progress_beat harm
  · exact ⟨b, dmaBeat_of_idle b hlanded.idle, .inr hlanded, rfl⟩

theorem Progress.dmaIrq (h : Progress lo bs a b) (harm : Armed lo bs a) :
    ∃ c, dmaIrq b = .next c ∧ Progress lo bs a c ∧ c.busy = b.busy := by
  rcases h with ⟨k, hsent⟩ | hlanded
  · exact hsent.progress_irq harm
  · exact ⟨b, dmaIrq_of_idle b hlanded.idle, .inr hlanded, rfl⟩

/-- While the channel holds the lock another consumer has no step; afterwards it may claim the lock. -/
theorem Progress.otherAcquire (h : Progress lo bs a b) (harm : Armed lo bs a) (k : Nat) :
    Progress lo bs a (otherAcquire k b) := by
  rcases otherAcquire_cases k b with he | ⟨hlock, _, he⟩ <;> rw [he]
  · exact h
  rcases h with ⟨_, hsent⟩ | ⟨q, ts, _, _, w, td, past, n, rfl, hw, _⟩
  · have hheld := (hsent.owner harm).1
    rw [hlock] at hheld
    cases hheld
  · exact .inr ⟨q, ts, true, .cons k, w, td, past, n, rfl, hw, by simp⟩

theorem Progress.otherByte (h : Progress lo bs a b) (harm : Armed lo bs a) (k : Nat) (x : Byte) :
    Progress lo bs a (otherByte k x b) := by
  rcases otherByte_cases k x b with he | ⟨hcons, _, he⟩ <;> rw [he]
  · exact h
  rcases h with ⟨_, hsent⟩ | ⟨q, ts, l, h, w, td, past, n, rfl, hw, hh⟩
  · have hheld := (hsent.owner harm).2
    rw [hcons] at hheld
    cases hheld
  · exact .inr ⟨q, ts, l, h, _, td, past, n, rfl, by simp [hw], hh⟩

theorem Progress.otherRelease (h : Progress lo bs a b) (harm : Armed lo bs a) (k : Nat) :
    Progress lo bs a (otherRelease k b) := by
  rcases otherRelease_cases k b with he | ⟨hcons, _, he⟩ <;> rw [he]
  · exact h
  rcases h with ⟨_, hsent⟩ | ⟨q, ts, _, _, w, td, past, n, rfl, hw, _⟩
  · have hheld := (hsent.owner harm).2
    rw [hcons] at hheld
    cases hheld
  · exact .inr ⟨q, ts, false, .none, w, td, past, n, rfl, hw, by simp⟩

/-- Inside an operation of the host, no turn of another agent fails, and each keeps the transfer on its way. -/
theorem Progress.turnStep (h : Progress lo bs a b) (harm : Armed lo bs a) (hbusy : b.busy ≠ []) (t : Turn)
    (ht : t ≠ .host) : ∃ c, turnStep t b = .next c ∧ Progress lo bs a c ∧ c.busy = b.busy := by
  cases t with
  | host => exact absurd rfl ht
  | dmaBeat => exact h.dmaBeat harm
  | dmaIrq => exact h.dmaIrq harm
  | oAcquire k => exact ⟨_, rfl, h.otherAcquire harm k, otherAcquire_busy k b⟩
  | oByte k x => exact ⟨_, rfl, h.otherByte harm k x, otherByte_busy k x b⟩
  | oRelease k => exact ⟨_, rfl, h.otherRelease harm k, otherRelease_busy k b⟩
  | hostStore p x => exact ⟨b, congrArg _ (hostStore_of_busy p x b hbusy), h, rfl⟩

end Channel

/-! ### The operation in progress -/

/-- A run of primitive steps that are all taken begins with the first. -/
theorem runAll_cons_some {p : PrimStep} {ps : List PrimStep} {s t : State} (h : runAll (p :: ps) s = some t) :
    ∃ s', runAct p.op p.act s = .ok s' ∧ runAll ps s' = some t := by
  simp only [runAll] at h
  split at h
  · exact ⟨_, ‹_›, h⟩
  · cases h

/-- While the host is inside an operation and holds the lock, no turn of another agent does anything, or fails. -/
theorem turnStep_eq_of_held (t : Turn) (s : State) (hbusy : s.busy ≠ []) (hs : lockInvariant s)
    (hheld : s.holder = .cons 0) (ht : t ≠ .host) : turnStep t s = .next s := by
  have hidle := idle_of_cons s hs 0 hheld
  have hnext : ∃ u, turnStep t s = .next u := by
    cases t with
    | host => exact absurd rfl ht
    | dmaBeat => exact ⟨s, dmaBeat_of_idle s hidle⟩
    | dmaIrq => exact ⟨s, dmaIrq_of_idle s hidle⟩
    | _ => exact ⟨_, rfl⟩
  obtain ⟨u, hu⟩ := hnext
  rw [hu, turnStep_of_held t s u hbusy hs hheld ht hu]

/-- The step clears a byte outside the stream buffer at `lo` (R197). -/
def ClearsOutside (lo n : Nat) (act : Act) : Prop := ∃ buf i, act = .clearByte buf i ∧ ¬inRange (buf.toNat + i) lo n

/-- The steps `ps` are left of the operation; the undisturbed run has come to `a`, the preempted machine to `b`. The
transfer is one of `bs`, which lies at `lo`. -/
inductive Stage (lo : Nat) (bs : List Byte) : List PrimStep → State → State → Prop
  /-- The host holds the lock and prepares; then the transfer is started. -/
  | preparing {prep clears : List PrimStep} {start : PrimStep} {a r s : State} (q : List PrimStep) (ts : List Turn)
      (held : a.holder = .cons 0) (invariant : lockInvariant a) (keep : ∀ p ∈ prep, ∀ o, ownerAfter p.act o = o)
      (prepares : runAll prep a = some r) (starts : runAct start.op start.act r = .ok s) (arm : Armed lo bs s)
      (clear : ∀ p ∈ clears, ClearsOutside lo bs.length p.act) : Stage lo bs (prep ++ start :: clears) a (rebook q ts a)
  /-- The transfer is on its way or completed, and the host clears its buffer. -/
  | sending {clears : List PrimStep} {a b : State} (arm : Armed lo bs a) (progress : Progress lo bs a b)
      (clear : ∀ p ∈ clears, ClearsOutside lo bs.length p.act) : Stage lo bs clears a b

section Stages

variable {lo : Nat} {bs : List Byte} {ps : List PrimStep} {a b t u : State}

theorem Stage.bookkeeping (h : Stage lo bs ps a b) (q : List PrimStep) (ts : List Turn) :
    Stage lo bs ps a { b with busy := q, turns := ts } := by
  cases h with
  | preparing _ _ held invariant keep prepares starts arm clear =>
    exact .preparing q ts held invariant keep prepares starts arm clear
  | sending arm progress clear => exact .sending arm (progress.bookkeeping q ts) clear

theorem Stage.cfg (h : Stage lo bs ps a b) : b.cfg = a.cfg := by
  cases h with
  | preparing => rfl
  | sending arm progress clear => exact progress.cfg

/-- A byte cleared outside the stream buffer, in both. -/
theorem Stage.clearByte {p : PrimStep} (arm : Armed lo bs a) (progress : Progress lo bs a b)
    (clear : ∀ q ∈ p :: ps, ClearsOutside lo bs.length q.act) (hact : runAct p.op p.act a = .ok t) :
    ∃ c, runAct p.op p.act b = .ok c ∧ Stage lo bs ps t c := by
  obtain ⟨⟨buf, i, hclear, hout⟩, hrest⟩ := List.forall_mem_cons.1 clear
  rw [hclear] at hact ⊢
  obtain ⟨hadm, rfl⟩ := (storeByte_ok_iff _ _ _ _).1 hact
  refine ⟨_, (storeByte_ok_iff _ _ _ _).2 ⟨by rwa [progress.mem], rfl⟩, ?_⟩
  rw [progress.mem]
  exact .sending (arm.withMem fun x hx => memRead_memWrite_other _ _ _ _ fun he => hout (he ▸ hx)) (progress.store _)
    hrest

/-- A step of the undisturbed run is taken in the preempted one as well. -/
theorem Stage.runAct {p : PrimStep} (h : Stage lo bs (p :: ps) a b) (hact : runAct p.op p.act a = .ok t) :
    ∃ c, runAct p.op p.act b = .ok c ∧ Stage lo bs ps t c := by
  generalize hlist : p :: ps = steps at h
  cases h with
  | @preparing prep clears start _ r s q ts held invariant keep prepares starts arm clear =>
    refine ⟨_, runAct_rebook_ok hact q ts, ?_⟩
    cases prep with
    | nil =>
      obtain ⟨rfl, rfl⟩ : p = start ∧ ps = clears := by simpa using hlist
      obtain rfl : a = r := Option.some.inj prepares
      obtain rfl : t = s := ActResult.ok.inj (hact.symm.trans starts)
      exact .sending arm (.inl ⟨0, arm.sent_zero q ts⟩) clear
    | cons p' prep =>
      obtain ⟨rfl, rfl⟩ : p = p' ∧ ps = prep ++ start :: clears := by simpa using hlist
      obtain ⟨hkeep, hkeeps⟩ := List.forall_mem_cons.1 keep
      rw [runAll_cons_ok p prep a t hact] at prepares
      have howner : owner t = owner a := (runAct_owner _ _ _ _ hact).trans (hkeep _)
      exact .preparing q ts ((congrArg Prod.snd howner).trans held) (lockInvariant_runAct _ _ _ _ invariant hact) hkeeps
        prepares starts arm clear
  | sending arm progress clear =>
    subst hlist
    exact Stage.clearByte arm progress clear hact

/-- Steps that the undisturbed run takes are all taken in the preempted one. -/
theorem Stage.runAll (h : Stage lo bs ps a b) (hall : runAll ps a = some t) : ∃ c, runAll ps b = some c := by
  induction ps generalizing a b with
  | nil => exact ⟨b, rfl⟩
  | cons p ps ih =>
    obtain ⟨a', hact, hrest⟩ := runAll_cons_some hall
    obtain ⟨c, hc, hstage⟩ := h.runAct hact
    obtain ⟨d, hd⟩ := ih hstage hrest
    exact ⟨d, (runAll_cons_ok p ps b c hc).trans hd⟩

/-- A turn of another agent keeps the operation where it is. -/
theorem Stage.turnStep (h : Stage lo bs ps a b) (hbusy : b.busy ≠ []) (x : Turn) (hx : x ≠ .host) :
    ∃ c, turnStep x b = .next c ∧ Stage lo bs ps a c ∧ c.busy = b.busy := by
  cases h with
  | preparing q ts held invariant keep prepares starts arm clear =>
    exact ⟨_, turnStep_eq_of_held x _ hbusy invariant held hx,
      .preparing q ts held invariant keep prepares starts arm clear, rfl⟩
  | sending arm progress clear =>
    obtain ⟨c, hc, hprogress, hsame⟩ := progress.turnStep arm hbusy x hx
    exact ⟨c, hc, .sending arm hprogress clear, hsame⟩

/-- The operation is in progress: what is left of it leads the undisturbed run to `t`. -/
def Painting (lo : Nat) (bs : List Byte) (t u : State) : Prop :=
  u.busy ≠ [] ∧ ∃ a, Stage lo bs u.busy a u ∧ Laws.runAll u.busy a = some t ∧ configOk a.cfg = true

/-- The operation has ended, where the undisturbed run's last primitive step led to `t`. -/
def Painted (lo : Nat) (bs : List Byte) (t u : State) : Prop :=
  u.busy = [] ∧ Armed lo bs t ∧ Progress lo bs (Machine.finish t) u

theorem Stage.runRest (h : Stage lo bs ps a b) (hall : Laws.runAll ps a = some t) (hok : configOk a.cfg = true) :
    Painting lo bs t (runRest ps b) ∨ Painted lo bs t (runRest ps b) := by
  induction ps generalizing a b with
  | nil =>
    obtain rfl : a = t := Option.some.inj hall
    generalize hlist : ([] : List PrimStep) = steps at h
    cases h with
    | preparing => simp at hlist
    | sending arm progress clear =>
      subst hlist
      exact .inr ⟨rfl, arm, progress.finish⟩
  | cons p ps ih =>
    have paused : Painting lo bs t { b with busy := p :: ps } :=
      ⟨List.cons_ne_nil p ps, a, h.bookkeeping (p :: ps) b.turns, hall, hok⟩
    unfold Machine.runRest
    split
    · exact .inl paused
    · rename_i c hturn
      obtain ⟨ts, rfl⟩ := hostTurn_some b c hturn
      obtain ⟨a', hact, hrest⟩ := runAll_cons_some hall
      obtain ⟨c, hc, hstage⟩ := (h.bookkeeping b.busy ts).runAct hact
      simp only [hc]
      exact ih hstage hrest ((runAct_cfg _ _ _ _ hact).symm ▸ hok)

end Stages

namespace Painting

variable {lo : Nat} {bs : List Byte} {t u : State}

theorem admitted (h : Painting lo bs t u) : configOk u.cfg = true := by
  obtain ⟨_, a, hstage, _, hok⟩ := h
  rwa [hstage.cfg]

theorem withTurns (h : Painting lo bs t u) (ts : List Turn) : Painting lo bs t { u with turns := ts } := by
  obtain ⟨hbusy, a, hstage, hall, hok⟩ := h
  exact ⟨hbusy, a, hstage.bookkeeping u.busy ts, hall, hok⟩

/-- The next primitive step is taken: none of those left waits. -/
theorem runAct_head (h : Painting lo bs t u) {p : PrimStep} {ps : List PrimStep} (hu : u.busy = p :: ps) :
    ∃ a c, runAct p.op p.act u = .ok c ∧ Stage lo bs ps a c ∧ runAll ps a = some t ∧ configOk a.cfg = true := by
  obtain ⟨_, a, hstage, hall, hok⟩ := h
  rw [hu] at hstage hall
  obtain ⟨a', hact, hrest⟩ := runAll_cons_some hall
  obtain ⟨c, hc, hstage'⟩ := hstage.runAct hact
  exact ⟨a', c, hc, hstage', hrest, (runAct_cfg _ _ _ _ hact).symm ▸ hok⟩

theorem hostStep (h : Painting lo bs t u) : ∃ v, hostStep u = .next v ∧ (Painting lo bs t v ∨ Painted lo bs t v) := by
  obtain ⟨p, ps, hu⟩ := List.exists_cons_of_ne_nil h.1
  obtain ⟨_, c, hc, hstage, hall, hok⟩ := h.runAct_head hu
  rw [hostStep_of_busy u h.1, hu]
  exact ⟨Machine.runRest ps c, by simp [runSteps, hc], hstage.runRest hall hok⟩

/-- Inside the operation the host always has a step. -/
theorem hostCanStep (h : Painting lo bs t u) : hostCanStep u = true := by
  obtain ⟨p, ps, hu⟩ := List.exists_cons_of_ne_nil h.1
  obtain ⟨_, c, hc, _⟩ := h.runAct_head hu
  have hwait : ¬(p.act = .acquire ∧ u.lock = true) := fun ⟨hp, hl⟩ => by simp [runAct, hp, hl] at hc
  simpa [Machine.hostCanStep, blocked, hu, or_iff_not_imp_left] using hwait

theorem turnStep (h : Painting lo bs t u) (x : Turn) :
    ∃ v, turnStep x u = .next v ∧ (Painting lo bs t v ∨ Painted lo bs t v) := by
  by_cases hx : x = .host
  · subst hx
    exact h.hostStep
  · obtain ⟨hbusy, a, hstage, hall, hok⟩ := h
    obtain ⟨v, hv, hstage', hsame⟩ := hstage.turnStep hbusy x hx
    exact ⟨v, hv, .inl ⟨hsame ▸ hbusy, a, hsame.symm ▸ hstage', hsame.symm ▸ hall, hok⟩⟩

/-- With no turn left the host moves. -/
theorem step_of_no_turns (h : Painting lo bs t u) (hturns : u.turns = []) : step u = Machine.hostStep u := by
  rw [step_free u h.admitted hturns, freeStep, if_pos h.hostCanStep]

/-- No step of any agent fails inside the operation, which is then still in progress or has ended. -/
theorem step (h : Painting lo bs t u) : ∃ v, step u = .next v ∧ (Painting lo bs t v ∨ Painted lo bs t v) := by
  cases hts : u.turns with
  | nil =>
    rw [h.step_of_no_turns hts]
    exact h.hostStep
  | cons x ts =>
    rw [step_turn u x ts h.admitted hts]
    exact (h.withTurns ts).turnStep x

/-- With the script used up the next step ends the operation. -/
theorem ends (h : Painting lo bs t u) (hturns : u.turns = []) : ∃ v, Machine.step u = .next v ∧ v.busy = [] := by
  rw [h.step_of_no_turns hturns, hostStep_of_busy u h.1]
  obtain ⟨_, a, hstage, hall, _⟩ := h
  obtain ⟨c, hc⟩ := hstage.runAll hall
  exact ⟨_, runSteps_complete _ u c hturns hc, rfl⟩

end Painting

/-- What every step inside an operation keeps, any number of them keep while it is in progress. -/
theorem runMachine_whileBusy {P : State → Prop} (hstep : ∀ u, P u → u.busy ≠ [] → ∃ v, step u = .next v ∧ P v)
    (n : Nat) (u : State) (h : P u) (hbusy : stillBusy n u) : ∃ v, runMachine n u = .next v ∧ P v := by
  induction n generalizing u with
  | zero => exact ⟨u, rfl, h⟩
  | succ n ih =>
    have hfirst : u.busy ≠ [] := by
      obtain ⟨v, hv, hne⟩ := hbusy 0 (Nat.succ_pos n)
      obtain rfl : u = v := Host.Outcome.next.inj hv
      exact hne
    obtain ⟨v, hv, hP⟩ := hstep u h hfirst
    have hrest : stillBusy n v := fun m hm => by
      rw [← runMachine_succ m u v hv]
      exact hbusy (m + 1) (Nat.succ_lt_succ hm)
    rw [runMachine_succ n u v hv]
    exact ih v hP hrest

/-! ### The undisturbed run -/

/-- What every step of the list keeps holds at the end of a run of them all, and wherever one of them was taken. -/
theorem runAll_reaches (P : State → Prop) (ps : List PrimStep)
    (hact : ∀ p ∈ ps, ∀ u v, P u → runAct p.op p.act u = .ok v → P v) (s t : State) (hs : P s)
    (h : runAll ps s = some t) : P t ∧ ∀ p ∈ ps, ∃ u v, P u ∧ runAct p.op p.act u = .ok v := by
  induction ps generalizing s with
  | nil =>
    obtain rfl : s = t := Option.some.inj h
    exact ⟨hs, by simp⟩
  | cons p ps ih =>
    obtain ⟨s', hp, hrest⟩ := runAll_cons_some h
    obtain ⟨hhead, htail⟩ := List.forall_mem_cons.1 hact
    obtain ⟨ht, hps⟩ := ih htail s' (hhead s s' hs hp) hrest
    exact ⟨ht, List.forall_mem_cons.2 ⟨⟨s, s', hs, hp⟩, hps⟩⟩

/-- No primitive step allocates or frees a byte. -/
theorem runAct_admitted (op : Instr) (act : Act) (s t : State) (h : runAct op act s = .ok t) (x : Nat) :
    admitted t.mem x = admitted s.mem x := by
  rcases runAct_mem op act s t h with he | ⟨y, b, _, he⟩ <;> rw [he]
  exact admitted_memWrite _ _ _ _

theorem framePixels_of_runAct_compose {op : Instr} {src : Addr} {s t : State} (h : runAct op (.compose src) s = .ok t) :
    ∃ ps, framePixels s src = .ok ps := by
  simp only [runAct] at h
  split at h
  · exact ⟨_, ‹_›⟩
  · cases h

/-- An operation that has stored every byte of the stream had the stream buffer allocated. -/
theorem rangeAdmitted_of_runAll_storeStream {ps : List PrimStep} {s t : State} (op : Instr) (n : Nat)
    (hstore : ∀ i < n, ⟨op, .storeStream i⟩ ∈ ps) (h : runAll ps s = some t) :
    rangeAdmitted s.mem s.cfg.streamBase.toNat n = true := by
  obtain ⟨_, htaken⟩ := runAll_reaches (fun u => u.cfg = s.cfg ∧ ∀ x, admitted u.mem x = admitted s.mem x) ps
    (fun p _ u v ⟨hcfg, hadm⟩ huv => ⟨(runAct_cfg _ _ u v huv).trans hcfg,
      fun x => (runAct_admitted _ _ u v huv x).trans (hadm x)⟩) s t ⟨rfl, fun _ => rfl⟩ h
  refine (rangeAdmitted_iff _ _ _).2 fun i hi => ?_
  obtain ⟨u, v, ⟨hcfg, hadm⟩, huv⟩ := htaken _ (hstore i hi)
  have hbyte := ((storeByte_ok_iff _ _ _ _).1 huv).1
  rw [hcfg] at hbyte
  exact (hadm _).symm.trans hbyte

/-- Preparing the transfer leaves the lock with the host. -/
theorem ownerAfter_prepareActs (c : Config) (src : Addr) (op : Instr) :
    ∀ p ∈ stepsOf op (prepareActs c src), ∀ o, ownerAfter p.act o = o := by
  simp [stepsOf, prepareActs, setWriteRegionActs, windowActs, sendCommandActs, ownerAfter, or_imp, forall_and]

/-- The clearing of a buffer that does not overlap the stream buffer (R7 c4, R197). -/
theorem clearsOutside_clearActs {c : Config} {src : Addr} (hapart : overlapsStream c src = false) (clr : Bool)
    (op : Instr) : ∀ p ∈ stepsOf op (clearActs c src clr), ClearsOutside c.streamBase.toNat (streamLen c) p.act := by
  intro p hp
  obtain ⟨act, hact, rfl⟩ := List.mem_map.1 hp
  cases clr with
  | false => simp [clearActs] at hact
  | true =>
    obtain ⟨i, hi, rfl⟩ : ∃ i < srcBytes c, .clearByte src i = act := by simpa [clearActs] using hact
    exact ⟨src, i, rfl, fun hin => not_inRange_of_not_overlaps hapart hin ⟨by omega, by omega⟩⟩

/-- Clearing changes neither line nor the parameters. -/
theorem lines_of_runAll_clear {lo n : Nat} {clears : List PrimStep} {s t : State}
    (hclear : ∀ p ∈ clears, ClearsOutside lo n p.act) (h : runAll clears s = some t) :
    t.cs = s.cs ∧ t.dc = s.dc ∧ t.cfg = s.cfg :=
  (runAll_reaches (fun u => u.cs = s.cs ∧ u.dc = s.dc ∧ u.cfg = s.cfg) clears (fun p hp u v hu huv => by
    obtain ⟨buf, i, hact, _⟩ := hclear p hp
    rw [hact] at huv
    obtain ⟨_, rfl⟩ := (storeByte_ok_iff _ _ _ _).1 huv
    exact hu) s t ⟨rfl, rfl, rfl⟩ h).1

theorem runAct_acquire_ok {op : Instr} {s t : State} (h : runAct op .acquire s = .ok t) :
    s.lock = false ∧ t = takeLock (.cons 0) s := by
  cases hlock : s.lock with
  | true =>
    rw [runAct_acquire_of_held op s hlock] at h
    cases h
  | false => exact ⟨rfl, ActResult.ok.inj (h.symm.trans (runAct_acquire_of_free op s hlock))⟩

/-- The lock invariant where the host holds the lock. -/
theorem quiet_of_held {s : State} (hs : lockInvariant s) (hheld : s.holder = .cons 0) :
    s.lock = true ∧ s.dstate = .idle ∧ s.chEn = false ∧ s.irqPend = false := by
  have hidle := idle_of_cons s hs 0 hheld
  obtain ⟨hfree, _, hquiet, _⟩ := hs
  obtain ⟨hoff, hpend, _⟩ := hquiet hidle
  refine ⟨?_, hidle, hoff, hpend⟩
  rw [← Bool.not_eq_false, hfree, hheld]
  simp

/-- After its claim of the lock, an undisturbed DMA `PAINT` that takes all its steps is the undisturbed run of a
`Stage`. -/
theorem stage_of_runAll {a t : State} {src : Addr} {clr : Bool} (hok : configOk a.cfg = true) (hs : lockInvariant a)
    (hheld : a.holder = .cons 0) (hapart : overlapsStream a.cfg src = false)
    (hall : runAll (stepsInside a.cfg src clr) a = some t) :
    ∃ bs : List Byte, bs.length = streamLen a.cfg ∧ (t.cs = .selected ∧ t.dc = .data ∧ t.cfg = a.cfg) ∧
      ∀ q ts, Stage a.cfg.streamBase.toNat bs (stepsInside a.cfg src clr) a (rebook q ts a) := by
  obtain ⟨hlock, hidle, hoff, hpend⟩ := quiet_of_held hs hheld
  obtain ⟨_, hcompose, _⟩ := runAll_cons_some (p := ⟨_, .compose src⟩) hall
  obtain ⟨ps, hframe⟩ := framePixels_of_runAct_compose hcompose
  have hlength := length_streamBytes_frame hframe
  have hstream := rangeAdmitted_of_runAll_storeStream (.paint src clr) (streamLen a.cfg) (fun i hi => by
    simp [stepsInside, stepsOf, prepareActs, hi]) hall
  have hinside : stepsInside a.cfg src clr = stepsOf (.paint src clr) (prepareActs a.cfg src) ++
      ⟨.paint src clr, startStream a.cfg⟩ :: stepsOf (.paint src clr) (clearActs a.cfg src clr) := by
    simp [stepsInside, stepsOf]
  have hprepare := runAll_prepare (.paint src clr) hok hheld hframe hstream
  have hstart := runAct_startStream (ps := ps) (.paint src clr) hok hheld hidle hoff
  have hclear := clearsOutside_clearActs hapart clr (.paint src clr)
  rw [hinside] at hall ⊢
  refine ⟨streamBytes ps, hlength, ?_, fun q ts => ?_⟩
  · rw [runAll_append, hprepare, Option.bind_some, runAll_cons_ok _ _ _ _ hstart] at hall
    exact lines_of_runAll_clear hclear hall
  · exact .preparing q ts hheld hs (ownerAfter_prepareActs _ _ _) hprepare hstart
      (armed_streaming hok hlock hpend hframe hstream) (hlength.symm ▸ hclear)

/-! ### The end of the operation -/

/-- No byte of another consumer is among what a transfer sends. -/
theorem hostEvents_bytes (c : CsLine) (d : DcLine) (bs : List Byte) :
    hostEvents (bs.map (.byte c d)) = bs.map (.byte c d) := by
  simp [hostEvents]

/-- What the transfer of an armed stream buffer puts on the wire, as the statement writes it. -/
theorem transferEvents_eq {bs : List Byte} {t : State} (harm : Armed t.cfg.streamBase.toNat bs t)
    (hlength : bs.length = streamLen t.cfg) (hcs : t.cs = .selected) (hdc : t.dc = .data) :
    transferEvents t = sentEvents bs t := by
  rw [transferEvents, sentEvents, hcs, hdc, ← hlength]
  congr 1
  refine List.ext_getElem (by simp) fun k hk _ => ?_
  have hk : k < bs.length := by simpa using hk
  simp [harm.bytes k hk, hk]

/-- The end of a preempted DMA `PAINT` is that of the undisturbed one, and so many events of its transfer. -/
theorem Progress.spec {bs : List Byte} {t u : State} (h : Progress t.cfg.streamBase.toNat bs t u)
    (harm : Armed t.cfg.streamBase.toNat bs t) (hlength : bs.length = streamLen t.cfg) (hcs : t.cs = .selected)
    (hdc : t.dc = .data) (hbusy : u.busy = t.busy) :
    hostViewApartFromChannel u = hostViewApartFromChannel t ∧
      ∃ k ≤ streamLen t.cfg + 1, hostEvents u.wt = hostEvents t.wt ++ (transferEvents t).take k ∧
        (k ≤ streamLen t.cfg → u.dstate = .inFlight ∧ u.chEn = true ∧ u.lock = true ∧ u.holder = .dma ∧
          u.cs = .selected ∧ u.td.cnt.toNat = streamLen t.cfg - k) ∧
        (k = streamLen t.cfg + 1 → u.dstate = .idle ∧ u.chEn = false ∧ u.irqPend = false ∧ u.cs = .deselected ∧
          u.holder ≠ .dma) := by
  rw [transferEvents_eq harm hlength hcs hdc, sentEvents, ← hlength]
  rcases h with ⟨k, hsent⟩ | ⟨q, ts, l, h, w, td, past, n, rfl, hw, hh⟩
  · have hle := hsent.le
    obtain ⟨hlock, hholder⟩ := hsent.owner harm
    obtain ⟨hflying, hen, hcnt⟩ := hsent.channel harm
    have hwt : hostEvents u.wt = hostEvents t.wt ++ (bs.take k).map (.byte t.cs t.dc) := by
      rw [hsent.wt, hostEvents_append, hostEvents_bytes]
    obtain ⟨q, ts, src, cnt, past, n, rfl, _⟩ := hsent
    obtain rfl : q = t.busy := hbusy
    refine ⟨rfl, k, by omega, ?_, fun _ => ⟨hflying, hen, hlock, hholder, hcs, hcnt⟩, fun hk => by omega⟩
    rw [List.take_append_of_le_length (by simpa using hle), ← List.map_take, hwt]
  · obtain rfl : q = t.busy := hbusy
    refine ⟨rfl, bs.length + 1, le_rfl, ?_, fun hk => by omega, fun _ => ⟨rfl, rfl, rfl, rfl, hh⟩⟩
    rw [List.take_of_length_le (by simp), hw, sentEvents, hostEvents_append, hostEvents_bytes]
    rfl

/-- Settles O60: after the claim, whose step is the first of both, the preempted operation goes through its stages with
the undisturbed run. -/
theorem preemptedDmaPaintSendsTheSame : Obligations.PreemptedDmaPaintSendsTheSame := by
  unfold Obligations.PreemptedDmaPaintSendsTheSame
  intro src clr s t ts hok hinv hidle hdma hexec hbusy
  have hapart : overlapsStream s.cfg src = false := by
    simpa [execRefusal] using (exec_next _ _ _ hexec).1
  rw [exec_paint_dma (s := { s with turns := [] }) hdma hapart] at hexec
  obtain ⟨t, hall, rfl⟩ := runAll_of_runSteps _ _ t rfl hexec hbusy
  obtain ⟨a, hclaim, hall⟩ := runAll_cons_some hall
  obtain ⟨hlock, rfl⟩ := runAct_acquire_ok hclaim
  obtain ⟨bs, hlength, ⟨hcs, hdc, hcfg⟩, hstage⟩ := stage_of_runAll (a := takeLock (.cons 0) { s with turns := [] })
    hok (lockInvariant_takeLock { s with turns := [] } hinv hidle 0) rfl hapart hall
  have hstart := (hstage s.busy ts).runRest hall hok
  refine ⟨runRest (stepsInside s.cfg src clr) (takeLock (.cons 0) { s with turns := ts }), ?_, fun n hn => ?_⟩
  · rw [exec_paint_dma (s := { s with turns := ts }) hdma hapart]
    simp only [runSteps, runAct_acquire_of_free _ { s with turns := ts } hlock]
  · obtain ⟨u, hu, hcases⟩ := runMachine_whileBusy
      (P := fun u => Painting s.cfg.streamBase.toNat bs t u ∨ Painted s.cfg.streamBase.toNat bs t u)
      (fun u h hne => h.elim Painting.step fun hend => absurd hend.1 hne) n _ hstart hn
    refine ⟨u, hu, ?_⟩
    rcases hcases with hpainting | ⟨hend, harm, hprogress⟩
    · exact ⟨fun hnil => absurd hnil hpainting.1, fun _ => hpainting.ends⟩
    · have hcfg : t.cfg = s.cfg := hcfg
      rw [← hcfg] at harm hprogress hlength ⊢
      exact ⟨fun _ => hprogress.spec harm.finished hlength hcs hdc hend, fun hne => absurd hend hne⟩

end Sys2Proof.Proofs
end

