-- ==== Sys2Proof/Proofs/Scaling.lean ====
section
/-! O33: the scaling of R193. It copies the index, or takes the floor of `d * k / 2^16` with a factor `k` that does not
depend on `d`, so it is monotone; that it stays below the source dimension is `scaleIndex_lt`. -/

namespace Sys2Proof.Proofs

open Sys2Proof.Machine Sys2Proof.Laws

theorem scaleIndex_same (d dim : Nat) : scaleIndex d dim dim = d := if_pos rfl

theorem scaleIndex_of_ne {srcDim dstDim : Nat} (h : srcDim ≠ dstDim) (d : Nat) :
    scaleIndex d srcDim dstDim = d * (srcDim * 65536 / dstDim + 1) / 65536 := if_neg h

/-- R193 as the source writes it, with shifts. -/
theorem scaleIndex_eq_shift (d srcDim dstDim : Nat) :
    scaleIndex d srcDim dstDim = if srcDim = dstDim then d else (d * ((srcDim <<< 16) / dstDim + 1)) >>> 16 := by
  simp only [scaleIndex, Nat.shiftLeft_eq, Nat.shiftRight_eq_div_pow, Nat.reducePow]

theorem scaleIndex_zero (srcDim dstDim : Nat) : scaleIndex 0 srcDim dstDim = 0 := by
  simp [scaleIndex]

/-- R194 p2: the scaling never goes back. -/
theorem scaleIndex_mono {d e : Nat} (h : d ≤ e) (srcDim dstDim : Nat) :
    scaleIndex d srcDim dstDim ≤ scaleIndex e srcDim dstDim := by
  by_cases heq : srcDim = dstDim
  · rwa [heq, scaleIndex_same, scaleIndex_same]
  · rw [scaleIndex_of_ne heq, scaleIndex_of_ne heq]
    exact Nat.div_le_div_right (Nat.mul_le_mul_right _ h)

/-- R194 p3: a magnification of two repeats every source index twice. -/
theorem scaleIndex_double {d srcDim : Nat} (hpos : 1 ≤ srcDim) (hd : d < 32768) :
    scaleIndex d srcDim (2 * srcDim) = d / 2 := by
  have hfloor : d * (32768 + 1) / 65536 = d / 2 := by omega
  have hfactor : srcDim * 65536 / (2 * srcDim) = 32768 := Nat.div_eq_of_eq_mul_left (by omega) (by ring)
  rw [scaleIndex_of_ne (by omega), hfactor, hfloor]

/-- R194 p4: the formula is exact for equal dimensions too, where R193 copies. -/
theorem scaleFormula_same {d dim : Nat} (hpos : 1 ≤ dim) (hmax : dim ≤ 256) (hd : d < dim) :
    d * (dim * 65536 / dim + 1) / 65536 = d := by
  rw [Nat.mul_div_cancel_left _ hpos]
  omega

/-- The byte of every logical pixel lies in the PixelBuffer (R61): a row of bytes holds eight rows of pixels. -/
theorem pixelAddr_inRange_of_lt {c : Config} (hrows : c.srcH % 8 = 0) (buf : Addr) {sx sy : Nat} (hsx : sx < c.srcW)
    (hsy : sy < c.srcH) : inRange (pixelAddr c buf sx sy) buf.toNat (srcBytes c) := by
  have hbytes : srcBytes c = c.srcH / 8 * c.srcW := by
    rw [srcBytes, Nat.mul_div_assoc _ (Nat.dvd_of_mod_eq_zero hrows), Nat.mul_comm]
  have hlast : (sy / 8 + 1) * c.srcW ≤ c.srcH / 8 * c.srcW := Nat.mul_le_mul_right _ (by omega)
  rw [Nat.add_mul] at hlast
  rw [hbytes, pixelAddr]
  omega

/-- Settles O33. -/
theorem scaleIndexStaysInTheSource : Obligations.ScaleIndexStaysInTheSource := by
  unfold Obligations.ScaleIndexStaysInTheSource
  refine ⟨fun d srcDim dstDim _ => scaleIndex_eq_shift d srcDim dstDim, fun d srcDim dstDim hpos _ hmax hd => ?_,
    fun c buf dx dy hranges hdx hdy => ?_, fun d srcDim => scaleIndex_double, fun d dim hpos hmax hd => ?_⟩
  · exact ⟨scaleIndex_lt hpos hmax hd, scaleIndex_zero _ _, fun e he _ => scaleIndex_mono he _ _⟩
  · obtain ⟨_, _, _, _, hsrcW, _, hdstW, hsrcH, hrows, _, hdstH, _⟩ := of_decide_eq_true hranges
    exact pixelAddr_inRange_of_lt hrows buf (scaleIndex_lt hsrcW hdstW hdx) (scaleIndex_lt hsrcH hdstH hdy)
  · exact ⟨scaleIndex_same d dim, scaleFormula_same hpos hmax hd⟩

end Sys2Proof.Proofs
end

