-- ==== Sys2Proof/Proofs/SyncPaint.lean ====
section
/-! O34: a synchronous `PAINT` (R190). From a free lock its end is `exec_paint_sync_undisturbed`; while the lock is held
it waits in its first step, the `Acquire`. -/

namespace Sys2Proof.Proofs

open Sys2Proof.Machine Sys2Proof.Laws

/-- An operation that begins with an `Acquire`, whoever owns the lock, waits in it while the lock is held (R140). -/
theorem waitsForLock_of_acquire {i : Instr} {s : State} {rest : List Act} (hok : configOk s.cfg = true)
    (hlock : s.lock = true)
    (hexec : ∀ l h, exec i { s with lock := l, holder := h } =
      runSteps (stepsOf i (.acquire :: rest)) { s with lock := l, holder := h }) : waitsForLock i s s := by
  refine ⟨stepsOf i rest, ?_, fun hturns => ?_⟩
  · exact (hexec s.lock s.holder).trans (runSteps_of_wait _ _ s (runAct_acquire_of_held _ s hlock))
  · have hresume := step_of_busy_free
      (s := { s with busy := ⟨i, .acquire⟩ :: stepsOf i rest, lock := false, holder := .none }) hok hturns rfl rfl
    rw [hresume, hexec false .none]
    exact runSteps_busy _ _ { s with lock := false, holder := .none }

theorem exec_paint_sync {s : State} (hsync : s.cfg.transport = .sync) {src : Addr}
    (hapart : overlapsStream s.cfg src = false) (clr : Bool) :
    exec (.paint src clr) s = runSteps (stepsOf (.paint src clr) (paintSyncActs s.cfg src clr)) s := by
  rw [exec_eq_runSteps _ s (by simp [execRefusal, hapart])]
  simp only [execSteps, hsync]

theorem paintSyncActs_eq_acquire_cons (c : Config) (src : Addr) (clr : Bool) :
    ∃ rest, paintSyncActs c src clr = .acquire :: rest := ⟨_, rfl⟩

/-- Settles O34: from a free lock the steps one by one, from a held one the wait in the first of them. -/
theorem paintSendsTheFrame : Obligations.PaintSendsTheFrame := by
  unfold Obligations.PaintSendsTheFrame
  intro s src clr hok hsync hapart
  refine ⟨fun hfree hsrc => ?_, fun hlock => ?_⟩
  · obtain ⟨ps, hframe⟩ := framePixels_of_admitted s src hok hsrc
    obtain ⟨hlength, hpixels⟩ := framePixels_spec s src ps hframe
    exact ⟨ps, _, exec_paint_sync_undisturbed clr hok hsync hapart hfree hsrc hframe, hlength, hpixels,
      fun a => memRead_clearedMem _ _ _ _ a hsrc⟩
  · obtain ⟨rest, hacts⟩ := paintSyncActs_eq_acquire_cons s.cfg src clr
    exact waitsForLock_of_acquire hok hlock fun l h => hacts ▸
      exec_paint_sync (s := { s with lock := l, holder := h }) hsync hapart clr

end Sys2Proof.Proofs
end

