-- ==== Sys2Proof/Proofs/PaintFaults.lean ====
section
/-! O38 and O58: a `PAINT` that meets a byte that is not allocated. An operation nobody interrupts takes the steps
before the one that faults, and that one is the machine's next step (R302; assumption 12), which is said once for every
operation; what is left is which steps of a `PAINT` those are in each transport. -/

namespace Sys2Proof.Proofs

open Sys2Proof.Machine Sys2Proof.Laws

/-! ### An operation that comes to a fault -/

theorem runAll_turns {ps : List PrimStep} {s t : State} (h : runAll ps s = some t) : t.turns = s.turns :=
  (runAll_reaches (fun u => u.turns = s.turns) ps (fun p _ u v hu huv => (runAct_turns p.op p.act u v huv).trans hu)
    s t rfl h).1

/-- The rest of an operation goes up to the step that faults. -/
theorem runRest_of_fault {p : PrimStep} {ps rest : List PrimStep} {s t : State} {f : Fault} (hturns : s.turns = [])
    (hall : runAll ps s = some t) (hfault : runAct p.op p.act t = .fault f) :
    runRest (ps ++ p :: rest) s = { t with busy := p :: rest } := by
  induction ps generalizing s with
  | nil =>
    obtain rfl : s = t := Option.some.inj hall
    simp [runRest, hturns, hfault]
  | cons q ps ih =>
    obtain ⟨s', hq, hrest⟩ := runAll_cons_some hall
    have hturns' : s'.turns = [] := (runAct_turns q.op q.act s s' hq).trans hturns
    simp only [List.cons_append, runRest, hostTurn_nil s hturns, hq, ih hturns' hrest]

/-- A host that comes to a step that faults has that fault as the machine's next step: such a step never waits. -/
theorem step_of_fault {p : PrimStep} {rest : List PrimStep} {t : State} {f : Fault} (hok : configOk t.cfg = true)
    (hturns : t.turns = []) (hfault : runAct p.op p.act t = .fault f) :
    step { t with busy := p :: rest } = .fault f := by
  have hmoves : (decide (p.act = .acquire) && t.lock) = false := by
    rw [Bool.and_eq_false_iff, decide_eq_false_iff_not, or_iff_not_imp_right, Bool.not_eq_false]
    intro hlock hact
    rw [hact, runAct_acquire_of_held _ t hlock] at hfault
    cases hfault
  have hcan : hostCanStep { t with busy := p :: rest } = true := congrArg not hmoves
  have hhost : hostStep { t with busy := p :: rest } = runSteps (p :: rest) t := runSteps_busy (p :: rest) (p :: rest) t
  rw [step_free { t with busy := p :: rest } hok hturns, freeStep, if_pos hcan, hhost,
    runSteps_of_fault p rest t f hfault]

/-- An operation that takes its first steps `acts`, up to the state `t`, and comes to one that faults stops before it,
and its next step is that fault (R302). -/
theorem exec_stopsAtFault {i : Instr} {acts rest : List Act} {act : Act} {s : State} (t : State) {f : Fault}
    (hexec : exec i s = runSteps (stepsOf i (acts ++ act :: rest)) s) (hne : acts ≠ []) (hok : configOk t.cfg = true)
    (hturns : s.turns = []) (hall : runAll (stepsOf i acts) s = some t) (hfault : runAct i act t = .fault f) :
    exec i s = .next { t with busy := stepsOf i (act :: rest) } ∧
      step { t with busy := stepsOf i (act :: rest) } = .fault f := by
  refine ⟨?_, step_of_fault hok ((runAll_turns hall).trans hturns) hfault⟩
  obtain ⟨first, later, rfl⟩ := List.exists_cons_of_ne_nil hne
  obtain ⟨s', hfirst, hlater⟩ := runAll_cons_some hall
  have hturns' : s'.turns = [] := (runAct_turns i first s s' hfirst).trans hturns
  have hstop : runRest (stepsOf i (later ++ act :: rest)) s' = { t with busy := stepsOf i (act :: rest) } := by
    rw [stepsOf, List.map_append]
    exact runRest_of_fault (p := ⟨i, act⟩) hturns' hlater hfault
  rw [hexec, List.cons_append, stepsOf, List.map_cons, ← stepsOf]
  simp only [runSteps, hfirst, hstop]

/-! ### The steps of a `PAINT` that fault -/

theorem pixelColor_error {s : State} {buf : Addr} {dx dy : Nat} {f : Fault} (h : pixelColor s buf dx dy = .error f) :
    ∃ a, f = .mem a ∧ admitted s.mem a = false := by
  simp only [pixelColor] at h
  split at h
  · cases h
  · rename_i e hload
    obtain rfl : e = f := Except.error.inj h
    obtain ⟨hadm, hmem⟩ := (load_error_iff _ _ _).1 hload
    exact ⟨_, hmem, hadm⟩

theorem composePixels_error {s : State} {buf : Addr} {ns : List Nat} {f : Fault}
    (h : composePixels s buf ns = .error f) : ∃ a, f = .mem a ∧ admitted s.mem a = false := by
  induction ns with
  | nil => cases h
  | cons n ns ih =>
    simp only [composePixels] at h
    split at h
    · rename_i e hpixel
      obtain rfl : e = f := Except.error.inj h
      exact pixelColor_error hpixel
    · split at h
      · rename_i e hrest
        obtain rfl : e = f := Except.error.inj h
        exact ih hrest
      · cases h

/-- A frame that is not composed met a byte that may not be read (R192). -/
theorem framePixels_error {s : State} {buf : Addr} {f : Fault} (h : framePixels s buf = .error f) :
    ∃ a, f = .mem a ∧ admitted s.mem a = false :=
  composePixels_error h

/-- Composing faults as the frame does, in any state with the same memory, colours and sizes. -/
theorem runAct_compose_fault {s : State} {src : Addr} {f : Fault} (hframe : framePixels s src = .error f) (op : Instr)
    (t : State) (h : frameInputs t = frameInputs s) : runAct op (.compose src) t = .fault f := by
  simp only [runAct, (framePixels_congr h src).trans hframe]

theorem runAct_storeStream_fault (op : Instr) {i : Nat} {s : State}
    (hadm : admitted s.mem (s.cfg.streamBase.toNat + i) = false) :
    runAct op (.storeStream i) s = .fault (.mem (s.cfg.streamBase.toNat + i)) := by
  simp only [runAct, storeByte, store, hadm, Bool.false_eq_true, if_false]

/-! ### The synchronous operation (R190) -/

/-- Settles O38: the steps before the composing are those of `opened`. -/
theorem paintFaultsAfterTheWindow : Obligations.PaintFaultsAfterTheWindow := by
  unfold Obligations.PaintFaultsAfterTheWindow
  intro s src clr f hok hsync ⟨hturns, hlock⟩ hapart hframe
  obtain ⟨a, hmem, hadm⟩ := framePixels_error hframe
  obtain ⟨hstop, hfault⟩ := exec_stopsAtFault (opened s)
    (rest := List.replicate (streamLen s.cfg) .sendStream ++ [.csDeselect, .release] ++ clearActs s.cfg src clr)
    (by rw [exec_paint_sync hsync hapart]; simp [paintSyncActs]) (by simp) hok hturns
    (runAll_openViewport (.paint src clr) hok hlock) (runAct_compose_fault hframe (.paint src clr) (opened s) rfl)
  exact ⟨_, a, hstop, rfl, rfl, rfl, rfl, rfl, hmem, hadm, hfault⟩

/-! ### The DMA operation (R191) -/

/-- The first bytes of the composed stream stored from byte `i` on, the others left in it (R191). -/
theorem runAll_storeStream_front (op : Instr) (bs rest : List Byte) (i : Nat) (s : State)
    (hstream : s.stream = bs ++ rest)
    (hadm : rangeAdmitted s.mem (s.cfg.streamBase.toNat + i) bs.length = true) :
    runAll (stepsOf op ((List.range' i bs.length).map .storeStream)) s =
      some { s with mem := writeBytes s.mem (s.cfg.streamBase.toNat + i) bs, stream := rest } := by
  induction bs generalizing i s with
  | nil =>
    change some s = some { s with stream := rest }
    rw [← List.nil_append rest, ← hstream]
  | cons b bs ih =>
    obtain ⟨hfirst, hlater⟩ := (rangeAdmitted_succ _ _ _).1 hadm
    have hstore : runAct op (.storeStream i) s =
        .ok { s with mem := memWrite s.mem (s.cfg.streamBase.toNat + i) b, stream := bs ++ rest } :=
      (storeByte_ok_iff _ _ _ _).2 ⟨hfirst, by simp [hstream]⟩
    rw [List.length_cons, List.range'_succ, List.map_cons]
    exact runAll_cons_trans hstore (ih (i + 1) _ rfl (by rwa [rangeAdmitted_memWrite, ← Nat.add_assoc]))

/-- The state a DMA `PAINT` of the frame `ps` has reached after the first `i` bytes of the stream are stored. -/
def storedFront (ps : List Color12) (i : Nat) (s : State) : State :=
  { takeLock (.cons 0) s with
    mem := writeBytes s.mem s.cfg.streamBase.toNat ((streamBytes ps).take i), stream := (streamBytes ps).drop i }

section StoredFront

variable {s : State} {src : Addr} {ps : List Color12} {i : Nat}

theorem length_take_streamBytes (hframe : framePixels s src = .ok ps) (hi : i ≤ streamLen s.cfg) :
    ((streamBytes ps).take i).length = i := by
  rw [List.length_take, length_streamBytes_frame hframe, Nat.min_eq_left hi]

theorem runAll_storeFront (op : Instr) (hlock : s.lock = false) (hframe : framePixels s src = .ok ps)
    (hi : i ≤ streamLen s.cfg) (hadm : rangeAdmitted s.mem s.cfg.streamBase.toNat i = true) :
    runAll (stepsOf op (.acquire :: .compose src :: (List.range i).map .storeStream)) s =
      some (storedFront ps i s) := by
  have hlength := length_take_streamBytes hframe hi
  have hstore := runAll_storeStream_front op ((streamBytes ps).take i) ((streamBytes ps).drop i) 0
    { takeLock (.cons 0) s with stream := streamBytes ps } (List.take_append_drop i _).symm (by rwa [hlength])
  rw [hlength, ← List.range_eq_range'] at hstore
  exact runAll_cons_trans (runAct_acquire_of_free op s hlock) <|
    runAll_cons_trans (runAct_compose op (framePixels_ok_congr hframe _ rfl)) hstore

/-- What memory holds when the first `i` bytes of the stream are stored. -/
theorem memRead_storedFront (hframe : framePixels s src = .ok ps) (hi : i ≤ streamLen s.cfg)
    (hadm : rangeAdmitted s.mem s.cfg.streamBase.toNat i = true) (a : Nat) :
    memRead (storedFront ps i s).mem a =
      if inRange a s.cfg.streamBase.toNat i then (streamBytes ps)[a - s.cfg.streamBase.toNat]?
      else memRead s.mem a := by
  have hlength := length_take_streamBytes hframe hi
  rw [storedFront, memRead_writeBytes _ _ _ _ (by rwa [hlength]), hlength]
  by_cases hin : inRange a s.cfg.streamBase.toNat i
  · rw [if_pos hin, if_pos hin, List.getElem?_take_of_lt (by omega)]
  · rw [if_neg hin, if_neg hin]

end StoredFront

/-- The steps of a DMA `PAINT` cut before the store of byte `i`. -/
theorem paintDmaActs_cut {c : Config} {i : Nat} (hi : i < streamLen c) (src : Addr) (clr : Bool) :
    ∃ rest, paintDmaActs c src clr =
      (.acquire :: .compose src :: (List.range i).map .storeStream) ++ .storeStream i :: rest := by
  have hcut := List.take_append_drop i (List.range (streamLen c))
  rw [List.take_range, Nat.min_eq_left hi.le, List.drop_eq_getElem_cons (by simpa using hi), List.getElem_range] at hcut
  rw [paintDmaActs, ← hcut]
  simp only [List.map_append, List.map_cons, List.append_assoc, List.cons_append, List.nil_append]
  exact ⟨_, rfl⟩

theorem exec_paint_dma_acts {s : State} (hdma : s.cfg.transport = .dma) {src : Addr}
    (hapart : overlapsStream s.cfg src = false) (clr : Bool) :
    exec (.paint src clr) s = runSteps (stepsOf (.paint src clr) (paintDmaActs s.cfg src clr)) s := by
  rw [exec_paint_dma hdma hapart, paintDmaActs_eq]
  rfl

/-- Settles O58: the frame is composed right after the claim of the lock, and stored before the panel is selected. -/
theorem dmaPaintFaultsBeforeSelecting : Obligations.DmaPaintFaultsBeforeSelecting := by
  unfold Obligations.DmaPaintFaultsBeforeSelecting
  intro s src clr hok hdma ⟨hturns, hlock⟩ hapart
  have hexec := exec_paint_dma_acts hdma hapart clr
  refine ⟨fun f hframe => ?_, fun ps i hframe hi hfront hadm => ?_⟩
  · obtain ⟨a, hmem, hadm⟩ := framePixels_error hframe
    obtain ⟨hstop, hfault⟩ := exec_stopsAtFault (acts := [.acquire]) (takeLock (.cons 0) s) hexec (by simp) hok
      hturns (runAll_single (runAct_acquire_of_free _ s hlock)) (runAct_compose_fault hframe _ _ rfl)
    exact ⟨_, a, hstop, rfl, rfl, rfl, rfl, rfl, rfl, rfl, rfl, hmem, hadm, hfault⟩
  · have hrange := (rangeAdmitted_iff _ _ _).2 hfront
    obtain ⟨rest, hcut⟩ := paintDmaActs_cut hi src clr
    obtain ⟨hstop, hfault⟩ := exec_stopsAtFault (storedFront ps i s) (hcut ▸ hexec) (by simp) hok hturns
      (runAll_storeFront _ hlock hframe hi.le hrange)
      (runAct_storeStream_fault _ ((admitted_writeBytes _ _ _ _).trans hadm))
    exact ⟨_, hstop, rfl, rfl, rfl, rfl, rfl, rfl, rfl, memRead_storedFront hframe hi.le hrange, hfault⟩

end Sys2Proof.Proofs
end

