-- ==== Sys2Proof/Proofs/ReferenceSink.lean ====
section
/-! O47: what the reference sink of R290 shows after a draw call. Once its window is set, the number of pixels it has
been sent says where it is: pixel number `n` of a stream goes to `cell r n`, row by row, and after the last one from the
start again. -/

namespace Sys2Proof.Proofs

open Sys2Proof.Machine Sys2Proof.Laws

/-! ### The cells of a window -/

/-- Where pixel number `n` of a stream into the region goes. -/
def cell (r : Region) (n : Nat) : Nat × Nat := (r.x + n % r.w, r.y + n / r.w % r.h)

/-- Once there are as many pixels as the region has, they go to its cells and nowhere else. -/
theorem exists_cell_eq_iff {r : Region} (hw : 0 < r.w) (hh : 0 < r.h) {n : Nat} (hn : r.w * r.h ≤ n) (x y : Nat) :
    (∃ j < n, cell r j = (x, y)) ↔ inRegion x y r := by
  constructor
  · rintro ⟨j, _, hcell⟩
    obtain ⟨rfl, rfl⟩ := Prod.mk.inj hcell
    have hcol := Nat.mod_lt j hw
    have hrow := Nat.mod_lt (j / r.w) hh
    omega
  · intro ⟨hx, hx', hy, hy'⟩
    obtain ⟨dx, rfl⟩ := Nat.exists_eq_add_of_le hx
    obtain ⟨dy, rfl⟩ := Nat.exists_eq_add_of_le hy
    have hdx : dx < r.w := by omega
    have hdy : dy < r.h := by omega
    have hrows : r.w * (dy + 1) ≤ r.w * r.h := Nat.mul_le_mul_left _ hdy
    refine ⟨r.w * dy + dx, by rw [Nat.mul_add] at hrows; omega, ?_⟩
    rw [cell, Nat.mul_add_mod_self_left, Nat.mod_eq_of_lt hdx, Nat.mul_add_div hw, Nat.div_eq_of_lt hdx,
      Nat.add_zero, Nat.mod_eq_of_lt hdy]

theorem divMod_succ_of_lt {n w : Nat} (h : n % w + 1 < w) : (n + 1) / w = n / w ∧ (n + 1) % w = n % w + 1 := by
  have hn := Nat.mod_add_div n w
  exact (Nat.div_mod_unique (by omega)).2 ⟨by omega, h⟩

theorem divMod_succ_of_last {n w : Nat} (h : n % w + 1 = w) : (n + 1) / w = n / w + 1 ∧ (n + 1) % w = 0 := by
  have hn := Nat.mod_add_div n w
  exact (Nat.div_mod_unique (by omega)).2 ⟨by rw [Nat.mul_add]; omega, by omega⟩

section Next

variable {r : Region} {n : Nat}

/-! The cell after each cell, by the tests of R290's write pointer. -/

theorem cell_succ_of_col (hcol : ¬(cell r n).1 + 1 > r.x + r.w - 1) :
    cell r (n + 1) = ((cell r n).1 + 1, (cell r n).2) := by
  have hcol : ¬r.x + n % r.w + 1 > r.x + r.w - 1 := hcol
  obtain ⟨hdiv, hmod⟩ := divMod_succ_of_lt (n := n) (w := r.w) (by omega)
  rw [cell, cell, hdiv, hmod, Nat.add_assoc]

theorem cell_succ_of_lastCol (hw : 0 < r.w) (hcol : (cell r n).1 + 1 > r.x + r.w - 1) :
    cell r (n + 1) = (r.x, r.y + (n / r.w + 1) % r.h) := by
  have hcol : r.x + n % r.w + 1 > r.x + r.w - 1 := hcol
  have hlt := Nat.mod_lt n hw
  obtain ⟨hdiv, hmod⟩ := divMod_succ_of_last (n := n) (w := r.w) (by omega)
  rw [cell, hdiv, hmod, Nat.add_zero]

theorem cell_succ_of_row (hw : 0 < r.w) (hcol : (cell r n).1 + 1 > r.x + r.w - 1)
    (hrow : ¬(cell r n).2 + 1 > r.y + r.h - 1) : cell r (n + 1) = (r.x, (cell r n).2 + 1) := by
  have hrow : ¬r.y + n / r.w % r.h + 1 > r.y + r.h - 1 := hrow
  rw [cell_succ_of_lastCol hw hcol, (divMod_succ_of_lt (by omega)).2, cell, Nat.add_assoc]

theorem cell_succ_of_lastRow (hw : 0 < r.w) (hh : 0 < r.h) (hcol : (cell r n).1 + 1 > r.x + r.w - 1)
    (hrow : (cell r n).2 + 1 > r.y + r.h - 1) : cell r (n + 1) = (r.x, r.y) := by
  have hrow : r.y + n / r.w % r.h + 1 > r.y + r.h - 1 := hrow
  have hlt := Nat.mod_lt (n / r.w) hh
  rw [cell_succ_of_lastCol hw hcol, (divMod_succ_of_last (by omega)).2, Nat.add_zero]

end Next

/-! ### A stream into a window -/

/-- The image after the first `n` pixels of a stream in one colour, newest first. -/
def cellWrites (r : Region) (col : Color12) : Nat → List ((Nat × Nat) × Color12)
  | 0 => []
  | n + 1 => (cell r n, col) :: cellWrites r col n

/-- The sink in the middle of a stream in one colour: the window is the region, `n` pixels have been written. -/
def streamedSink (k : Sink) (r : Region) (col : Color12) (n : Nat) : Sink where
  xs := r.x
  xe := r.x + r.w - 1
  ys := r.y
  ye := r.y + r.h - 1
  px := (cell r n).1
  py := (cell r n).2
  mode := .stream []
  img := cellWrites r col n ++ k.img

theorem sinkPixel_streamedSink (k : Sink) (r : Region) (col : Color12) (n x y : Nat) :
    sinkPixel (streamedSink k r col n) x y = if ∃ j < n, cell r j = (x, y) then some col else sinkPixel k x y := by
  induction n with
  | zero => simp [sinkPixel, streamedSink, cellWrites]
  | succ n ih =>
    have hnewest : sinkPixel (streamedSink k r col (n + 1)) x y =
        if cell r n = (x, y) then some col else sinkPixel (streamedSink k r col n) x y := by
      simp only [sinkPixel, streamedSink, cellWrites, List.cons_append, List.find?_cons]
      by_cases h : cell r n = (x, y) <;> simp [h]
    rw [hnewest, ih]
    simp only [Nat.exists_lt_succ_right]
    by_cases h : cell r n = (x, y) <;> simp [h]

theorem sinkRun_append (k : Sink) (es fs : List Event) : sinkRun k (es ++ fs) = sinkRun (sinkRun k es) fs :=
  List.foldl_append

/-- The select line by itself shows nothing; its end drops a stream (R290). -/
theorem sinkRun_select (k : Sink) : sinkRun k [.cs .selected] = k := rfl

theorem sinkRun_deselect (k : Sink) : sinkRun k [.cs .deselected] = { k with mode := .ignore } := rfl

section Stream

variable {r : Region}

/-- One pixel more. -/
theorem sinkWrite_streamedSink (hw : 0 < r.w) (hh : 0 < r.h) (k : Sink) (col : Color12) (n : Nat) :
    sinkWrite (streamedSink k r col n) col = streamedSink k r col (n + 1) := by
  by_cases hcol : (cell r n).1 + 1 > r.x + r.w - 1
  · by_cases hrow : (cell r n).2 + 1 > r.y + r.h - 1
    · rw [streamedSink, streamedSink, cell_succ_of_lastRow hw hh hcol hrow]
      exact (if_pos hcol).trans (if_pos hrow)
    · rw [streamedSink, streamedSink, cell_succ_of_row hw hcol hrow]
      exact (if_pos hcol).trans (if_neg hrow)
  · rw [streamedSink, streamedSink, cell_succ_of_col hcol]
    exact if_neg hcol

/-- The three bytes of a pair are two pixels more. -/
theorem sinkRun_pair (hw : 0 < r.w) (hh : 0 < r.h) (k : Sink) (col : Color12) (n : Nat) :
    sinkRun (streamedSink k r col n) (dataEvents .selected (packPair col col)) = streamedSink k r col (n + 2) := by
  obtain ⟨b0, b1, b2, hpack, hunpack⟩ := unpackPair_packPair col col
  have hthird : sinkRun (streamedSink k r col n) (dataEvents .selected [b0, b1, b2]) =
      sinkWrite (sinkWrite (streamedSink k r col n) (unpackPair b0 b1 b2).1) (unpackPair b0 b1 b2).2 := rfl
  rw [hpack, hthird, hunpack, sinkWrite_streamedSink hw hh, sinkWrite_streamedSink hw hh]

/-- The pixel bytes of a rectangle are whole pairs (R198). -/
theorem sinkRun_pairs (hw : 0 < r.w) (hh : 0 < r.h) (k : Sink) (col : Color12) (m n : Nat) :
    sinkRun (streamedSink k r col n) (dataEvents .selected (List.replicate m (packPair col col)).flatten) =
      streamedSink k r col (n + 2 * m) := by
  induction m generalizing n with
  | zero => rfl
  | succ m ih =>
    rw [List.replicate_succ, List.flatten_cons, dataEvents, List.map_append, ← dataEvents, ← dataEvents,
      sinkRun_append, sinkRun_pair hw hh, ih]
    congr 1
    omega

end Stream

/-- The window of a region inside the panel, whose coordinates fit a byte (R91, R146): the stream begins at its first
cell, whatever the sink was doing. -/
theorem sinkRun_window {c : Config} {r : Region} (hwide : c.panelW ≤ 256) (hhigh : c.panelH ≤ 256)
    (hin : inPanel c r = true) (k : Sink) (col : Color12) :
    sinkRun k (windowEvents .selected r) = streamedSink k r col 0 := by
  obtain ⟨hw, hh, hx, hy⟩ := of_decide_eq_true hin
  have hbyte {n : Nat} (h : n < 256) : (BitVec.ofNat 8 n).toNat = n := Nat.mod_eq_of_lt h
  have hx0 := hbyte (show r.x < 256 by omega)
  have hx1 := hbyte (show r.x + r.w - 1 < 256 by omega)
  have hy0 := hbyte (show r.y < 256 by omega)
  have hy1 := hbyte (show r.y + r.h - 1 < 256 by omega)
  calc sinkRun k (windowEvents .selected r)
    _ = { k with
          xs := (BitVec.ofNat 8 r.x).toNat, xe := (BitVec.ofNat 8 (r.x + r.w - 1)).toNat,
          ys := (BitVec.ofNat 8 r.y).toNat, ye := (BitVec.ofNat 8 (r.y + r.h - 1)).toNat,
          px := (BitVec.ofNat 8 r.x).toNat, py := (BitVec.ofNat 8 r.y).toNat, mode := .stream [] } := rfl
    _ = streamedSink k r col 0 := by
      rw [hx0, hx1, hy0, hy1]
      simp [streamedSink, cellWrites, cell]

/-- Settles O47: the window puts the write pointer on the region's first cell, and the stream has at least as many
pixels as the region. -/
theorem drawCallPaintsItsRectangle : Obligations.DrawCallPaintsItsRectangle := by
  unfold Obligations.DrawCallPaintsItsRectangle
  intro c k r col hwide hhigh hin x y
  obtain ⟨hw, hh, _, _⟩ := of_decide_eq_true hin
  have hrun : sinkRun k (displayEvents r (fillBytes col (r.w * r.h))) =
      { streamedSink k r col (0 + 2 * ceil2 (r.w * r.h)) with mode := .ignore } := by
    rw [displayEvents, sinkRun_append, sinkRun_append, sinkRun_append, sinkRun_select, sinkRun_window hwide hhigh hin,
      fillBytes, sinkRun_pairs hw hh, sinkRun_deselect]
  have hall : r.w * r.h ≤ 0 + 2 * ceil2 (r.w * r.h) := by
    rw [ceil2]
    omega
  calc sinkPixel (sinkRun k (displayEvents r (fillBytes col (r.w * r.h)))) x y
    _ = sinkPixel (streamedSink k r col (0 + 2 * ceil2 (r.w * r.h))) x y := by
      rw [hrun]
      rfl
    _ = if inRegion x y r then some col else sinkPixel k x y := by
      rw [sinkPixel_streamedSink]
      exact if_congr (exists_cell_eq_iff hw hh hall x y) rfl rfl

end Sys2Proof.Proofs
end

