-- ==== Sys2Proof/Proofs/BorderRegions.lean ====
section
/-! O39 and O40: the rectangles of R220 and R221. Everything R222 says of their pixels follows from three concentric
boxes: outside the outline's box lie the fills, one pixel further in ends the outline, `GAP` more pixels further in ends
the gap, and the innermost box is the viewport. -/

namespace Sys2Proof.Proofs

open Sys2Proof.Machine Sys2Proof.Laws

/-! ### The rectangles lie in the panel -/

theorem inPanel_iff (c : Config) (r : Region) :
    inPanel c r = true ↔ 1 ≤ r.w ∧ 1 ≤ r.h ∧ r.x + r.w ≤ c.panelW ∧ r.y + r.h ≤ c.panelH := decide_eq_true_iff

/-- All the regions the block draws, and the viewport (R222 g1). -/
theorem inPanel_regions {c : Config} (hok : configOk c = true) (orient : Bool) :
    ∀ r ∈ viewport c :: (fillRegions c ++ outlineRegions c ++ gapRegions c ++ ledRegions c orient),
      nonEmpty r = true → inPanel c r = true := by
  simp only [List.forall_mem_cons, List.forall_mem_append]
  exact ⟨fun _ => inPanel_viewport hok, ⟨⟨inPanel_fillRegions hok, inPanel_outlineRegions hok⟩,
    inPanel_gapRegions hok⟩, inPanel_ledRegions hok orient⟩

/-- A spare row of the panel is in the bottom strip, a spare column in the right one (R220). -/
theorem far_margins {c : Config} (hok : configOk c = true) :
    c.panelH - oy1 c - 1 = oy0 c + (c.panelH - c.dstH - 2) % 2 ∧
      c.panelW - ox1 c - 1 = ox0 c + (c.panelW - c.dstW - 2) % 2 := by
  obtain ⟨_, ⟨hwide, hhigh, hgapX, hgapY⟩, _⟩ := (configOk_iff c).1 hok
  simp only [ox0, ox1, oy0, oy1, mx, my, vx0, vy0, marginX, marginY] at *
  omega

/-- Settles O39. -/
theorem regionsLieInThePanel : Obligations.RegionsLieInThePanel := by
  unfold Obligations.RegionsLieInThePanel
  rintro c orient _ _ _ _ _ _ _ hok rfl rfl rfl rfl rfl rfl rfl
  refine ⟨rfl, rfl, rfl, rfl, rfl, far_margins hok, fun r hr hw hh => ?_⟩
  have hpixel : nonEmpty r = true := decide_eq_true ⟨by omega, by omega⟩
  obtain ⟨_, _, hright, hbottom⟩ := (inPanel_iff c r).1 (inPanel_regions hok orient r hr hpixel)
  exact ⟨hright, hbottom⟩

/-! ### Three concentric boxes -/

/-- The pixel lies in the outline's box (R220), `k` or more pixels away from its outside. -/
def InBox (c : Config) (k px py : Nat) : Prop :=
  ox0 c + k ≤ px ∧ px + k ≤ ox1 c ∧ oy0 c + k ≤ py ∧ py + k ≤ oy1 c

theorem InBox.outward {c : Config} {j k px py : Nat} (h : InBox c k px py) (hjk : j ≤ k) : InBox c j px py := by
  unfold InBox at *
  omega

/-- The pixels one further out than `k + 1` form a ring one pixel thick. -/
theorem inBox_ring_iff (c : Config) (k px py : Nat) :
    (InBox c k px py ∧ ¬InBox c (k + 1) px py) ↔
      ox0 c + k ≤ px ∧ px + k ≤ ox1 c ∧ oy0 c + k ≤ py ∧ py + k ≤ oy1 c ∧
        (px = ox0 c + k ∨ px + k = ox1 c ∨ py = oy0 c + k ∨ py + k = oy1 c) := by
  unfold InBox
  omega

/-- The left fill strip ends at the outline's box, and the top one (R220). -/
theorem mx_eq_ox0 (c : Config) : mx c = ox0 c := rfl

theorem my_eq_oy0 (c : Config) : my c = oy0 c := rfl

theorem exists_mem_four {α : Type} (p : α → Prop) (a b c d : α) :
    (∃ r ∈ [a, b, c, d], p r) ↔ p a ∨ p b ∨ p c ∨ p d := by
  simp

section Pixels

variable {c : Config} {px py : Nat}

/-- The fills have exactly the panel's pixels outside the outermost box (R221). -/
theorem exists_fill_iff (hok : configOk c = true) (hpx : px < c.panelW) (hpy : py < c.panelH) :
    (∃ r ∈ fillRegions c, inRegion px py r) ↔ ¬InBox c 0 px py := by
  obtain ⟨hx, hy⟩ := outline_corners hok
  simp only [fillRegions, exists_mem_four, inRegion, InBox, mx_eq_ox0, my_eq_oy0, oh]
  omega

/-- The outline has the pixels between the outermost box and the next (R221). -/
theorem exists_outline_iff (hok : configOk c = true) :
    (∃ r ∈ outlineRegions c, inRegion px py r) ↔ InBox c 0 px py ∧ ¬InBox c 1 px py := by
  obtain ⟨hx, hy⟩ := outline_corners hok
  simp only [outlineRegions, exists_mem_four, inRegion, InBox, ow, oh]
  omega

/-- The gap has the pixels between that box and the viewport, none with `GAP = 0` (R221). -/
theorem exists_gap_iff (hok : configOk c = true) :
    (∃ r ∈ gapRegions c, inRegion px py r) ↔ InBox c 1 px py ∧ ¬InBox c (1 + gapN c) px py := by
  obtain ⟨hx, hy⟩ := outline_corners hok
  cases hgap : c.gap with
  | false => simp [gapRegions, gapN, hgap]
  | true =>
    have hone : gapN c = 1 := by simp [gapN, hgap]
    simp only [gapRegions, hgap, if_true, exists_mem_four, inRegion, InBox, hone]
    omega

/-- The viewport is the innermost box (R220). -/
theorem inRegion_viewport_iff (hok : configOk c = true) :
    inRegion px py (viewport c) ↔ InBox c (1 + gapN c) px py := by
  obtain ⟨_, ⟨_, _, hgapX, hgapY⟩, _⟩ := (configOk_iff c).1 hok
  simp only [viewport, inRegion, InBox, ox0, ox1, oy0, oy1, mx, my, vx0, vy0]
  omega

/-- The fills share no pixel: the top and bottom strips lie above and below the outline's box, the side strips beside
it. -/
theorem fills_disjoint (hok : configOk c = true) (px py : Nat) :
    (fillRegions c).Pairwise fun r q => ¬(inRegion px py r ∧ inRegion px py q) := by
  obtain ⟨hx, hy⟩ := outline_corners hok
  simp only [fillRegions, List.pairwise_cons, List.forall_mem_cons, inRegion, mx_eq_ox0, my_eq_oy0, oh]
  refine ⟨⟨?_, ?_, ?_, by simp⟩, ⟨?_, ?_, by simp⟩, ⟨?_, by simp⟩, by simp, .nil⟩ <;> omega

/-- What the fills leave lies in the outline's box (R222 g3). -/
theorem inBox_of_not_fill (hok : configOk c = true) {q : Region}
    (hq : q ∈ viewport c :: (outlineRegions c ++ gapRegions c)) (h : inRegion px py q) : InBox c 0 px py := by
  rcases List.mem_cons.1 hq with rfl | hq
  · exact ((inRegion_viewport_iff hok).1 h).outward (Nat.zero_le _)
  rcases List.mem_append.1 hq with hq | hq
  · exact ((exists_outline_iff hok).1 ⟨q, hq, h⟩).1
  · exact ((exists_gap_iff hok).1 ⟨q, hq, h⟩).1.outward (Nat.zero_le _)

/-- What lies inside the outline's ring (R222 g3). -/
theorem inBox_of_inside_outline (hok : configOk c = true) {q : Region} (hq : q ∈ viewport c :: gapRegions c)
    (h : inRegion px py q) : InBox c 1 px py := by
  rcases List.mem_cons.1 hq with rfl | hq
  · exact ((inRegion_viewport_iff hok).1 h).outward (Nat.le_add_right _ _)
  · exact ((exists_gap_iff hok).1 ⟨q, hq, h⟩).1

/-- Each pixel is in the innermost of the three boxes, in one of the two rings, or outside all of them (R222 g2). -/
theorem regions_cover (hok : configOk c = true) (hpx : px < c.panelW) (hpy : py < c.panelH) :
    ∃ r ∈ viewport c :: (fillRegions c ++ outlineRegions c ++ gapRegions c), inRegion px py r := by
  simp only [List.exists_mem_cons_iff, List.mem_append, or_and_right, exists_or, inRegion_viewport_iff hok,
    exists_fill_iff hok hpx hpy, exists_outline_iff hok, exists_gap_iff hok]
  tauto

/-- The gap is the ring one pixel inside the outline, and only with `GAP = 1` (R222 g4). -/
theorem exists_gap_iff_ring (hok : configOk c = true) :
    (∃ r ∈ gapRegions c, inRegion px py r) ↔
      c.gap = true ∧ ox0 c + 1 ≤ px ∧ px + 1 ≤ ox1 c ∧ oy0 c + 1 ≤ py ∧ py + 1 ≤ oy1 c ∧
        (px = ox0 c + 1 ∨ px + 1 = ox1 c ∨ py = oy0 c + 1 ∨ py + 1 = oy1 c) := by
  rw [exists_gap_iff hok]
  cases hgap : c.gap with
  | false => simp [gapN, hgap]
  | true =>
    have hone : gapN c = 1 := by simp [gapN, hgap]
    rw [hone, inBox_ring_iff, eq_self, true_and]

end Pixels

/-- Settles O40: which pixels each kind of region has is said by the three boxes, each inside the one before. -/
theorem regionsCoverThePanel : Obligations.RegionsCoverThePanel := by
  unfold Obligations.RegionsCoverThePanel
  rintro c _ _ _ _ _ hok rfl rfl rfl rfl rfl px py hpx hpy
  refine ⟨regions_cover hok hpx hpy, fun r hr hin q hq hin' => ?_, fills_disjoint hok px py,
    (exists_outline_iff hok).trans (inBox_ring_iff c 0 px py), exists_gap_iff_ring hok,
    fun r hr hin q hq hin' => ?_, fun r hr hin hview => ?_⟩
  · exact (exists_fill_iff hok hpx hpy).1 ⟨r, hr, hin⟩ (inBox_of_not_fill hok hq hin')
  · exact ((exists_outline_iff hok).1 ⟨r, hr, hin⟩).2 (inBox_of_inside_outline hok hq hin')
  · exact ((exists_gap_iff hok).1 ⟨r, hr, hin⟩).2 ((inRegion_viewport_iff hok).1 hview)

end Sys2Proof.Proofs
end

