-- ==== Sys2Proof/Proofs/DrawBorder.lean ====
section
/-! O41: `DRAW_BORDER` (R230). Its steps are the draw calls of all the regions, and the flag after them; the first one
is an `Acquire`, because the outline is never empty. -/

namespace Sys2Proof.Proofs

open Sys2Proof.Machine Sys2Proof.Laws

/-- The draw calls of `DRAW_BORDER`, in their order (R230). -/
def borderActs (s : State) : List Act :=
  drawFillsActs s.cfg s.theme.bfill ++ drawOutlineActs s.cfg s.theme.bline ++ drawGapActs s.cfg s.theme.bg ++
    ledRenderActs s

/-- What they put on the wire. -/
def borderEvents (s : State) : List Event :=
  fillEvents s s.theme.bfill ++ outlineEvents s s.theme.bline ++ gapEvents s s.theme.bg ++ ledEvents s

theorem exec_drawBorder (s : State) :
    exec .drawBorder s = runSteps (stepsOf .drawBorder (borderActs s ++ [.setBorderDrawn])) s := rfl

theorem draws_border {s : State} (hok : configOk s.cfg = true) :
    Draws s.cfg .drawBorder (borderActs s) (borderEvents s) :=
  (((draws_fillAll (inPanel_fillRegions hok) _ _).append (draws_outline hok _ _)).append
    (draws_gap hok _ _)).append (draws_fillAll (inPanel_ledRegions hok s.orient) _ _)

/-- With no pixel to fill, the outline is the first to be drawn, and it always has a pixel. -/
theorem borderActs_eq_acquire_cons (s : State) : ∃ rest, borderActs s = .acquire :: rest := by
  simp only [borderActs, List.append_assoc]
  by_cases hfills : ∃ r ∈ fillRegions s.cfg, nonEmpty r = true
  · exact drawFillsActs_eq_acquire_cons hfills _ _
  · have hnone : ∀ r ∈ fillRegions s.cfg, nonEmpty r = false := by simpa using hfills
    obtain ⟨rest, houtline⟩ := drawOutlineActs_eq_acquire_cons s.cfg s.theme.bline
    exact ⟨_, by rw [drawFillsActs, fillAllActs_of_empty hnone, List.nil_append, houtline, List.cons_append]⟩

theorem exec_drawBorder_undisturbed {s : State} (hok : configOk s.cfg = true) (hfree : undisturbed s) :
    exec .drawBorder s = .next (finished { afterDraws (borderEvents s) s with borderDrawn := true }) := by
  obtain ⟨hturns, hlock⟩ := hfree
  have hflag : runAct .drawBorder .setBorderDrawn (afterDraws (borderEvents s) s) =
      .ok { afterDraws (borderEvents s) s with borderDrawn := true } := rfl
  exact runSteps_complete _ s _ hturns (runAll_append_trans (draws_border hok s rfl hlock) (runAll_single hflag))

/-- Settles O41: from a free lock all the draw calls and the flag, from a held one the wait in the first of them. -/
theorem drawBorderDrawsEveryRegion : Obligations.DrawBorderDrawsEveryRegion := by
  unfold Obligations.DrawBorderDrawsEveryRegion
  refine ⟨rfl, fun s hok => ⟨exec_drawBorder_undisturbed hok, fun hlock => ?_⟩⟩
  obtain ⟨rest, hacts⟩ := borderActs_eq_acquire_cons s
  refine waitsForLock_of_acquire (rest := rest ++ [.setBorderDrawn]) hok hlock fun l h => ?_
  rw [← List.cons_append, ← hacts]
  exact exec_drawBorder { s with lock := l, holder := h }

end Sys2Proof.Proofs
end

