-- ==== Sys2Proof/Proofs/LedBar.lean ====
section
/-! O42 to O44: the LED bar. The setters are one primitive step that stores (R250 to R252, R256); `LED_RENDER` is the
draw call of one strip, which has a pixel whenever the configuration has a strip at all (R254). -/

namespace Sys2Proof.Proofs

open Sys2Proof.Machine Sys2Proof.Laws

/-! ### The setters -/

theorem wordLD_eq (op : Byte) (ch : BitVec 2) (on : Bool) :
    wordLD op ch on = shifted op 0 ||| shifted ch 8 ||| (if on then 0x10000 else 0) := by
  cases on <;> rfl

theorem exec_ledSetChannel {ch : BitVec 2} (hch : ch ≠ 3) (level : Byte) (s : State) :
    exec (.ledSetChannel ch level) s = .next (finished { s with led := ledWrite s.led ch level }) :=
  exec_of_store (if_neg hch) rfl

theorem exec_ledSetDigital {ch : BitVec 2} (hch : ch ≠ 3) (on : Bool) (s : State) :
    exec (.ledSetDigital ch on) s = .next (finished { s with led := ledWrite s.led ch (digitalLevel on) }) :=
  exec_of_store (if_neg hch) rfl

theorem exec_ledSetAll (r g b : Byte) (s : State) :
    exec (.ledSetAll r g b) s = .next (finished { s with led := ⟨r, g, b⟩ }) :=
  exec_of_store (store := .setLeds ⟨r, g, b⟩) rfl rfl

/-- The reserved channel (R84). -/
theorem exec_ledSetChannel_reserved (level : Byte) (s : State) :
    exec (.ledSetChannel 3 level) s = .refused (.encoding .reservedChannel) := rfl

theorem exec_ledSetDigital_reserved (on : Bool) (s : State) :
    exec (.ledSetDigital 3 on) s = .refused (.encoding .reservedChannel) := rfl

/-- Settles O42: each of the three channels by the one rule of its setter, and the fourth by its refusal. -/
theorem ledSettersOnlyStore : Obligations.LedSettersOnlyStore := by
  unfold Obligations.LedSettersOnlyStore
  refine ⟨fun ch level r g b on => ⟨rfl, rfl, congrArg Item.word (wordLD_eq 0x42 ch on)⟩, fun s r g b on => ?_⟩
  exact ⟨exec_ledSetChannel (by decide) r s, exec_ledSetChannel (by decide) g s, exec_ledSetChannel (by decide) b s,
    exec_ledSetChannel_reserved b s, exec_ledSetAll r g b s, exec_ledSetDigital (by decide) on s,
    exec_ledSetDigital (by decide) on s, exec_ledSetDigital (by decide) on s, exec_ledSetDigital_reserved on s⟩

/-- Settles O43: the operation is the one step that stores the flag. -/
theorem setOrientOnlyStores : Obligations.SetOrientOnlyStores := by
  unfold Obligations.SetOrientOnlyStores
  refine fun s flag => ⟨?_, exec_of_store (store := .setOrient flag) rfl rfl⟩
  cases flag <;> rfl

/-! ### The strip -/

/-- The strip of a configuration that has one (R254). -/
def ledStrip (c : Config) (orient : Bool) : Region := ⟨0, if orient then c.panelH - c.ledH else 0, c.panelW, c.ledH⟩

theorem ledRegions_of_present {c : Config} (hpresent : c.ledPresent = true) (orient : Bool) :
    ledRegions c orient = [ledStrip c orient] := if_pos hpresent

/-- Panel and strip have a positive size (R6). -/
theorem nonEmpty_ledStrip {c : Config} (hok : configOk c = true) (orient : Bool) :
    nonEmpty (ledStrip c orient) = true := by
  obtain ⟨hranges, _⟩ := (configOk_iff c).1 hok
  exact decide_eq_true (by simp only [ledStrip]; omega)

theorem ledRenderActs_of_absent {s : State} (habsent : s.cfg.ledPresent = false) : ledRenderActs s = [] := by
  simp [ledRenderActs, ledRegions, habsent, fillAllActs]

theorem ledRenderActs_eq_acquire_cons {s : State} (hpresent : s.cfg.ledPresent = true) (hok : configOk s.cfg = true) :
    ∃ rest, ledRenderActs s = .acquire :: rest :=
  fillAllActs_eq_acquire_cons
    ⟨ledStrip s.cfg s.orient, by simp [ledRegions_of_present hpresent], nonEmpty_ledStrip hok s.orient⟩ _

theorem ledEvents_of_present {s : State} (hpresent : s.cfg.ledPresent = true) (hok : configOk s.cfg = true) :
    ledEvents s =
      displayEvents (ledStrip s.cfg s.orient) (fillBytes (ledColor s.led) (s.cfg.panelW * s.cfg.ledH)) := by
  rw [ledEvents, drawEvents, ledRegions_of_present hpresent, List.filter_singleton, nonEmpty_ledStrip hok]
  exact List.flatMap_singleton _ _

/-- A draw call puts at least its `CS+` and `CS-` on the wire. -/
theorem afterDraws_displayEvents (r : Region) (bytes : List Byte) (s : State) :
    afterDraws (displayEvents r bytes) s =
      { s with lock := false, holder := .none, cs := .deselected, dc := .data, wt := s.wt ++ displayEvents r bytes } :=
  rfl

/-! ### `LED_RENDER` -/

theorem exec_ledRender (s : State) : exec .ledRender s = runSteps (stepsOf .ledRender (ledRenderActs s)) s := rfl

theorem draws_led {s : State} (hok : configOk s.cfg = true) (op : Instr) :
    Draws s.cfg op (ledRenderActs s) (ledEvents s) :=
  draws_fillAll (inPanel_ledRegions hok s.orient) op _

theorem exec_ledRender_undisturbed {s : State} (hok : configOk s.cfg = true) (hfree : undisturbed s) :
    exec .ledRender s = .next (finished (afterDraws (ledEvents s) s)) := by
  obtain ⟨hturns, hlock⟩ := hfree
  exact runSteps_complete _ s _ hturns (draws_led hok _ s rfl hlock)

/-- Settles O44: with no strip there is no step; from a free lock the strip's draw call runs to its end, from a held one
it waits in its `Acquire`. -/
theorem ledRenderPaintsTheStrip : Obligations.LedRenderPaintsTheStrip := by
  unfold Obligations.LedRenderPaintsTheStrip
  refine ⟨rfl, fun s => ⟨fun habsent => ?_, fun hpresent hok hfree => ?_, fun hpresent hok hlock => ?_⟩⟩
  · rw [exec_ledRender, ledRenderActs_of_absent habsent]
    rfl
  · rw [exec_ledRender_undisturbed hok hfree, ledEvents_of_present hpresent hok, afterDraws_displayEvents]
    rfl
  · obtain ⟨rest, hacts⟩ := ledRenderActs_eq_acquire_cons hpresent hok
    exact waitsForLock_of_acquire hok hlock fun l h => hacts ▸ exec_ledRender { s with lock := l, holder := h }

end Sys2Proof.Proofs
end

