-- ==== Sys2Proof/Proofs/Reset.lean ====
section
/-! O48: the values of R331, each read off the one definition of the state after reset. -/

namespace Sys2Proof.Proofs

open Sys2Proof.Machine

/-- Settles O48: the ten values R331 specifies, the five it leaves to the parameters, and what R330 says of the trace,
the count of lines and the operation in progress. -/
theorem resetLeavesTheStatedValues : Obligations.ResetLeavesTheStatedValues := by
  unfold Obligations.ResetLeavesTheStatedValues
  intro c
  exact ⟨rfl, rfl, rfl, rfl, rfl, rfl, rfl, rfl, rfl, rfl,
    rfl, rfl, rfl, rfl, rfl,
    rfl, rfl, rfl⟩

end Sys2Proof.Proofs
end

