-- ==== Sys2Proof/Proofs/Presentation.lean ====
section
/-! O5 and O6: the step that presents a line of the host program (R13, R22). With no operation in progress the host's
turn presents the line at `opi`, which runs when it decodes and ends the run when it does not; the decoder comes before
any precondition of the operation (R84, R303). -/

namespace Sys2Proof.Proofs

open Sys2Proof.Machine Sys2Proof.Laws

theorem hostStep_presents (s : State) (item : Item) (hbusy : s.busy = []) (hline : s.prog[s.opi]? = some item) :
    hostStep s = present item s := by
  have hfetch : fetch s = some item := hline
  simp [hostStep, hbusy, hfetch]

/-- The same line is presented when the script names the host, whose turn is then used up (assumption 9). -/
theorem step_host_presents (s : State) (item : Item) (ts : List Turn) (hok : configOk s.cfg = true)
    (hbusy : s.busy = []) (hturns : s.turns = .host :: ts) (hline : s.prog[s.opi]? = some item) :
    step s = present item { s with turns := ts } := by
  rw [step_turn s .host ts hok hturns]
  exact hostStep_presents { s with turns := ts } item hbusy hline

theorem present_of_ok (item : Item) (i : Instr) (s : State) (h : decode item = .ok i) : present item s = exec i s := by
  simp [present, h]

/-- Settles O5: both orders present the line, and a line that decodes runs its operation. -/
theorem stepRunsThePresentedOperation : Obligations.StepRunsThePresentedOperation := by
  unfold Obligations.StepRunsThePresentedOperation
  intro s item i hok hbusy hline hdecode
  refine ⟨fun hturns => ?_, fun ts hturns => ?_⟩
  · exact (step_presents s item hok hbusy hturns hline).trans (present_of_ok item i s hdecode)
  · exact (step_host_presents s item ts hok hbusy hturns hline).trans (present_of_ok item i _ hdecode)

/-- Settles O6: the line is presented, and presenting it answers the decoder's reason. -/
theorem refusedLineEndsTheRun : Obligations.RefusedLineEndsTheRun := by
  unfold Obligations.RefusedLineEndsTheRun
  intro s item why hok hbusy hline hdecode hturns
  exact (step_presents s item hok hbusy hturns hline).trans (present_of_error item why s hdecode)

end Sys2Proof.Proofs
end

