-- ==== Sys2Proof/Proofs/BufferOverlap.lean ====
section
/-! O37: a `PAINT` over the stream buffer (R7 c4, R199, U20). The refusal is read off the parameters and the operand
before the transport is looked at, so it is the same in both. -/

namespace Sys2Proof.Proofs

open Sys2Proof.Machine

/-- The check of `PAINT` is the overlap of the two ranges: each begins before the other ends. -/
theorem overlapsStream_iff (c : Config) (src : Addr) :
    overlapsStream c src = true ↔
      src.toNat < c.streamBase.toNat + streamLen c ∧ c.streamBase.toNat < src.toNat + srcBytes c :=
  decide_eq_true_iff

theorem execRefusal_paint_of_overlap {c : Config} {src : Addr} (h : overlapsStream c src = true) (clr : Bool) :
    execRefusal (.paint src clr) c = some .bufferOverlap := if_pos h

/-- Settles O37: the two ranges overlap, and `exec` answers the refusal of the operation. -/
theorem paintRefusesAnOverlappingBuffer : Obligations.PaintRefusesAnOverlappingBuffer := by
  unfold Obligations.PaintRefusesAnOverlappingBuffer
  intro s src clr hbefore hafter
  have hoverlap : overlapsStream s.cfg src = true := (overlapsStream_iff s.cfg src).2 ⟨hbefore, hafter⟩
  exact exec_eq_refused _ s _ (execRefusal_paint_of_overlap hoverlap clr)

end Sys2Proof.Proofs
end
